-- ==== Sys2Proof/Word.lean ====
section
/-! DEFINITION. The words of the SHT2x sensor command framer (spec/00_scope.md R11, R13): bytes, register addresses
and host access words. Bit 0 is the least significant bit. -/

namespace Sys2Proof

/-- A host register, a transport byte, a checksum, a configuration byte (R11). -/
abbrev Byte := BitVec 8

/-- A host register address, `h_addr[3:0]` (R11, R22). -/
abbrev RegAddr := BitVec 4

/-- A HOSTACC word `{WE, ADDR[3:0], WDATA[7:0]}` (30_encoding.md R91). -/
abbrev AccessWord := BitVec 13

end Sys2Proof
end

