-- ==== Sys2Proof/Machine/Checksum.lean ====
section
/-! DEFINITION. The checksum (spec/41_checksum.md): CRC-8, polynomial 0x31, initial value 0x00, most significant bit
first, no reflection, no final XOR (R140). -/

namespace Sys2Proof.Machine

/-- The polynomial (R140). -/
def crcPoly : Byte := 0x31

/-- The initial value (R140, R142). -/
def crcInit : Byte := 0x00

/-- One bit position: "if the high bit is set, shift left and XOR the polynomial, else shift left" (R141). -/
def crc8Bit (acc : Byte) : Byte := if acc.getLsbD 7 then (acc <<< 1) ^^^ crcPoly else acc <<< 1

/-- `k` bit positions. -/
def crc8Bits : Nat → Byte → Byte
  | 0, acc => acc
  | k + 1, acc => crc8Bits k (crc8Bit acc)

/-- `crc8_step`: XOR the byte in, then eight bit positions (R141). -/
def crc8Step (acc byte : Byte) : Byte := crc8Bits 8 (acc ^^^ byte)

/-- `crc8_step` over a list from its first byte, from a given accumulator. -/
def crc8From (acc : Byte) : List Byte → Byte
  | [] => acc
  | x :: xs => crc8From (crc8Step acc x) xs

/-- `crc8` (R142). -/
def crc8 (bytes : List Byte) : Byte := crc8From crcInit bytes

/-- The validator's verdict on a measurement response (R143), over the data bytes as received (90_conflicts.md C2). -/
def sampleIntact (d0 d1 c : Byte) : Bool := crc8 [d0, d1] == c

end Sys2Proof.Machine
end

