-- ==== Sys2Proof/Machine/Formula.lean ====
section
/-! DEFINITION. The conversion formulas of spec/49_host_conversion.md as functions of the raw count, the number types in
which a host may evaluate them, and the orders in which it may (R215, R216, R218). -/

namespace Sys2Proof

/-- A number type in which a host may compute: how it takes a number of a formula or a count, its operations, each with
the type's own rounding, and the value a number stands for (`none` for an infinity or a NaN) (R218; log 24). -/
structure NumType (α : Type) where
  lit   : ℚ → α
  add   : α → α → α
  mul   : α → α → α
  div   : α → α → α
  value : α → Option ℚ
  deriving Inhabited

/-- An expression over the raw count: a formula with an evaluation order (R218). -/
inductive ConvExpr where
  /-- The raw count. -/
  | raw
  /-- A number that stands in the expression. -/
  | lit (q : ℚ)
  | add (a b : ConvExpr)
  | mul (a b : ConvExpr)
  | div (a b : ConvExpr)
  deriving DecidableEq, Repr, Inhabited

end Sys2Proof

namespace Sys2Proof.Machine

/-! ### The reference values -/

/-- `T(raw) = -46.85 + 175.72 * raw / 65536`, degrees Celsius (R215). -/
def temperatureOf (raw : Nat) : ℚ := -(4685 / 100) + (17572 / 100) * raw / 65536

/-- `RH(raw) = -6.0 + 125.0 * raw / 65536`, percent, not clamped (R216). -/
def humidityOf (raw : Nat) : ℚ := -6 + 125 * raw / 65536

/-! ### Evaluation in a number type -/

/-- An expression evaluated in a number type, operation by operation (R218). -/
def evalConv {α : Type} (n : NumType α) (raw : Nat) : ConvExpr → α
  | .raw => n.lit raw
  | .lit q => n.lit q
  | .add a b => n.add (evalConv n raw a) (evalConv n raw b)
  | .mul a b => n.mul (evalConv n raw a) (evalConv n raw b)
  | .div a b => n.div (evalConv n raw a) (evalConv n raw b)

/-- Exact arithmetic, which rounds nothing: the number type of the reference value (R218). A division by zero has no
value. -/
def exactNum : NumType (Option ℚ) where
  lit := some
  add := Option.map₂ (· + ·)
  mul := Option.map₂ (· * ·)
  div a b := a.bind fun x => b.bind fun y => if y = 0 then none else some (x / y)
  value := id

/-- `e` is an evaluation order of the formula `f`: without rounding it gives the value of `f` at every 16-bit count. -/
def IsOrderOf (e : ConvExpr) (f : Nat → ℚ) : Prop := ∀ raw < 65536, evalConv exactNum raw e = some (f raw)

/-- R215's formula in the order in which it is written. -/
def temperatureExpr : ConvExpr := .add (.lit (-(4685 / 100))) (.div (.mul (.lit (17572 / 100)) .raw) (.lit 65536))

/-- R216's formula in the order in which it is written. -/
def humidityExpr : ConvExpr := .add (.lit (-6)) (.div (.mul (.lit 125) .raw) (.lit 65536))

theorem temperatureExpr_isOrderOf : IsOrderOf temperatureExpr temperatureOf := fun _ _ => by
  simp [temperatureExpr, temperatureOf, evalConv, exactNum]

theorem humidityExpr_isOrderOf : IsOrderOf humidityExpr humidityOf := fun _ _ => by
  simp [humidityExpr, humidityOf, evalConv, exactNum]

end Sys2Proof.Machine
end

