-- ==== Sys2Proof/Config.lean ====
section
/-! DEFINITION. The open parameters of the spec (92_eei_decisions.md, "Open parameters") that the model takes as
arguments, with the types of those that are more than a number. None has a value: a claim about the model holds for
every value of them. -/

namespace Sys2Proof

/-- `CONV_NUM` with what a claim about a host's own result needs fixed beside it (49_host_conversion.md R218): the number
type, whose numbers are words of some width, and for each formula the order in which the host evaluates it. The order is
the host's, the formula is not: each expression is an order of its rule's formula (R215, R216). Log 24. -/
structure ConvNum where
  width             : Nat
  num               : NumType (BitVec width)
  temperature       : ConvExpr := Machine.temperatureExpr
  humidity          : ConvExpr := Machine.humidityExpr
  temperature_order : Machine.IsOrderOf temperature Machine.temperatureOf := by exact Machine.temperatureExpr_isOrderOf
  humidity_order    : Machine.IsOrderOf humidity Machine.humidityOf := by exact Machine.humidityExpr_isOrderOf
  deriving Inhabited

/-- An interrupt that is pending at the host: on which of its interrupt lines, and with what priority
(60_exceptions.md R230). -/
structure HostInterrupt where
  line     : Nat
  priority : Nat
  deriving DecidableEq, Repr, Inhabited

/-- How a platform routes and prioritises `irq` (R230): the interrupts pending at the host, given the levels that `irq`
has had, the present one first. A platform that leaves `irq` unconnected has none pending ever; one with a latch or a
delay looks at the earlier levels. Log 28. -/
abbrev IrqRouting := List Bool → List HostInterrupt

/-- `DEV_ADDR`, the 7-bit I2C device address of every transaction (00_scope.md R9). Log 7. -/
opaque Config.devAddr : BitVec 7

/-- `SCF_BASE`, the block's base address in the host's own address space (20_memory.md R81). Log 20. -/
opaque Config.scfBase : Nat

/-- `T_PWRUP_MS`, the sensor's power-up time in milliseconds (70_reset_and_hazards.md R251). Log 20. -/
opaque Config.tPwrupMs : Nat

/-- `CONV_NUM`, the number type of the host's conversions, with the host's evaluation orders (00_scope.md R12,
49_host_conversion.md R218). Log 24. -/
opaque Config.convNum : ConvNum

/-- `IRQ_ROUTING`, how `irq` reaches the host (60_exceptions.md R230). Log 28. -/
opaque Config.irqRouting : IrqRouting

/-- `SENSOR_CFG_POR`, the fake device's power-on configuration byte (70_reset_and_hazards.md R250). Log 25. -/
opaque Config.sensorCfgPor : Byte

/-- What each 2-bit TXERR code means: the transport's own (10_state.md R23, 60_exceptions.md R222). Log 21. -/
opaque Config.txerrMeaning : BitVec 2 → String

end Sys2Proof
end

