-- ==== Sys2Proof/Syntax.lean ====
section
/-! DEFINITION. The syntax: the sixteen host registers, the eight host operations, and `Instr`, one constructor for
each row of spec/opcode_table.json, at its three levels (30_encoding.md R90): host register accesses (HOSTACC), host
operations (HOSTOP) and wire commands (I2C_CMD). -/

namespace Sys2Proof

/-- The host registers (10_state.md R26), in address order. -/
inductive Reg where
  | cmd | status | irqen | arg | rawh | rawl | mstat | mcrc
  | cfgRd | cfgWr | cfgFields | crcAcc | crcDin | codecByte | codecFields | valid
  deriving DecidableEq, Repr

/-- The operations a CMD byte can name (30_encoding.md R94). -/
inductive HostOp where
  | softReset | measT | measRh | readCfg | writeCfg | heaterOn | heaterOff | readEob
  deriving DecidableEq, Repr

/-- One constructor per row of spec/opcode_table.json. A read access carries its eight ignored data bits, so that no
bit of a word is dropped (R91: WDATA is "ignored when WE = 0"; log 18). -/
inductive Instr where
  -- HOSTOP: the byte accepted in CMD (R93 to R95)
  | softReset
  | measT
  | measRh
  | readCfg
  | writeCfg
  | heaterOn
  | heaterOff
  | readEob
  | illegal (b : Byte)
  -- HOSTACC reads: `d` is ignored
  | rdCmd (d : Byte)
  | rdStatus (d : Byte)
  | rdIrqen (d : Byte)
  | rdArg (d : Byte)
  | rdRawh (d : Byte)
  | rdRawl (d : Byte)
  | rdMstat (d : Byte)
  | rdMcrc (d : Byte)
  | rdCfgRd (d : Byte)
  | rdCfgWr (d : Byte)
  | rdCfgFields (d : Byte)
  | rdCrcAcc (d : Byte)
  | rdCrcDin (d : Byte)
  | rdCodecByte (d : Byte)
  | rdCodecFields (d : Byte)
  | rdValid (d : Byte)
  -- HOSTACC writes: `v` is `h_wdata`
  | wrCmd (v : Byte)
  | wrCmdRejected (v : Byte)
  | wrStatus (v : Byte)
  | wrIrqen (v : Byte)
  | wrArg (v : Byte)
  | wrRoRawh (v : Byte)
  | wrRoRawl (v : Byte)
  | wrRoMstat (v : Byte)
  | wrRoMcrc (v : Byte)
  | wrRoCfgRd (v : Byte)
  | wrRoCfgWr (v : Byte)
  | wrRoCfgFields (v : Byte)
  | wrCrcAcc (v : Byte)
  | wrCrcDin (v : Byte)
  | wrCodecByte (v : Byte)
  | wrCodecFields (v : Byte)
  | wrRoValid (v : Byte)
  -- I2C_CMD: the command byte of a written frame (R100); CMD_WRITE_CFG carries its payload byte
  | cmdSoftReset
  | cmdMeasTHold
  | cmdMeasRhHold
  | cmdWriteCfg (b : Byte)
  | cmdReadCfg
  deriving DecidableEq, Repr

/-- The words of an instruction, by format (R90): a 13-bit access, a CMD byte, a written frame. The format is fixed by
the place a word stands in (the host port, the CMD data, the wire), not by a bit of it. -/
inductive Encoded where
  | access (w : AccessWord)
  | op (b : Byte)
  | frame (bytes : List Byte)
  deriving DecidableEq, Repr

end Sys2Proof
end

