-- ==== Sys2Proof/Machine/State.lean ====
section
/-! DEFINITION. The machine's state as plain data (spec/10_state.md), the reasons a step can stop, and the state after
block reset (R50). -/

namespace Sys2Proof.Machine

/-- The sequencer state (R45), the block's only control state. -/
inductive Fsm where
  | idle | rstW | rstD | measW | measR | cfgrW | cfgwW
  deriving DecidableEq, Repr

/-- The names of STATUS.ERR (60_exceptions.md R221); codes 5 to 7 are "never produced" and have no name. -/
inductive ErrCode where
  | none | transport | integrity | decode | illegalOp
  deriving DecidableEq, Repr

/-- STATUS (R28), field by field; it has no reserved bit. -/
structure Status where
  busy  : Bool
  done  : Bool
  err   : ErrCode
  ovr   : Bool
  txerr : BitVec 2
  deriving DecidableEq, Repr

/-- MSTAT.KIND (R33). -/
inductive MeasKind where
  | temperature | humidity
  deriving DecidableEq, Repr

/-- MSTAT (R33); its reserved bits 7:3 store nothing. -/
structure Mstat where
  kind  : MeasKind
  sbits : BitVec 2
  deriving DecidableEq, Repr

/-- VALID (R42); its reserved bits 7:3 store nothing. -/
structure Valid where
  measV  : Bool
  cfgrdV : Bool
  cfgwrV : Bool
  deriving DecidableEq, Repr

/-- The three request shapes of the transport port (R23). -/
inductive RequestKind where
  | write | read | writeRead
  deriving DecidableEq, Repr

/-- A transport request `{kind, addr[6:0], wbytes, rlen}` (R23). -/
structure Request where
  kind   : RequestKind
  addr   : BitVec 7
  wbytes : List Byte
  rlen   : Nat
  deriving DecidableEq, Repr

/-- A transport response (R23): the bytes in bus order, or the transport's own 2-bit code. -/
inductive Response where
  | ok (bytes : List Byte)
  | err (code : BitVec 2)
  deriving DecidableEq, Repr

/-- An outstanding `Delay(ms)` (R24), with the model's time of the request, from which the bound of R262 counts. -/
structure DelayRequest where
  ms    : Nat
  since : Nat
  deriving DecidableEq, Repr

/-- What an `await` of the running operation receives (00_scope.md R14). -/
inductive Arrival where
  | response (r : Response)
  | delayDone
  deriving DecidableEq, Repr

/-- An event the outside world causes (R8, R20). -/
inductive Input where
  /-- The host presents an access on the register port (R22, 30_encoding.md R91). -/
  | access (w : AccessWord)
  /-- The transport answers (R23). -/
  | response (r : Response)
  /-- The transport answers a request a second time (70_reset_and_hazards.md R252). -/
  | secondResponse (r : Response)
  /-- The delay source raises `delay_done` (R24). -/
  | delayDone
  /-- The transport answers a request that a block reset abandoned (70_reset_and_hazards.md R246). -/
  | lateResponse (r : Response)
  /-- The delay source completes a delay that a block reset abandoned (R246). -/
  | lateDelayDone
  /-- Time passes (R262, R266). -/
  | elapse (ms : Nat)
  /-- `rst_n` is asserted and deasserted (R245). -/
  | blockReset
  deriving DecidableEq, Repr

/-- The state of the block, its ports, and the events still to come. -/
structure State where
  /-- CMD, 0x0 (R27). -/
  cmd : Byte
  /-- STATUS, 0x1 (R28). -/
  status : Status
  /-- IRQEN.DONE_IE, bit 0 of 0x2 (R29). -/
  doneIe : Bool
  /-- ARG, 0x3 (R30). -/
  arg : Byte
  /-- RAWH, 0x4 (R31). -/
  rawh : Byte
  /-- RAWL, 0x5 (R32). -/
  rawl : Byte
  /-- MSTAT, 0x6 (R33). -/
  mstat : Mstat
  /-- MCRC, 0x7 (R34). -/
  mcrc : Byte
  /-- CFG_RD, 0x8 (R35). -/
  cfgRd : Byte
  /-- CFG_WR, 0x9 (R36). -/
  cfgWr : Byte
  /-- CRC_ACC, 0xB (R38). -/
  crcAcc : Byte
  /-- CODEC_BYTE, 0xD (R40). -/
  codecByte : Byte
  /-- VALID, 0xF (R42). -/
  valid : Valid
  /-- The sequencer (R45). -/
  fsm : Fsm
  /-- The accepted CMD byte (R46). -/
  opl : Byte
  /-- ARG as it was at acceptance (R46). -/
  argl : Byte
  /-- The byte the first phase of a heater operation read (R46). -/
  tb : Byte
  /-- The outstanding transport request (R23, R45). -/
  req : Option Request
  /-- The outstanding delay request (R24, R45). -/
  delay : Option DelayRequest
  /-- `h_rdata`, where the present event is a read access (R22, R92); log 9. -/
  hRdata : Option Byte
  /-- The model's own: what the sequencer's `await` receives within the present event; log 3. -/
  arrival : Option Arrival
  /-- The model's own: the events still to come, oldest first; log 1. -/
  inbox : List Input
  /-- The model's own: time in milliseconds; log 14. -/
  nowMs : Nat
  deriving DecidableEq, Repr

/-- The block never stops with a fault: "No host access raises an error" (R225), an operation's error ends in
`complete` (R226), and a transport that never answers is "not a fault" (93_implementation_defined.md I10). The type is
empty, which is safe: no fault can be claimed (log 22). -/
inductive Fault where
  deriving DecidableEq, Repr

/-- Why a step gives a trace no meaning. All but the first are breaches of the environment's contract; stopping there
is safe, since nothing is then proved of such a trace. -/
inductive Refusal where
  /-- Raised by exec's arm of an instruction that has no meaning yet; safe. No arm does. -/
  | notModelled (mnemonic : String)
  /-- Raised when an `Ok` answer has not exactly `rlen` bytes (R23; 93_implementation_defined.md I12 "refuse"); safe.
  Log 12. -/
  | responseShape
  /-- Raised when `delay_done` comes before its `ms` milliseconds are over (R24, R262); safe. Log 14. -/
  | earlyDelayDone
  /-- Raised when an answer to a request that a block reset abandoned arrives while a later request is outstanding
  (R246 "must refuse such a trace"; I11 "refuse"); safe. Log 13. -/
  | abandonedAnswer
  deriving DecidableEq, Repr

/-- The state after block reset (R50, R245). The latches OPL, ARGL and TB are "unspecified (never read before
written)"; the model names 0x00 (log 8). The model's own fields start empty (log 19). -/
def State.reset : State where
  cmd := 0x00
  status := { busy := false, done := false, err := .none, ovr := false, txerr := 0 }
  doneIe := false
  arg := 0x00
  rawh := 0x00
  rawl := 0x00
  mstat := { kind := .temperature, sbits := 0 }
  mcrc := 0x00
  cfgRd := 0x00
  cfgWr := 0x00
  crcAcc := 0x00
  codecByte := 0x00
  valid := { measV := false, cfgrdV := false, cfgwrV := false }
  fsm := .idle
  opl := 0x00
  argl := 0x00
  tb := 0x00
  req := none
  delay := none
  hRdata := none
  arrival := none
  inbox := []
  nowMs := 0

end Sys2Proof.Machine
end

