-- ==== Sys2Proof/Machine/Flags.lean ====
section
/-! DEFINITION. Flags: the byte views of STATUS, IRQEN, MSTAT and VALID, every way STATUS changes (10_state.md R28), and
the interrupt level (R25). -/

namespace Sys2Proof.Machine

/-- The number of an error (60_exceptions.md R221). -/
def ErrCode.code : ErrCode → BitVec 3
  | .none => 0 | .transport => 1 | .integrity => 2 | .decode => 3 | .illegalOp => 4

/-- `{TXERR[1:0], OVR, ERR[2:0], DONE, BUSY}` (43_host_access.md R188). -/
def Status.toByte (t : Status) : Byte :=
  t.txerr ++ BitVec.ofBool t.ovr ++ t.err.code ++ BitVec.ofBool t.done ++ BitVec.ofBool t.busy

/-- `{0b0000000, DONE_IE}` (R190). -/
def irqenByte (doneIe : Bool) : Byte := (0 : BitVec 7) ++ BitVec.ofBool doneIe

/-- MSTAT.KIND as a bit (R33). -/
def MeasKind.bit : MeasKind → BitVec 1
  | .temperature => 0 | .humidity => 1

/-- `{0b00000, KIND, SBITS[1:0]}` (R196). -/
def Mstat.toByte (m : Mstat) : Byte := (0 : BitVec 5) ++ m.kind.bit ++ m.sbits

/-- `{0b00000, CFGWR_V, CFGRD_V, MEAS_V}` (R209). -/
def Valid.toByte (v : Valid) : Byte :=
  (0 : BitVec 5) ++ BitVec.ofBool v.cfgwrV ++ BitVec.ofBool v.cfgrdV ++ BitVec.ofBool v.measV

/-- Acceptance of a CMD write clears DONE, ERR and TXERR; OVR is not changed (R185). -/
def Status.accepted (t : Status) : Status := { t with done := false, err := .none, txerr := 0 }

/-- Acceptance of an operation that does not complete within the event (R28, R185). -/
def Status.started (t : Status) : Status := { t with busy := true }

/-- A rejected CMD write (R186). -/
def Status.rejected (t : Status) : Status := { t with ovr := true }

/-- The STATUS part of `complete(err, txerr)`: TXERR is kept for a transport error only (60_exceptions.md R226). -/
def Status.completed (t : Status) (err : ErrCode) (txerr : BitVec 2) : Status :=
  { t with busy := false, done := true, err := err, txerr := if err = .transport then txerr else 0 }

/-- A host write to STATUS: bit 1 clears DONE, bit 5 clears OVR, every other bit is ignored (R189). -/
def Status.cleared (t : Status) (v : Byte) : Status :=
  { t with done := t.done && !v.getLsbD 1, ovr := t.ovr && !v.getLsbD 5 }

/-- The interrupt output, a level: `STATUS.DONE & IRQEN.DONE_IE` (R25); log 10. -/
def State.irq (s : State) : Bool := s.status.done && s.doneIe

/-- A soft reset's effect on VALID: CFGRD_V and CFGWR_V are cleared, MEAS_V stays (R42, 70_reset_and_hazards.md R248). -/
def Valid.afterSoftReset (v : Valid) : Valid := { v with cfgrdV := false, cfgwrV := false }

end Sys2Proof.Machine
end

