-- ==== Sys2Proof/WellFormed.lean ====
section
/-! DEFINITION. Well-formed instructions. Field widths are in the types; one check is left: the byte of an ILLEGAL
operation is a reserved one. -/

namespace Sys2Proof

/-- A reserved CMD byte, in the words of 30_encoding.md R95: "0x00, 0x09 to 0x0F, and every byte with bits 7:4 other
than 0b0000". -/
def reservedOpByte (b : Byte) : Bool :=
  b == 0x00 || (decide (0x09 ≤ b) && decide (b ≤ 0x0F)) || !(b.extractLsb' 4 4 == 0)

/-- The checks on an instruction. -/
def Instr.wellFormed (i : Instr) : Bool :=
  match i with
  | .illegal b => reservedOpByte b
  | .softReset | .measT | .measRh | .readCfg | .writeCfg | .heaterOn | .heaterOff | .readEob => true
  | .rdCmd _ | .rdStatus _ | .rdIrqen _ | .rdArg _ | .rdRawh _ | .rdRawl _ | .rdMstat _ | .rdMcrc _ => true
  | .rdCfgRd _ | .rdCfgWr _ | .rdCfgFields _ | .rdCrcAcc _ | .rdCrcDin _ | .rdCodecByte _ | .rdCodecFields _
  | .rdValid _ => true
  | .wrCmd _ | .wrCmdRejected _ | .wrStatus _ | .wrIrqen _ | .wrArg _ => true
  | .wrRoRawh _ | .wrRoRawl _ | .wrRoMstat _ | .wrRoMcrc _ | .wrRoCfgRd _ | .wrRoCfgWr _ | .wrRoCfgFields _
  | .wrRoValid _ => true
  | .wrCrcAcc _ | .wrCrcDin _ | .wrCodecByte _ | .wrCodecFields _ => true
  | .cmdSoftReset | .cmdMeasTHold | .cmdMeasRhHold | .cmdWriteCfg _ | .cmdReadCfg => true

/-- The condition a row of the opcode table puts on STATUS.BUSY: WR.CMD and WR.CMD.REJECTED are one word, told apart
by it (rows' "condition"; 43_host_access.md R185, R186). Every other row holds for both values. -/
def Instr.admitsBusy (i : Instr) (busy : Bool) : Bool :=
  match i with
  | .wrCmd _ => !busy
  | .wrCmdRejected _ => busy
  | .softReset | .measT | .measRh | .readCfg | .writeCfg | .heaterOn | .heaterOff | .readEob | .illegal _ => true
  | .rdCmd _ | .rdStatus _ | .rdIrqen _ | .rdArg _ | .rdRawh _ | .rdRawl _ | .rdMstat _ | .rdMcrc _ => true
  | .rdCfgRd _ | .rdCfgWr _ | .rdCfgFields _ | .rdCrcAcc _ | .rdCrcDin _ | .rdCodecByte _ | .rdCodecFields _
  | .rdValid _ => true
  | .wrStatus _ | .wrIrqen _ | .wrArg _ => true
  | .wrRoRawh _ | .wrRoRawl _ | .wrRoMstat _ | .wrRoMcrc _ | .wrRoCfgRd _ | .wrRoCfgWr _ | .wrRoCfgFields _
  | .wrRoValid _ => true
  | .wrCrcAcc _ | .wrCrcDin _ | .wrCodecByte _ | .wrCodecFields _ => true
  | .cmdSoftReset | .cmdMeasTHold | .cmdMeasRhHold | .cmdWriteCfg _ | .cmdReadCfg => true

end Sys2Proof
end

