-- ==== Sys2Proof/Decode.lean ====
section
/-! DEFINITION. The encodings (spec/30_encoding.md) and the decoder: register addresses, operation codes and command
bytes, each once; decoding of the three formats, total, rejecting by name; and the encoder, written from the same
tables of the spec. -/

namespace Sys2Proof

/-! ### The tables -/

/-- Register addresses (10_state.md R26). -/
def Reg.addr : Reg → RegAddr
  | .cmd => 0x0 | .status => 0x1 | .irqen => 0x2 | .arg => 0x3
  | .rawh => 0x4 | .rawl => 0x5 | .mstat => 0x6 | .mcrc => 0x7
  | .cfgRd => 0x8 | .cfgWr => 0x9 | .cfgFields => 0xA | .crcAcc => 0xB
  | .crcDin => 0xC | .codecByte => 0xD | .codecFields => 0xE | .valid => 0xF

/-- The register an address names: all sixteen are mapped (10_state.md R43). -/
def Reg.ofAddr (a : RegAddr) : Reg :=
  match a.toNat with
  | 0 => .cmd | 1 => .status | 2 => .irqen | 3 => .arg
  | 4 => .rawh | 5 => .rawl | 6 => .mstat | 7 => .mcrc
  | 8 => .cfgRd | 9 => .cfgWr | 10 => .cfgFields | 11 => .crcAcc
  | 12 => .crcDin | 13 => .codecByte | 14 => .codecFields | _ => .valid

/-- Operation codes (R94). -/
def HostOp.code : HostOp → Byte
  | .softReset => 0x01 | .measT => 0x02 | .measRh => 0x03 | .readCfg => 0x04
  | .writeCfg => 0x05 | .heaterOn => 0x06 | .heaterOff => 0x07 | .readEob => 0x08

/-- The operation a CMD byte names, if any; the whole byte is decoded (R93). -/
def HostOp.ofByte? (b : Byte) : Option HostOp :=
  match b.toNat with
  | 0x01 => some .softReset | 0x02 => some .measT | 0x03 => some .measRh | 0x04 => some .readCfg
  | 0x05 => some .writeCfg | 0x06 => some .heaterOn | 0x07 => some .heaterOff | 0x08 => some .readEob
  | _ => none

/-- An operation as an instruction. -/
def HostOp.instr : HostOp → Instr
  | .softReset => .softReset | .measT => .measT | .measRh => .measRh | .readCfg => .readCfg
  | .writeCfg => .writeCfg | .heaterOn => .heaterOn | .heaterOff => .heaterOff | .readEob => .readEob

/-- `CMD_SOFT_RESET` (R99). -/
def wireSoftReset : Byte := 0xFE
/-- `CMD_MEAS_T_HOLD` (R99). -/
def wireMeasTHold : Byte := 0xE3
/-- `CMD_MEAS_RH_HOLD` (R99). -/
def wireMeasRhHold : Byte := 0xE5
/-- `CMD_WRITE_CFG` (R99). -/
def wireWriteCfg : Byte := 0xE6
/-- `CMD_READ_CFG` (R99). -/
def wireReadCfg : Byte := 0xE7

/-! ### Decoding -/

/-- Why a word is not an instruction. Only written frames can be rejected: every 13-bit access is legal (R91) and every
CMD byte is an operation or ILLEGAL (R95). -/
inductive Reject where
  /-- A frame with no byte. -/
  | emptyFrame
  /-- A first byte that is none of the five of R100. -/
  | unknownCommand (b : Byte)
  /-- A known command byte with a payload of the wrong length (R103). -/
  | frameLength (b : Byte) (payload : Nat)
  deriving DecidableEq, Repr

/-- WE, bit 12 (R91). -/
def accessWe (w : AccessWord) : Bool := w.getLsbD 12

/-- ADDR, bits 11:8 (R91). -/
def accessAddr (w : AccessWord) : RegAddr := w.extractLsb' 8 4

/-- WDATA, bits 7:0 (R91). -/
def accessData (w : AccessWord) : Byte := w.extractLsb' 0 8

/-- The read of a register (43_host_access.md). -/
def readOf (r : Reg) (d : Byte) : Instr :=
  match r with
  | .cmd => .rdCmd d | .status => .rdStatus d | .irqen => .rdIrqen d | .arg => .rdArg d
  | .rawh => .rdRawh d | .rawl => .rdRawl d | .mstat => .rdMstat d | .mcrc => .rdMcrc d
  | .cfgRd => .rdCfgRd d | .cfgWr => .rdCfgWr d | .cfgFields => .rdCfgFields d | .crcAcc => .rdCrcAcc d
  | .crcDin => .rdCrcDin d | .codecByte => .rdCodecByte d | .codecFields => .rdCodecFields d | .valid => .rdValid d

/-- The write of a register (43_host_access.md); a write to CMD is the accepted row or the rejected one by BUSY
(R185, R186). -/
def writeOf (busy : Bool) (r : Reg) (v : Byte) : Instr :=
  match r with
  | .cmd => if busy then .wrCmdRejected v else .wrCmd v
  | .status => .wrStatus v | .irqen => .wrIrqen v | .arg => .wrArg v
  | .rawh => .wrRoRawh v | .rawl => .wrRoRawl v | .mstat => .wrRoMstat v | .mcrc => .wrRoMcrc v
  | .cfgRd => .wrRoCfgRd v | .cfgWr => .wrRoCfgWr v | .cfgFields => .wrRoCfgFields v | .crcAcc => .wrCrcAcc v
  | .crcDin => .wrCrcDin v | .codecByte => .wrCodecByte v | .codecFields => .wrCodecFields v | .valid => .wrRoValid v

/-- A host access word (R91). -/
def decodeAccess (busy : Bool) (w : AccessWord) : Instr :=
  if accessWe w then writeOf busy (Reg.ofAddr (accessAddr w)) (accessData w)
  else readOf (Reg.ofAddr (accessAddr w)) (accessData w)

/-- A CMD byte (R93, R95). -/
def decodeOp (b : Byte) : Instr :=
  match HostOp.ofByte? b with
  | some op => op.instr
  | none => .illegal b

/-- A written frame (R101, R103): 0xE6 is followed by one payload byte, every other command stands alone. -/
def decodeFrame (bytes : List Byte) : Except Reject Instr :=
  match bytes with
  | [] => .error .emptyFrame
  | c :: payload =>
    if c = wireWriteCfg then
      match payload with
      | [b] => .ok (.cmdWriteCfg b)
      | _ => .error (.frameLength c payload.length)
    else
      let alone : Option Instr :=
        if c = wireSoftReset then some .cmdSoftReset
        else if c = wireMeasTHold then some .cmdMeasTHold
        else if c = wireMeasRhHold then some .cmdMeasRhHold
        else if c = wireReadCfg then some .cmdReadCfg
        else none
      match alone, payload with
      | some i, [] => .ok i
      | some _, _ :: _ => .error (.frameLength c payload.length)
      | none, _ => .error (.unknownCommand c)

/-- The decoder: an instruction's words, in their format, and the BUSY bit that the WR.CMD rows' condition reads. -/
def decode (busy : Bool) (e : Encoded) : Except Reject Instr :=
  match e with
  | .access w => .ok (decodeAccess busy w)
  | .op b => .ok (decodeOp b)
  | .frame bytes => decodeFrame bytes

/-! ### Encoding -/

/-- The access word `{WE, ADDR, WDATA}` (R91, R107). -/
def accessWord (we : Bool) (r : Reg) (d : Byte) : AccessWord := BitVec.ofBool we ++ r.addr ++ d

/-- The words of an instruction. -/
def encode (i : Instr) : Encoded :=
  match i with
  | .softReset => .op HostOp.softReset.code
  | .measT => .op HostOp.measT.code
  | .measRh => .op HostOp.measRh.code
  | .readCfg => .op HostOp.readCfg.code
  | .writeCfg => .op HostOp.writeCfg.code
  | .heaterOn => .op HostOp.heaterOn.code
  | .heaterOff => .op HostOp.heaterOff.code
  | .readEob => .op HostOp.readEob.code
  | .illegal b => .op b
  | .rdCmd d => .access (accessWord false .cmd d)
  | .rdStatus d => .access (accessWord false .status d)
  | .rdIrqen d => .access (accessWord false .irqen d)
  | .rdArg d => .access (accessWord false .arg d)
  | .rdRawh d => .access (accessWord false .rawh d)
  | .rdRawl d => .access (accessWord false .rawl d)
  | .rdMstat d => .access (accessWord false .mstat d)
  | .rdMcrc d => .access (accessWord false .mcrc d)
  | .rdCfgRd d => .access (accessWord false .cfgRd d)
  | .rdCfgWr d => .access (accessWord false .cfgWr d)
  | .rdCfgFields d => .access (accessWord false .cfgFields d)
  | .rdCrcAcc d => .access (accessWord false .crcAcc d)
  | .rdCrcDin d => .access (accessWord false .crcDin d)
  | .rdCodecByte d => .access (accessWord false .codecByte d)
  | .rdCodecFields d => .access (accessWord false .codecFields d)
  | .rdValid d => .access (accessWord false .valid d)
  | .wrCmd v => .access (accessWord true .cmd v)
  | .wrCmdRejected v => .access (accessWord true .cmd v)
  | .wrStatus v => .access (accessWord true .status v)
  | .wrIrqen v => .access (accessWord true .irqen v)
  | .wrArg v => .access (accessWord true .arg v)
  | .wrRoRawh v => .access (accessWord true .rawh v)
  | .wrRoRawl v => .access (accessWord true .rawl v)
  | .wrRoMstat v => .access (accessWord true .mstat v)
  | .wrRoMcrc v => .access (accessWord true .mcrc v)
  | .wrRoCfgRd v => .access (accessWord true .cfgRd v)
  | .wrRoCfgWr v => .access (accessWord true .cfgWr v)
  | .wrRoCfgFields v => .access (accessWord true .cfgFields v)
  | .wrCrcAcc v => .access (accessWord true .crcAcc v)
  | .wrCrcDin v => .access (accessWord true .crcDin v)
  | .wrCodecByte v => .access (accessWord true .codecByte v)
  | .wrCodecFields v => .access (accessWord true .codecFields v)
  | .wrRoValid v => .access (accessWord true .valid v)
  | .cmdSoftReset => .frame [wireSoftReset]
  | .cmdMeasTHold => .frame [wireMeasTHold]
  | .cmdMeasRhHold => .frame [wireMeasRhHold]
  | .cmdWriteCfg b => .frame [wireWriteCfg, b]
  | .cmdReadCfg => .frame [wireReadCfg]

/-! ### Words of the opcode table -/

/-- The words a row of spec/opcode_table.json stands for. Its 16-bit (13-bit) rows are accesses. Its 8-bit rows are of
two formats that the number alone does not tell apart: the five command bytes of R100 are read as written frames (0xE6
with the payload byte above it), every other byte as a CMD byte (log 6). -/
def tableWord? (nbits w : Nat) : Option Encoded :=
  if nbits = 8 then
    let b : Byte := BitVec.ofNat 8 w
    if w = wireWriteCfg.toNat then some (.frame [wireWriteCfg, 0x00])
    else if b = wireSoftReset ∨ b = wireMeasTHold ∨ b = wireMeasRhHold ∨ b = wireReadCfg then
      if w < 256 then some (.frame [b]) else none
    else if w < 256 then some (.op b) else none
  else if nbits = 13 ∨ nbits = 16 then
    if w < 2 ^ 13 then some (.access (BitVec.ofNat 13 w)) else none
  else none

/-- What the decoder reads from a table word, with STATUS.BUSY = 0 (a WR.CMD word is then the accepted row). -/
def decodeTableWord (nbits w : Nat) : Option Instr :=
  match tableWord? nbits w with
  | some e =>
    match decode false e with
    | .ok i => some i
    | .error _ => none
  | none => none

end Sys2Proof
end

