-- ==== Sys2Proof/Machine/Codec.lean ====
section
/-! DEFINITION. The configuration-register codec (spec/40_codec.md): the resolution enumeration, the fields of the
configuration byte, the field view, and the heater modification. -/

namespace Sys2Proof.Machine

/-- `Resolution`, a closed enumeration (R120). -/
inductive Resolution where
  | res12 | res8 | res10 | res11
  deriving DecidableEq, Repr

/-- `CfgFields` (R124). -/
structure CfgFields where
  res    : Resolution
  eob    : BitVec 1
  rsvd   : BitVec 3
  heater : BitVec 1
  otpd   : BitVec 1
  deriving DecidableEq, Repr

/-- `res_encode` (R120, R121). -/
def resEncode : Resolution → Byte
  | .res12 => 0x00 | .res8 => 0x01 | .res10 => 0x80 | .res11 => 0x81

/-- `res_decode`; `none` is DecodeError (R122). -/
def resDecode (v : Byte) : Option Resolution :=
  if v = 0x00 then some .res12
  else if v = 0x01 then some .res8
  else if v = 0x80 then some .res10
  else if v = 0x81 then some .res11
  else none

/-- `cfg_decode`; `none` is DecodeError (R124). -/
def cfgDecode (b : Byte) : Option CfgFields :=
  match resDecode (b &&& 0x81) with
  | some r =>
    some { res := r, eob := b.extractLsb' 6 1, rsvd := b.extractLsb' 3 3, heater := b.extractLsb' 2 1,
           otpd := b.extractLsb' 1 1 }
  | none => none

/-- `cfg_encode`: OR of the fields at their places (R125; 90_conflicts.md C5). -/
def cfgEncode (f : CfgFields) : Byte :=
  resEncode f.res ||| (f.otpd.setWidth 8 <<< 1) ||| (f.heater.setWidth 8 <<< 2) ||| (f.rsvd.setWidth 8 <<< 3)
    ||| (f.eob.setWidth 8 <<< 6)

/-- The fields of a byte where the spec's pseudocode uses `cfg_decode` with the remark "never raises" (R131, R162):
the `none` branch is unreachable (R126; log 16). -/
def fieldsOf (b : Byte) : CfgFields :=
  match cfgDecode b with
  | some f => f
  | none => { res := .res12, eob := 0, rsvd := 0, heater := 0, otpd := 0 }

/-- RESC, `{sel[7], sel[0]}` (R120, R127). -/
def resCode (r : Resolution) : BitVec 2 := (resEncode r).extractLsb' 7 1 ++ (resEncode r).extractLsb' 0 1

/-- The resolution a RESC code names (R128). -/
def resOfCode (c : BitVec 2) : Resolution :=
  match c.toNat with
  | 0 => .res12 | 1 => .res8 | 2 => .res10 | _ => .res11

/-- `pack_fields`: RSVD 7:5, EOB 4, OTPD 3, HTR 2, RESC 1:0 (R127). -/
def packFields (f : CfgFields) : Byte := f.rsvd ++ f.eob ++ f.otpd ++ f.heater ++ resCode f.res

/-- `unpack_fields` (R128). -/
def unpackFields (v : Byte) : CfgFields where
  res := resOfCode (v.extractLsb' 0 2)
  heater := v.extractLsb' 2 1
  otpd := v.extractLsb' 3 1
  eob := v.extractLsb' 4 1
  rsvd := v.extractLsb' 5 3

/-- `fieldview(b) = pack_fields(cfg_decode(b))` (R129). -/
def fieldview (b : Byte) : Byte := packFields (fieldsOf b)

/-- `byteview(v) = cfg_encode(unpack_fields(v))` (R129). -/
def byteview (v : Byte) : Byte := cfgEncode (unpackFields v)

/-- `set_heater` (R131). -/
def setHeater (b : Byte) (h : BitVec 1) : Byte := cfgEncode { fieldsOf b with heater := h }

end Sys2Proof.Machine
end

