-- ==== Sys2Proof/Machine/Operands.lean ====
section
/-! DEFINITION. Operands (spec/30_encoding.md R104): what the block makes of the bytes of a response and of ARGL, the
request shapes of the transport port (10_state.md R23), and the settle time. -/

namespace Sys2Proof.Machine

/-- `T_RST_MS`, 15 ms (00_scope.md R10). -/
def tRstMs : Nat := 15

/-- The masked low byte of the count, `D1 & 0xFC` (10_state.md R32). -/
def maskedLow (d1 : Byte) : Byte := d1 &&& 0xFC

/-- The status bits, `D1[1:0]` (10_state.md R33). -/
def statusBits (d1 : Byte) : BitVec 2 := d1.extractLsb' 0 2

/-- The raw count of a response, big-endian (20_memory.md R73). -/
def raw16 (d0 d1 : Byte) : BitVec 16 := d0 ++ d1

/-- The masked count the host reads as `{RAWH, RAWL}` (R104). -/
def rawm16 (d0 d1 : Byte) : BitVec 16 := d0 ++ maskedLow d1

/-- WRITE_CFG's payload, `cfg_encode(cfg_decode(ARGL))`, which "equals ARGL" (42_framer_ops.md R162). -/
def writePayload (argl : Byte) : Byte := cfgEncode (fieldsOf argl)

/-- `Write(DEV_ADDR, bytes)` (R23). -/
def Request.writeOf (bytes : List Byte) : Request :=
  { kind := .write, addr := Config.devAddr, wbytes := bytes, rlen := 0 }

/-- `Read(DEV_ADDR, 3)`, the measurement's second transaction (R23, R100). -/
def Request.readSample : Request := { kind := .read, addr := Config.devAddr, wbytes := [], rlen := 3 }

/-- `WriteRead(DEV_ADDR, [cmd], 1)` (R23). -/
def Request.writeReadOf (cmd : Byte) : Request :=
  { kind := .writeRead, addr := Config.devAddr, wbytes := [cmd], rlen := 1 }

/-- A response of the shape a request calls for: `Ok` with exactly `rlen` bytes, or any `Err` (R23). -/
def Request.accepts (q : Request) (r : Response) : Bool :=
  match r with
  | .ok bytes => bytes.length == q.rlen
  | .err _ => true

end Sys2Proof.Machine
end

