-- ==== Sys2Proof/Machine/Ops.lean ====
section
/-! DEFINITION. The named operations over the state: reading a host register, issuing requests, the `await` of an
operation, acceptance and rejection of a CMD write, completion (the block's trap entry), block reset, and the arrival
of an answer from outside. -/

namespace Sys2Proof.Machine

/-- What a meaning answers. -/
abbrev Result := Host.Outcome State Fault Refusal

/-! ### The host port -/

/-- What a read of a register returns (10_state.md R26 to R43): views are computed, write-only registers read 0x00. -/
def State.readReg (s : State) (r : Reg) : Byte :=
  match r with
  | .cmd => s.cmd
  | .status => s.status.toByte
  | .irqen => irqenByte s.doneIe
  | .arg => s.arg
  | .rawh => s.rawh
  | .rawl => s.rawl
  | .mstat => s.mstat.toByte
  | .mcrc => s.mcrc
  | .cfgRd => s.cfgRd
  | .cfgWr => s.cfgWr
  | .cfgFields => fieldview s.cfgRd
  | .crcAcc => s.crcAcc
  | .crcDin => 0x00
  | .codecByte => s.codecByte
  | .codecFields => fieldview s.codecByte
  | .valid => s.valid.toByte

/-- Drive a register's value on `h_rdata` in this event (30_encoding.md R92); nothing else changes (20_memory.md R80). -/
def drive (r : Reg) (s : State) : State := { s with hRdata := some (s.readReg r) }

/-! ### Requests -/

/-- A transport or delay request is outstanding. -/
def State.pending (s : State) : Bool := s.req.isSome || s.delay.isSome

/-- `FSM <- f`, `issue q` (00_scope.md R14). The awaited answer, if any, is used up. -/
def issue (f : Fsm) (q : Request) (s : State) : State := { s with fsm := f, req := some q, arrival := none }

/-- `FSM <- RST_D`, `issue Delay(T_RST_MS)` (42_framer_ops.md R155). -/
def issueDelay (s : State) : State :=
  { s with fsm := .rstD, delay := some { ms := tRstMs, since := s.nowMs }, arrival := none }

/-- Send a transaction if none is outstanding: the block "issues a request only when no response is pending"
(10_state.md R23; log 4). -/
def send (f : Fsm) (q : Request) (s : State) : State := if s.pending then s else issue f q s

/-! ### Completion: the block's trap entry -/

/-- `complete(err, txerr)` (60_exceptions.md R226). The interrupt level follows from STATUS (`State.irq`). There is no
return from it (R228): the host clears DONE, or starts the next operation. -/
def complete (err : ErrCode) (txerr : BitVec 2) (s : State) : State :=
  { s with fsm := .idle, status := s.status.completed err txerr, arrival := none }

/-- `raise E(info)` (00_scope.md R14). -/
def raise (err : ErrCode) (info : BitVec 2) (s : State) : Result := .next (complete err info s)

/-- `await rsp; if rsp == Err(code): raise TransportError(code)`, then the rest of the pseudocode on the bytes of an
`Ok`. With no response in this event the operation goes on waiting (42_framer_ops.md R169). -/
def awaitOk (s : State) (k : List Byte → Result) : Result :=
  match s.arrival with
  | some (.response (.ok bytes)) => k bytes
  | some (.response (.err code)) => raise .transport code s
  | some .delayDone => .next s
  | none => .next s

/-! ### Acceptance and rejection of a CMD write -/

/-- The register part of an accepted CMD write (43_host_access.md R185). CMD takes all eight bits, as R27, R95, R165 and
R187 say; that the RSV bits are so not the reserved bits which 93_implementation_defined.md I6 has read 0 is the model's
choice (log 29). -/
def accept (v : Byte) (s : State) : State :=
  { s with cmd := v, opl := v, argl := s.arg, status := s.status.accepted }

/-- `STATUS.BUSY <- 1` for a byte that names an operation (R185). -/
def setBusy (s : State) : State := { s with status := s.status.started }

/-- A rejected CMD write: "Nothing else changes" (R186). -/
def reject (s : State) : State := { s with status := s.status.rejected }

/-! ### Result registers -/

/-- Publish a measurement (42_framer_ops.md R156). -/
def publishSample (kind : MeasKind) (d0 d1 c : Byte) (s : State) : State :=
  { s with rawh := d0, rawl := maskedLow d1, mstat := { kind := kind, sbits := statusBits d1 }, mcrc := c,
           valid := { s.valid with measV := true } }

/-- Publish a configuration byte read (R160). -/
def publishRead (b : Byte) (s : State) : State := { s with cfgRd := b, valid := { s.valid with cfgrdV := true } }

/-- Publish a configuration byte written (R162). -/
def publishWritten (b : Byte) (s : State) : State := { s with cfgWr := b, valid := { s.valid with cfgwrV := true } }

/-! ### Events from outside -/

/-- Block reset (70_reset_and_hazards.md R245): the state of R50. Time and the events still to come are the
environment's and stay (log 15). -/
def blockReset (s : State) : State := { State.reset with inbox := s.inbox, nowMs := s.nowMs }

/-- The next event is taken from the inbox; no port output is left from the event before. -/
def takeEvent (rest : List Input) (s : State) : State := { s with inbox := rest, hRdata := none }

/-- Time passes. -/
def elapse (ms : Nat) (s : State) : State := { s with nowMs := s.nowMs + ms }

/-- What the block does with an answer that arrives. -/
inductive Presented where
  /-- No request is waiting for it: it "does not change any state" (70_reset_and_hazards.md R252). -/
  | ignored
  /-- It breaks the environment's contract. -/
  | refused (r : Refusal)
  /-- It ends its request, and the running operation receives it in this state. -/
  | received (s : State)
  deriving DecidableEq, Repr

/-- A transport response arrives (10_state.md R23, R47; 70_reset_and_hazards.md R252). -/
def presentResponse (r : Response) (s : State) : Presented :=
  match s.req with
  | none => .ignored
  | some q =>
    if q.accepts r then .received { s with req := none, arrival := some (.response r) } else .refused .responseShape

/-- A second response to the same request is ignored, whatever is outstanding by then (R252; log 11). -/
def presentSecondResponse : Presented := .ignored

/-- `delay_done` arrives: ignored when FSM is not RST_D (R252), outside the contract before its time (R262). -/
def presentDelayDone (s : State) : Presented :=
  match s.delay with
  | none => .ignored
  | some d =>
    if s.fsm = .rstD then
      if d.since + d.ms ≤ s.nowMs then .received { s with delay := none, arrival := some .delayDone }
      else .refused .earlyDelayDone
    else .ignored

/-- An answer to an abandoned transport request: ignored with none outstanding (R50, R252), otherwise the trace is
refused (R246; log 13). -/
def presentLateResponse (s : State) : Presented :=
  match s.req with
  | none => .ignored
  | some _ => .refused .abandonedAnswer

/-- A `delay_done` of an abandoned delay, likewise (R246; log 13). -/
def presentLateDelayDone (s : State) : Presented :=
  match s.delay with
  | none => .ignored
  | some _ => .refused .abandonedAnswer

end Sys2Proof.Machine
end

