-- ==== Sys2Proof/Machine/Wire.lean ====
section
/-! DEFINITION. The wire commands (opcode table, format I2C_CMD; spec/30_encoding.md R99 to R103): the transactions
built around each of the five command bytes. The meaning of a command is the FSM step and the request that its
operation's pseudocode names at that point (42_framer_ops.md); it is sent only when nothing is outstanding (log 4). -/

namespace Sys2Proof.Machine

/-- A measurement command's two transactions (R100): `Write(DEV_ADDR, [cmd])`, and, where MEAS_W has received the
Write's `Ok`, `Read(DEV_ADDR, 3)` (42_framer_ops.md R156). -/
def measureFrames (cmd : Byte) (s : State) : State :=
  match s.fsm, s.arrival with
  | .measW, some (.response (.ok _)) => send .measR Request.readSample s
  | .measW, some (.response (.err _)) => s
  | _, _ => send .measW (Request.writeOf [cmd]) s

/-- CMD_SOFT_RESET: `Write(DEV_ADDR, [0xFE])` (R100, R155). -/
def execCmdSoftReset (s : State) : Result := .next (send .rstW (Request.writeOf [wireSoftReset]) s)

/-- CMD_MEAS_T_HOLD: `Write(DEV_ADDR, [0xE3])`, then `Read(DEV_ADDR, 3)` (R100, R157). -/
def execCmdMeasTHold (s : State) : Result := .next (measureFrames wireMeasTHold s)

/-- CMD_MEAS_RH_HOLD: `Write(DEV_ADDR, [0xE5])`, then `Read(DEV_ADDR, 3)` (R100, R158). -/
def execCmdMeasRhHold (s : State) : Result := .next (measureFrames wireMeasRhHold s)

/-- CMD_WRITE_CFG: `Write(DEV_ADDR, [0xE6, b])` (R100, R162). -/
def execCmdWriteCfg (b : Byte) (s : State) : Result := .next (send .cfgwW (Request.writeOf [wireWriteCfg, b]) s)

/-- CMD_READ_CFG: `WriteRead(DEV_ADDR, [0xE7], 1)` (R100, R159). -/
def execCmdReadCfg (s : State) : Result := .next (send .cfgrW (Request.writeReadOf wireReadCfg) s)

end Sys2Proof.Machine
end

