-- ==== Sys2Proof/Machine/Framer.lean ====
section
/-! DEFINITION. The host operations (opcode table, format HOSTOP; spec/42_framer_ops.md R155 to R165). An operation is
a sequence of events cut at its awaits (00_scope.md R15). Its meaning here is all of it: `exec` of the operation runs
its pseudocode from the place FSM names, up to the next await, on what arrived in this event (log 3). In a place that
is not one of the operation's own, or with nothing it awaits, nothing changes (10_state.md R47; log 23). -/

namespace Sys2Proof.Machine

/-- SOFT_RESET (R155). A transport error is discarded. -/
def execSoftReset (s : State) : Result :=
  match s.fsm with
  | .idle => execCmdSoftReset s
  | .rstW =>
    match s.arrival with
    | some (.response (.ok [])) => .next (issueDelay s)
    | some (.response (.ok (_ :: _))) => .refused .responseShape
    | some (.response (.err _)) => .next (issueDelay s)
    | some .delayDone => .next s
    | none => .next s
  | .rstD =>
    match s.arrival with
    | some .delayDone => .next (complete .none 0 { s with valid := s.valid.afterSoftReset })
    | some (.response _) => .next s
    | none => .next s
  | .measW | .measR | .cfgrW | .cfgwW => .next s

/-- `measure(cmd, kind)` (R156), over the wire command that names `cmd`. The check comes before the mask
(90_conflicts.md C2). -/
def measureRun (wire : State → Result) (kind : MeasKind) (s : State) : Result :=
  match s.fsm with
  | .idle => wire s
  | .measW => awaitOk s fun bytes =>
    match bytes with
    | [] => wire s
    | _ :: _ => .refused .responseShape
  | .measR => awaitOk s fun bytes =>
    match bytes with
    | [d0, d1, c] =>
      if sampleIntact d0 d1 c then .next (complete .none 0 (publishSample kind d0 d1 c s)) else raise .integrity 0 s
    | _ => .refused .responseShape
  | .rstW | .rstD | .cfgrW | .cfgwW => .next s

/-- MEAS_T: `measure(0xE3, 0)` (R157). -/
def execMeasT (s : State) : Result := measureRun execCmdMeasTHold .temperature s

/-- MEAS_RH: `measure(0xE5, 1)` (R158). -/
def execMeasRh (s : State) : Result := measureRun execCmdMeasRhHold .humidity s

/-- The end of `read_cfg()`: the response's byte, checked by `cfg_decode` (R159). The DecodeError branch is the
source's and unreachable (60_exceptions.md R224). -/
def readCfgThen (s : State) (k : Byte → Result) : Result :=
  awaitOk s fun bytes =>
    match bytes with
    | [b] =>
      match cfgDecode b with
      | none => raise .decode 0 s
      | some _ => k b
    | _ => .refused .responseShape

/-- `READ_CFG`'s pseudocode, which READ_EOB shares (R160, R161). -/
def readConfiguration (s : State) : Result :=
  match s.fsm with
  | .idle => execCmdReadCfg s
  | .cfgrW => readCfgThen s fun b => .next (complete .none 0 (publishRead b s))
  | .rstW | .rstD | .measW | .measR | .cfgwW => .next s

/-- READ_CFG (R160). -/
def execReadCfg (s : State) : Result := readConfiguration s

/-- READ_EOB (R161): "identical to READ_CFG"; the flag is CFG_RD bit 6. -/
def execReadEob (s : State) : Result := readConfiguration s

/-- The end of a configuration write: `await rsp`, then `k` on its `Ok` (R162, R163). -/
def writeDoneThen (s : State) (k : Result) : Result :=
  awaitOk s fun bytes =>
    match bytes with
    | [] => k
    | _ :: _ => .refused .responseShape

/-- WRITE_CFG (R162). -/
def execWriteCfg (s : State) : Result :=
  match s.fsm with
  | .idle => execCmdWriteCfg (writePayload s.argl) s
  | .cfgwW => writeDoneThen s (.next (complete .none 0 (publishWritten (writePayload s.argl) s)))
  | .rstW | .rstD | .measW | .measR | .cfgrW => .next s

/-- The read-modify-write of the heater operations (R163, R164). -/
def heater (h : BitVec 1) (s : State) : Result :=
  match s.fsm with
  | .idle => execCmdReadCfg s
  | .cfgrW => readCfgThen s fun b => execCmdWriteCfg (setHeater b h) { s with tb := b }
  | .cfgwW => writeDoneThen s (.next (complete .none 0 (publishWritten (setHeater s.tb h) (publishRead s.tb s))))
  | .rstW | .rstD | .measW | .measR => .next s

/-- HEATER_ON (R163). -/
def execHeaterOn (s : State) : Result := heater 1 s

/-- HEATER_OFF (R164). -/
def execHeaterOff (s : State) : Result := heater 0 s

/-- ILLEGAL: `complete(ILLEGAL_OP, 0)`, "in the same event as the acceptance" (R165). The byte stands in CMD. -/
def execIllegal (_b : Byte) (s : State) : Result :=
  match s.fsm with
  | .idle => raise .illegalOp 0 s
  | .rstW | .rstD | .measW | .measR | .cfgrW | .cfgwW => .next s

/-- The operation of a code (30_encoding.md R94). -/
def runOp (op : HostOp) (s : State) : Result :=
  match op with
  | .softReset => execSoftReset s
  | .measT => execMeasT s
  | .measRh => execMeasRh s
  | .readCfg => execReadCfg s
  | .writeCfg => execWriteCfg s
  | .heaterOn => execHeaterOn s
  | .heaterOff => execHeaterOff s
  | .readEob => execReadEob s

end Sys2Proof.Machine
end

