-- ==== Sys2Proof/Machine/HostAccess.lean ====
section
/-! DEFINITION. Host register accesses (opcode table, format HOSTACC; spec/43_host_access.md R185 to R210). No access
faults; each completes in its event (10_state.md R22, 60_exceptions.md R225). -/

namespace Sys2Proof.Machine

/-! ### Reads: the data bits of the word are ignored -/

/-- RD.CMD (R187). -/
def execRdCmd (_d : Byte) (s : State) : Result := .next (drive .cmd s)

/-- RD.STATUS (R188). -/
def execRdStatus (_d : Byte) (s : State) : Result := .next (drive .status s)

/-- RD.IRQEN (R190). -/
def execRdIrqen (_d : Byte) (s : State) : Result := .next (drive .irqen s)

/-- RD.ARG (R192). -/
def execRdArg (_d : Byte) (s : State) : Result := .next (drive .arg s)

/-- RD.RAWH (R194). -/
def execRdRawh (_d : Byte) (s : State) : Result := .next (drive .rawh s)

/-- RD.RAWL (R195). -/
def execRdRawl (_d : Byte) (s : State) : Result := .next (drive .rawl s)

/-- RD.MSTAT (R196). -/
def execRdMstat (_d : Byte) (s : State) : Result := .next (drive .mstat s)

/-- RD.MCRC (R197). -/
def execRdMcrc (_d : Byte) (s : State) : Result := .next (drive .mcrc s)

/-- RD.CFG_RD (R198). -/
def execRdCfgRd (_d : Byte) (s : State) : Result := .next (drive .cfgRd s)

/-- RD.CFG_WR (R199). -/
def execRdCfgWr (_d : Byte) (s : State) : Result := .next (drive .cfgWr s)

/-- RD.CFG_FIELDS (R200). -/
def execRdCfgFields (_d : Byte) (s : State) : Result := .next (drive .cfgFields s)

/-- RD.CRC_ACC (R201). -/
def execRdCrcAcc (_d : Byte) (s : State) : Result := .next (drive .crcAcc s)

/-- RD.CRC_DIN (R203). -/
def execRdCrcDin (_d : Byte) (s : State) : Result := .next (drive .crcDin s)

/-- RD.CODEC_BYTE (R205). -/
def execRdCodecByte (_d : Byte) (s : State) : Result := .next (drive .codecByte s)

/-- RD.CODEC_FIELDS (R207). -/
def execRdCodecFields (_d : Byte) (s : State) : Result := .next (drive .codecFields s)

/-- RD.VALID (R209). -/
def execRdValid (_d : Byte) (s : State) : Result := .next (drive .valid s)

/-! ### CMD -/

/-- An accepted CMD write (R185): a byte that names an operation sets BUSY and runs it up to its first await, any other
is ILLEGAL, all within this event. -/
def acceptCommand (v : Byte) (s : State) : Result :=
  match HostOp.ofByte? v with
  | some op => runOp op (setBusy (accept v s))
  | none => execIllegal v (accept v s)

/-- A write to CMD: accepted while BUSY = 0 (R185), rejected while BUSY = 1 (R186). -/
def writeCommand (v : Byte) (s : State) : Result :=
  if s.status.busy then .next (reject s) else acceptCommand v s

/-- WR.CMD (R185). The word's other row, WR.CMD.REJECTED, is what it does while BUSY = 1 (log 5). -/
def execWrCmd (v : Byte) (s : State) : Result := writeCommand v s

/-- WR.CMD.REJECTED (R186): the same word, decoded while BUSY = 1 (log 5). -/
def execWrCmdRejected (v : Byte) (s : State) : Result := writeCommand v s

/-! ### Other registers with an effect -/

/-- WR.STATUS (R189). -/
def execWrStatus (v : Byte) (s : State) : Result := .next { s with status := s.status.cleared v }

/-- WR.IRQEN (R191). -/
def execWrIrqen (v : Byte) (s : State) : Result := .next { s with doneIe := v.getLsbD 0 }

/-- WR.ARG (R193). -/
def execWrArg (v : Byte) (s : State) : Result := .next { s with arg := v }

/-- WR.CRC_ACC (R202). -/
def execWrCrcAcc (v : Byte) (s : State) : Result := .next { s with crcAcc := v }

/-- WR.CRC_DIN (R204). -/
def execWrCrcDin (v : Byte) (s : State) : Result := .next { s with crcAcc := crc8Step s.crcAcc v }

/-- WR.CODEC_BYTE (R206). -/
def execWrCodecByte (v : Byte) (s : State) : Result := .next { s with codecByte := v }

/-- WR.CODEC_FIELDS (R208). -/
def execWrCodecFields (v : Byte) (s : State) : Result := .next { s with codecByte := byteview v }

/-! ### Writes to read-only registers: "no effect" (R210) -/

/-- WR.RO.RAWH (R210). -/
def execWrRoRawh (_v : Byte) (s : State) : Result := .next s

/-- WR.RO.RAWL (R210). -/
def execWrRoRawl (_v : Byte) (s : State) : Result := .next s

/-- WR.RO.MSTAT (R210). -/
def execWrRoMstat (_v : Byte) (s : State) : Result := .next s

/-- WR.RO.MCRC (R210). -/
def execWrRoMcrc (_v : Byte) (s : State) : Result := .next s

/-- WR.RO.CFG_RD (R210). -/
def execWrRoCfgRd (_v : Byte) (s : State) : Result := .next s

/-- WR.RO.CFG_WR (R210). -/
def execWrRoCfgWr (_v : Byte) (s : State) : Result := .next s

/-- WR.RO.CFG_FIELDS (R210). -/
def execWrRoCfgFields (_v : Byte) (s : State) : Result := .next s

/-- WR.RO.VALID (R210). -/
def execWrRoValid (_v : Byte) (s : State) : Result := .next s

end Sys2Proof.Machine
end

