-- ==== Sys2Proof/Machine/Dispatch.lean ====
section
/-! DEFINITION. One arm per constructor of Instr, each a call of its meaning. -/

namespace Sys2Proof.Machine

def exec (i : Instr) (s : State) : Host.Outcome State Fault Refusal :=
  match i with
  | .softReset => Sys2Proof.Machine.execSoftReset s
  | .measT => Sys2Proof.Machine.execMeasT s
  | .measRh => Sys2Proof.Machine.execMeasRh s
  | .readCfg => Sys2Proof.Machine.execReadCfg s
  | .writeCfg => Sys2Proof.Machine.execWriteCfg s
  | .heaterOn => Sys2Proof.Machine.execHeaterOn s
  | .heaterOff => Sys2Proof.Machine.execHeaterOff s
  | .readEob => Sys2Proof.Machine.execReadEob s
  | .illegal b => Sys2Proof.Machine.execIllegal b s
  | .rdCmd d => Sys2Proof.Machine.execRdCmd d s
  | .rdStatus d => Sys2Proof.Machine.execRdStatus d s
  | .rdIrqen d => Sys2Proof.Machine.execRdIrqen d s
  | .rdArg d => Sys2Proof.Machine.execRdArg d s
  | .rdRawh d => Sys2Proof.Machine.execRdRawh d s
  | .rdRawl d => Sys2Proof.Machine.execRdRawl d s
  | .rdMstat d => Sys2Proof.Machine.execRdMstat d s
  | .rdMcrc d => Sys2Proof.Machine.execRdMcrc d s
  | .rdCfgRd d => Sys2Proof.Machine.execRdCfgRd d s
  | .rdCfgWr d => Sys2Proof.Machine.execRdCfgWr d s
  | .rdCfgFields d => Sys2Proof.Machine.execRdCfgFields d s
  | .rdCrcAcc d => Sys2Proof.Machine.execRdCrcAcc d s
  | .rdCrcDin d => Sys2Proof.Machine.execRdCrcDin d s
  | .rdCodecByte d => Sys2Proof.Machine.execRdCodecByte d s
  | .rdCodecFields d => Sys2Proof.Machine.execRdCodecFields d s
  | .rdValid d => Sys2Proof.Machine.execRdValid d s
  | .wrCmd v => Sys2Proof.Machine.execWrCmd v s
  | .wrCmdRejected v => Sys2Proof.Machine.execWrCmdRejected v s
  | .wrStatus v => Sys2Proof.Machine.execWrStatus v s
  | .wrIrqen v => Sys2Proof.Machine.execWrIrqen v s
  | .wrArg v => Sys2Proof.Machine.execWrArg v s
  | .wrRoRawh v => Sys2Proof.Machine.execWrRoRawh v s
  | .wrRoRawl v => Sys2Proof.Machine.execWrRoRawl v s
  | .wrRoMstat v => Sys2Proof.Machine.execWrRoMstat v s
  | .wrRoMcrc v => Sys2Proof.Machine.execWrRoMcrc v s
  | .wrRoCfgRd v => Sys2Proof.Machine.execWrRoCfgRd v s
  | .wrRoCfgWr v => Sys2Proof.Machine.execWrRoCfgWr v s
  | .wrRoCfgFields v => Sys2Proof.Machine.execWrRoCfgFields v s
  | .wrCrcAcc v => Sys2Proof.Machine.execWrCrcAcc v s
  | .wrCrcDin v => Sys2Proof.Machine.execWrCrcDin v s
  | .wrCodecByte v => Sys2Proof.Machine.execWrCodecByte v s
  | .wrCodecFields v => Sys2Proof.Machine.execWrCodecFields v s
  | .wrRoValid v => Sys2Proof.Machine.execWrRoValid v s
  | .cmdSoftReset => Sys2Proof.Machine.execCmdSoftReset s
  | .cmdMeasTHold => Sys2Proof.Machine.execCmdMeasTHold s
  | .cmdMeasRhHold => Sys2Proof.Machine.execCmdMeasRhHold s
  | .cmdWriteCfg b => Sys2Proof.Machine.execCmdWriteCfg b s
  | .cmdReadCfg => Sys2Proof.Machine.execCmdReadCfg s

end Sys2Proof.Machine
end

