-- ==== Sys2Proof/Machine/Step.lean ====
section
/-! DEFINITION. One step: the oldest event of the inbox happens (spec/00_scope.md R8). A host access is decoded and
executed; an answer resumes the operation that OPL names; reset and time are the environment's. With no event to come
nothing happens: the block waits (42_framer_ops.md R169, 60_exceptions.md R242; log 1). -/

namespace Sys2Proof.Machine

/-- The running operation receives an answer: the instruction is the one OPL holds (10_state.md R46, R47). -/
def resume (s : State) (p : Presented) : Host.Outcome State Fault Refusal :=
  match p with
  | .ignored => .next s
  | .refused r => .refused r
  | .received t => exec (decodeOp t.opl) t

/-- One event. -/
def event (e : Input) (s : State) : Host.Outcome State Fault Refusal :=
  match e with
  | .access w => exec (decodeAccess s.status.busy w) s
  | .response r => resume s (presentResponse r s)
  | .secondResponse _ => resume s presentSecondResponse
  | .delayDone => resume s (presentDelayDone s)
  | .lateResponse _ => resume s (presentLateResponse s)
  | .lateDelayDone => resume s (presentLateDelayDone s)
  | .elapse ms => .next (elapse ms s)
  | .blockReset => .next (blockReset s)

/-- One step. -/
def step (s : State) : Host.Outcome State Fault Refusal :=
  match s.inbox with
  | [] => .next s
  | e :: rest => event e (takeEvent rest s)

/-- The sequencer at rest, so that the next CMD write is accepted. -/
def State.atRest (s : State) : State :=
  { s with fsm := .idle, status := { s.status with busy := false }, req := none, delay := none, arrival := none }

/-- The operation in whose first event a wire command is sent (30_encoding.md R100). -/
def wireOperation (c : Byte) : HostOp :=
  if c = wireSoftReset then .softReset
  else if c = wireMeasTHold then .measT
  else if c = wireMeasRhHold then .measRh
  else if c = wireWriteCfg then .writeCfg
  else .readCfg

/-- `s` with a table word presented as the next event (log 2). An access is the next host access. A CMD byte is the data
of a CMD write that an idle block accepts, so that the step runs its operation. A command byte is sent by the first
event of its operation, so the CMD write is that operation's, with 0xE6's payload in ARG. -/
def State.withFetchWord (s : State) (nbits w : Nat) : State :=
  match tableWord? nbits w with
  | some (.access a) => { s with inbox := .access a :: s.inbox }
  | some (.op b) => { s.atRest with inbox := .access (accessWord true .cmd b) :: s.inbox }
  | some (.frame (c :: payload)) =>
    { s.atRest with
      arg := payload.headD s.arg
      inbox := .access (accessWord true .cmd (wireOperation c).code) :: s.inbox }
  | some (.frame []) => s
  | none => s

end Sys2Proof.Machine
end

