-- ==== Sys2Proof/Machine/Assembly.lean ====
section
/-! DEFINITION. The host's side of the register port: the assembly notation and its pseudo-instructions
(spec/30_encoding.md R107, R108), the host that runs them against the block, the interrupts that reach it
(60_exceptions.md R230), the block's place in the host's address
space (20_memory.md R81), and the boot order (70_reset_and_hazards.md R251). -/

namespace Sys2Proof.Machine

/-- A line of host assembly (R107, R108). -/
inductive AsmLine where
  | wr (r : Reg) (imm8 : Byte)
  | rd (r : Reg)
  | op (o : HostOp)
  | opWriteCfg (imm8 : Byte)
  | wait
  | ack
  | clrovr
  | crc (bytes : List Byte)
  | fields (imm8 : Byte)
  deriving DecidableEq, Repr

/-- `wr REG, imm8` (R107). -/
def wrWord (r : Reg) (v : Byte) : AccessWord := accessWord true r v

/-- `rd REG` (R107). -/
def rdWord (r : Reg) : AccessWord := accessWord false r 0x00

/-- The accesses a line stands for (R108). `wait` is a loop, and this is its body: `runWait` repeats it. -/
def AsmLine.words : AsmLine → List AccessWord
  | .wr r v => [wrWord r v]
  | .rd r => [rdWord r]
  | .op o => [wrWord .cmd o.code]
  | .opWriteCfg v => [wrWord .arg v, wrWord .cmd HostOp.writeCfg.code]
  | .wait => [rdWord .status]
  | .ack => [wrWord .status 0x02]
  | .clrovr => [wrWord .status 0x20]
  | .crc bytes => wrWord .crcAcc 0x00 :: (bytes.map (wrWord .crcDin) ++ [rdWord .crcAcc])
  | .fields v => [wrWord .codecFields v]

/-- `wait` ends when bit 0 (BUSY) of the byte read is 0 (R108). -/
def waitExits (status : Byte) : Bool := !status.getLsbD 0

/-- A line as events of the host; for `wait`, of one turn of its loop. -/
def AsmLine.inputs (l : AsmLine) : List Input := l.words.map .access

/-! ### A host program beside the environment

The host's accesses and the environment's events (answers, time, reset) interleave freely (60_exceptions.md R232). An
interleaving is given by TURNS: the events that happen before the host's first access, before its second, and so on,
and none before the accesses after the last turn. So each access is one turn, and the program decides, from what it
has read, which access comes next (log 27). -/

/-- Events happen one after another, before those still in the inbox. -/
def runEvents : List Input → State → Host.Outcome State Fault Refusal
  | [], s => .next s
  | e :: es, s =>
    match step { s with inbox := e :: s.inbox } with
    | .next t => runEvents es t
    | .fault f => .fault f
    | .refused r => .refused r

/-- How a host program ends. -/
inductive RunEnd where
  /-- It ran to its end, with turns left over. -/
  | done (s : State) (turns : List (List Input))
  /-- A `wait` loop still reads BUSY = 1 with no event left to come: it reads so for good (70_reset_and_hazards.md
  R259). -/
  | waiting (s : State)
  /-- The trace is refused. -/
  | stopped (r : Refusal)
  deriving DecidableEq, Repr

/-- Go on from an outcome. There is no fault to end with (60_exceptions.md R225). -/
def RunEnd.after (o : Host.Outcome State Fault Refusal) (k : State → RunEnd) : RunEnd :=
  match o with
  | .next t => k t
  | .refused r => .stopped r
  | .fault f => nomatch f

/-- Accesses in a row. -/
def runWords : List AccessWord → List (List Input) → State → RunEnd
  | [], turns, s => .done s turns
  | w :: ws, turns, s => .after (runEvents (turns.headD [] ++ [.access w]) s) (runWords ws turns.tail)

/-- `wait`: "repeat `rd STATUS` until bit 0 (BUSY) of the result is 0" (R108). With no turn left no event comes any more,
and one read tells whether the loop ends. -/
def runWait : List (List Input) → State → RunEnd
  | [], s => .after (runEvents AsmLine.wait.inputs s) fun t =>
    if t.hRdata.any waitExits then .done t [] else .waiting t
  | turn :: turns, s => .after (runEvents (turn ++ AsmLine.wait.inputs) s) fun t =>
    if t.hRdata.any waitExits then .done t turns else runWait turns t

/-- A line of host assembly runs (R107, R108). -/
def AsmLine.run (l : AsmLine) (turns : List (List Input)) (s : State) : RunEnd :=
  match l with
  | .wait => runWait turns s
  | .wr _ _ | .rd _ | .op _ | .opWriteCfg _ | .ack | .clrovr | .crc _ | .fields _ => runWords l.words turns s

/-- A program runs, line by line. -/
def runProgram : List AsmLine → List (List Input) → State → RunEnd
  | [], turns, s => .done s turns
  | l :: ls, turns, s =>
    match l.run turns s with
    | .done t left => runProgram ls left t
    | .waiting t => .waiting t
    | .stopped r => .stopped r

/-! ### Interrupts at the host -/

/-- The states a run of `n` steps goes through, the last one first; it ends early where a step is refused. -/
def statesOf : Nat → State → List State
  | 0, s => [s]
  | n + 1, s =>
    match step s with
    | .next t => statesOf n t ++ [s]
    | .fault _ => [s]
    | .refused _ => [s]

/-- The interrupts pending at the host after a run through these states, the last one first: the platform sees nothing of
the block but its output `irq` (60_exceptions.md R229, R230). -/
def interruptsThrough (routing : IrqRouting) (states : List State) : List HostInterrupt := routing (states.map State.irq)

/-- The interrupts pending at the host after `n` steps from `s`. A host may ignore them and poll STATUS, with `wait`
(R230). -/
def hostInterrupts (n : Nat) (s : State) : List HostInterrupt := interruptsThrough Config.irqRouting (statesOf n s)

/-! ### Outside the notation -/

/-- A register's address in the host's own address space: `SCF_BASE` is the platform's (20_memory.md R81). Registers lie
at consecutive bytes (10_state.md R26); log 20. -/
def hostAddress (r : Reg) : Nat := Config.scfBase + r.addr.toNat

/-- The boot order of R251 as events: block reset, the sensor's power-up time, IRQEN if wanted, SOFT_RESET to its
completion, READ_CFG to its completion. The two answers and the length of the settle are the environment's. -/
def bootInputs (irq : Bool) (resetAnswer readAnswer : Response) (settleMs : Nat) : List Input :=
  [.blockReset, .elapse Config.tPwrupMs]
    ++ (AsmLine.wr .irqen (if irq then 0x01 else 0x00)).inputs
    ++ (AsmLine.op .softReset).inputs ++ [.response resetAnswer, .elapse settleMs, .delayDone]
    ++ (AsmLine.op .readCfg).inputs ++ [.response readAnswer]

/-- The boot against a fake device that takes the soft reset and then holds its power-on default (R250). -/
def bootInputsFromDefault (irq : Bool) (settleMs : Nat) : List Input :=
  bootInputs irq (.ok []) (.ok [Config.sensorCfgPor]) settleMs

end Sys2Proof.Machine
end

