-- ==== Sys2Proof/Machine/Conversion.lean ====
section
/-! DEFINITION. What the host makes of the block's result registers, outside the block (spec/00_scope.md R6): when they
have a meaning (70_reset_and_hazards.md R254), the conversions of them (49_host_conversion.md), and what the transport
means by TXERR. The exact rational is the reference value; the host's own number type and evaluation orders are the
parameter CONV_NUM (R12, R218; log 24). -/

namespace Sys2Proof.Machine

/-! ### When a result register has a meaning -/

/-- The operations that write a result register (R254, second column); the other registers are no results. -/
def resultWriters : Reg → List HostOp
  | .rawh | .rawl | .mstat | .mcrc => [.measT, .measRh]
  | .cfgRd | .cfgFields => [.readCfg, .readEob, .heaterOn, .heaterOff]
  | .cfgWr => [.writeCfg, .heaterOn, .heaterOff]
  | .cmd | .status | .irqen | .arg | .crcAcc | .crcDin | .codecByte | .codecFields | .valid => []

/-- The VALID bit of a result register (R254, third column). -/
def Valid.bitOf (v : Valid) : Reg → Bool
  | .rawh | .rawl | .mstat | .mcrc => v.measV
  | .cfgRd | .cfgFields => v.cfgrdV
  | .cfgWr => v.cfgwrV
  | .cmd | .status | .irqen | .arg | .crcAcc | .crcDin | .codecByte | .codecFields | .valid => false

/-- A completion, as the host knows it: the operation's CMD byte and its error. -/
structure Completion where
  op  : Byte
  err : ErrCode
  deriving DecidableEq, Repr

/-- The completion that an idle block shows, in CMD and ERR: only an acceptance writes them again (43_host_access.md
R185). -/
def State.shownCompletion? (s : State) : Option Completion :=
  if s.status.busy then none else some { op := s.cmd, err := s.status.err }

/-- The most recent completion of a run through these states, the last one first: the one that the last idle state among
them shows. While an operation is in progress it is that of the operation before (log 26). -/
def lastCompletion? (states : List State) : Option Completion := states.findSome? State.shownCompletion?

/-- A result register has a meaning, where `last` is the most recent completion: the three conditions of R254. -/
def State.resultMeaningful (r : Reg) (last : Option Completion) (s : State) : Bool :=
  match last with
  | none => false
  | some c => c.err == .none && ((resultWriters r).map HostOp.code).contains c.op && s.valid.bitOf r

/-! ### The count that is converted -/

/-- The count the host reads, `{RAWH, RAWL}` (10_state.md R32, 30_encoding.md R104). -/
def State.rawCount (s : State) : Nat := (s.rawh ++ s.rawl).toNat

/-- The count a host may convert to a quantity of this kind: only that of a sample of the kind, from an operation that
completed with ERR = 0 (49_host_conversion.md R219, R254). -/
def State.countOf? (kind : MeasKind) (last : Option Completion) (s : State) : Option Nat :=
  if s.resultMeaningful .rawh last && s.mstat.kind == kind then some s.rawCount else none

/-! ### The reference values -/

/-- The reference value of the temperature a host may report. -/
def State.hostTemperature? (last : Option Completion) (s : State) : Option ℚ :=
  (s.countOf? .temperature last).map temperatureOf

/-- The reference value of the humidity a host may report. -/
def State.hostHumidity? (last : Option Completion) (s : State) : Option ℚ := (s.countOf? .humidity last).map humidityOf

/-! ### The host's own number type -/

/-- The temperature as a host with number type and evaluation orders `c` computes it: the formula "rounded by its own
arithmetic, in its own evaluation order" (R218). -/
def State.temperatureIn (c : ConvNum) (last : Option Completion) (s : State) : Option (BitVec c.width) :=
  (s.countOf? .temperature last).map fun raw => evalConv c.num raw c.temperature

/-- The humidity as such a host computes it. -/
def State.humidityIn (c : ConvNum) (last : Option Completion) (s : State) : Option (BitVec c.width) :=
  (s.countOf? .humidity last).map fun raw => evalConv c.num raw c.humidity

/-- The temperature the host reports. -/
def State.reportedTemperature? (last : Option Completion) (s : State) : Option (BitVec Config.convNum.width) :=
  s.temperatureIn Config.convNum last

/-- The humidity the host reports. -/
def State.reportedHumidity? (last : Option Completion) (s : State) : Option (BitVec Config.convNum.width) :=
  s.humidityIn Config.convNum last

/-! ### The transport's error detail -/

/-- What the transport means by the failure that STATUS shows: TXERR is its own code, copied (60_exceptions.md R222). -/
def State.transportDetail? (s : State) : Option String :=
  if s.status.err = .transport then some (Config.txerrMeaning s.status.txerr) else none

end Sys2Proof.Machine
end

