-- ==== Sys2Proof/Safety.lean ====
section
/-! DEFINITION. What counts as a safe state and a safe step: the invariants of the sequencer, of STATUS and of the
measurement registers, the answers an operation still needs, and the parts of the state that claims compare. -/

namespace Sys2Proof.Machine

/-- The configuration byte that the Write outstanding in CFGW_W carries (42_framer_ops.md R162 to R164, R166). -/
def payloadInFlight (s : State) : Byte :=
  if s.opl = HostOp.heaterOn.code then s.tb ||| 0x04
  else if s.opl = HostOp.heaterOff.code then s.tb &&& 0xFB
  else s.argl

/-- The transport request outstanding in each sequencer state (10_state.md R45, 42_framer_ops.md R166). -/
def expectedRequest (s : State) : Option Request :=
  match s.fsm with
  | .idle => none
  | .rstW => some { kind := .write, addr := Config.devAddr, wbytes := [0xFE], rlen := 0 }
  | .rstD => none
  | .measW =>
    some { kind := .write, addr := Config.devAddr,
           wbytes := [if s.opl = HostOp.measRh.code then 0xE5 else 0xE3], rlen := 0 }
  | .measR => some { kind := .read, addr := Config.devAddr, wbytes := [], rlen := 3 }
  | .cfgrW => some { kind := .writeRead, addr := Config.devAddr, wbytes := [0xE7], rlen := 1 }
  | .cfgwW => some { kind := .write, addr := Config.devAddr, wbytes := [0xE6, payloadInFlight s], rlen := 0 }

/-- The operations whose steps a sequencer state belongs to (10_state.md R45). -/
def operationsOf : Fsm → List Byte
  | .idle => []
  | .rstW | .rstD => [HostOp.softReset.code]
  | .measW | .measR => [HostOp.measT.code, HostOp.measRh.code]
  | .cfgrW => [HostOp.readCfg.code, HostOp.readEob.code, HostOp.heaterOn.code, HostOp.heaterOff.code]
  | .cfgwW => [HostOp.writeCfg.code, HostOp.heaterOn.code, HostOp.heaterOff.code]

/-- The sequencer is in order: BUSY, the outstanding requests, OPL and CMD agree with FSM (R45, R46, R166). -/
structure SequencerInv (s : State) : Prop where
  busy_iff : s.status.busy = true ↔ s.fsm ≠ .idle
  request : s.req = expectedRequest s
  delay_ms : s.delay.map DelayRequest.ms = if s.fsm = .rstD then some 15 else none
  delay_since : ∀ d, s.delay = some d → d.since ≤ s.nowMs
  operation : s.fsm ≠ .idle → s.opl ∈ operationsOf s.fsm
  command : s.fsm ≠ .idle → s.cmd = s.opl
  arrival : s.arrival = none

/-- STATUS is in order: no outcome is shown while BUSY (43_host_access.md R188), TXERR is 0 but for a transport error
(R28), and DECODE is never produced (60_exceptions.md R224). -/
structure StatusInv (s : State) : Prop where
  quiet_while_busy : s.status.busy = true → s.status.done = false ∧ s.status.err = .none ∧ s.status.txerr = 0
  txerr_only_transport : s.status.txerr ≠ 0 → s.status.err = .transport
  never_decode : s.status.err ≠ .decode

/-- The measurement registers hold one intact sample, or none: RAWL's low bits are 0 (R32), MCRC is the checksum of the
sample as received (43_host_access.md R197), and before the first measurement all are 0x00. -/
structure SampleInv (s : State) : Prop where
  rawl_masked : s.rawl &&& 0x03 = 0
  checksum : s.valid.measV = true → s.mcrc = crc8 [s.rawh, s.rawl ||| s.mstat.sbits.setWidth 8]
  before_first : s.valid.measV = false → s.rawh = 0 ∧ s.rawl = 0 ∧ s.mstat.toByte = 0 ∧ s.mcrc = 0

/-- Event `e` is an answer to what the block has outstanding: an answer of the right shape to its transport request, or
`delay_done` after the time asked for (10_state.md R23, R24). -/
def Answers (s : State) (e : Input) : Prop :=
  match e with
  | .response r => ∃ q, s.req = some q ∧ q.accepts r = true
  | .delayDone => s.fsm = .rstD ∧ ∃ d, s.delay = some d ∧ d.since + d.ms ≤ s.nowMs
  | .access _ | .secondResponse _ | .lateResponse _ | .lateDelayDone | .elapse _ | .blockReset => False

/-- How many answers the running operation still needs at most (70_reset_and_hazards.md R259, R267). -/
def answersLeft (s : State) : Nat :=
  match s.fsm with
  | .idle => 0
  | .rstW => 2
  | .rstD => 1
  | .measW => 2
  | .measR => 1
  | .cfgrW => if s.opl = HostOp.heaterOn.code ∨ s.opl = HostOp.heaterOff.code then 2 else 1
  | .cfgwW => 1

/-- The measurement registers (10_state.md R31 to R34). -/
def State.sample (s : State) : Byte × Byte × Mstat × Byte := (s.rawh, s.rawl, s.mstat, s.mcrc)

/-- The result registers (10_state.md R44). -/
def State.results (s : State) : (Byte × Byte × Mstat × Byte) × Byte × Byte × Valid :=
  (s.sample, s.cfgRd, s.cfgWr, s.valid)

/-- The registers that only host accesses write (20_memory.md R71). -/
def State.hostOwned (s : State) : Byte × Bool × Byte × Byte × Byte := (s.cmd, s.doneIe, s.arg, s.crcAcc, s.codecByte)

/-- `s` with other latches (10_state.md R46). -/
def State.withLatches (s : State) (opl argl tb : Byte) : State := { s with opl := opl, argl := argl, tb := tb }

/-- `s` with another CRC accumulator. -/
def State.withCrcAcc (s : State) (v : Byte) : State := { s with crcAcc := v }

/-- An event that the host CRC unit does not see: anything but block reset and a host write to CRC_ACC or CRC_DIN
(41_checksum.md R148 to R151). -/
def leavesCrcUnit (e : Input) : Prop :=
  match e with
  | .access w => accessWe w = true → Reg.ofAddr (accessAddr w) ≠ .crcAcc ∧ Reg.ofAddr (accessAddr w) ≠ .crcDin
  | .blockReset => False
  | .response _ | .secondResponse _ | .delayDone | .lateResponse _ | .lateDelayDone | .elapse _ => True

/-- The accesses of `crc` (30_encoding.md R108) with other events between them: `gap` after the first, and after each
byte's the events beside it. -/
def crcWithGaps (gap : List Input) (fed : List (Byte × List Input)) : List Input :=
  .access (wrWord .crcAcc 0x00) :: gap ++ fed.flatMap (fun p => .access (wrWord .crcDin p.1) :: p.2)
    ++ [.access (rdWord .crcAcc)]

/-- A result's state under a function; a stop stays as it is. -/
def mapNext (f : State → State) : Result → Result
  | .next s => .next (f s)
  | .fault r => .fault r
  | .refused r => .refused r

end Sys2Proof.Machine
end

