-- ==== Sys2Proof/Certificates/Slice0/Obligations.lean ====
section
/-! DEFINITION. The statements for the provers. Each docstring names the rules of spec/ it formalises. A next state is
written out as the state before with the changed fields, so that each result statement is its own frame: every other
register, flag, latch, request and port is as before. -/

open Sys2Proof Sys2Proof.Machine

/-! ### Encoding -/

/-- Words written out from the spec's encodings decode to what they stand for: a read and a write of each of the sixteen
addresses (10_state.md R26, 30_encoding.md R91), each of the eight CMD codes (R94), each frame (R100), and words of
programs P1 to P5 of 95_test_vectors.md. -/
def Obligations.SpecWordsDecode : Prop :=
  ([0x0000, 0x0100, 0x0200, 0x0300, 0x0400, 0x0500, 0x0600, 0x0700, 0x0800, 0x0900, 0x0A00, 0x0B00, 0x0C00, 0x0D00,
      0x0E00, 0x0F00] : List AccessWord).map (decodeAccess false) =
    [.rdCmd 0, .rdStatus 0, .rdIrqen 0, .rdArg 0, .rdRawh 0, .rdRawl 0, .rdMstat 0, .rdMcrc 0, .rdCfgRd 0, .rdCfgWr 0,
      .rdCfgFields 0, .rdCrcAcc 0, .rdCrcDin 0, .rdCodecByte 0, .rdCodecFields 0, .rdValid 0] ∧
  ([0x105A, 0x115A, 0x125A, 0x135A, 0x145A, 0x155A, 0x165A, 0x175A, 0x185A, 0x195A, 0x1A5A, 0x1B5A, 0x1C5A, 0x1D5A,
      0x1E5A, 0x1F5A] : List AccessWord).map (decodeAccess false) =
    [.wrCmd 0x5A, .wrStatus 0x5A, .wrIrqen 0x5A, .wrArg 0x5A, .wrRoRawh 0x5A, .wrRoRawl 0x5A, .wrRoMstat 0x5A,
      .wrRoMcrc 0x5A, .wrRoCfgRd 0x5A, .wrRoCfgWr 0x5A, .wrRoCfgFields 0x5A, .wrCrcAcc 0x5A, .wrCrcDin 0x5A,
      .wrCodecByte 0x5A, .wrCodecFields 0x5A, .wrRoValid 0x5A] ∧
  ([0x01, 0x02, 0x03, 0x04, 0x05, 0x06, 0x07, 0x08] : List Byte).map decodeOp =
    [.softReset, .measT, .measRh, .readCfg, .writeCfg, .heaterOn, .heaterOff, .readEob] ∧
  decodeAccess false 0x1002 = .wrCmd 0x02 ∧ decodeAccess true 0x1002 = .wrCmdRejected 0x02 ∧
  decodeAccess false 0x0100 = .rdStatus 0x00 ∧ decodeAccess false 0x1201 = .wrIrqen 0x01 ∧
  decodeAccess false 0x1122 = .wrStatus 0x22 ∧ decodeAccess false 0x133B = .wrArg 0x3B ∧
  decodeAccess true 0x0A00 = .rdCfgFields 0x00 ∧ decodeAccess false 0x1B00 = .wrCrcAcc 0x00 ∧
  decodeAccess false 0x1C7C = .wrCrcDin 0x7C ∧ decodeAccess false 0x1EE9 = .wrCodecFields 0xE9 ∧
  decodeAccess false 0x1455 = .wrRoRawh 0x55 ∧ decodeAccess false 0x0F00 = .rdValid 0x00 ∧
  decodeOp 0x00 = .illegal 0x00 ∧ decodeOp 0x09 = .illegal 0x09 ∧ decodeOp 0x10 = .illegal 0x10 ∧
  decodeFrame [0xE3] = .ok .cmdMeasTHold ∧ decodeFrame [0xE5] = .ok .cmdMeasRhHold ∧
  decodeFrame [0xFE] = .ok .cmdSoftReset ∧ decodeFrame [0xE6, 0x83] = .ok (.cmdWriteCfg 0x83) ∧
  decodeFrame [0xE7] = .ok .cmdReadCfg ∧ decodeFrame [0xF3] = .error (.unknownCommand 0xF3)

/-- Decoding the words of a well-formed instruction gives it back, with every operand at every value, under the BUSY
value its row asks for (R91, R93 to R95, R100, R101; the WR.CMD rows' condition, R185, R186). -/
def Obligations.DecodeOfEncodeIsTheInstruction : Prop :=
  ∀ (i : Instr) (busy : Bool), i.wellFormed = true → i.admitsBusy busy = true → decode busy (encode i) = .ok i

/-- Every one of the 2^13 access words is a legal access, of one instruction (R91). That no bit of it is lost, the
ignored data bits of a read among them, is the model's choice (log 18): R91 says only that they are ignored. -/
def Obligations.EveryAccessWordIsOneInstruction : Prop :=
  ∀ (busy : Bool) (w : AccessWord),
    (decodeAccess busy w).wellFormed = true ∧ (decodeAccess busy w).admitsBusy busy = true ∧
    encode (decodeAccess busy w) = .access w

/-- R93: a CMD byte names an operation only if it is exactly one of the eight codes; and then any other byte, OP bits
right and RSV bits wrong among them, is ILLEGAL and keeps its value. -/
def Obligations.CmdByteNamesAnOperationExactly : Prop :=
  ∀ b : Byte,
    ((∃ op : HostOp, decodeOp b = op.instr) ↔ b ∈ ([0x01, 0x02, 0x03, 0x04, 0x05, 0x06, 0x07, 0x08] : List Byte)) ∧
    (b ∉ ([0x01, 0x02, 0x03, 0x04, 0x05, 0x06, 0x07, 0x08] : List Byte) → decodeOp b = .illegal b) ∧
    ((∃ op : HostOp, decodeOp b = op.instr) → b.extractLsb' 4 4 = 0)

/-! ### Codec -/

/-- R122: `res_decode` accepts exactly the four selector bytes and never defaults; on `b & 0x81` it never fails. -/
def Obligations.ResDecodeAcceptsFourBytesOnly : Prop :=
  resDecode 0x00 = some .res12 ∧ resDecode 0x01 = some .res8 ∧ resDecode 0x80 = some .res10 ∧
  resDecode 0x81 = some .res11 ∧
  (∀ v : Byte, v ∉ ([0x00, 0x01, 0x80, 0x81] : List Byte) → resDecode v = none) ∧
  (∀ b : Byte, resDecode (b &&& 0x81) ≠ none)

/-- R126: the codec is a bijection between the 256 bytes and the 256 records. -/
def Obligations.CodecIsABijection : Prop :=
  (∀ b : Byte, ∃ f, cfgDecode b = some f ∧ cfgEncode f = b) ∧ (∀ f : CfgFields, cfgDecode (cfgEncode f) = some f)

/-- R129: the field view and the byte view are the two bit permutations. -/
def Obligations.FieldViewIsABitPermutation : Prop :=
  (∀ (b : Byte) (f : CfgFields), cfgDecode b = some f → fieldview b = packFields f) ∧
  (∀ v : Byte, byteview v = cfgEncode (unpackFields v)) ∧
  (∀ b : Byte, [(fieldview b).getLsbD 7, (fieldview b).getLsbD 6, (fieldview b).getLsbD 5, (fieldview b).getLsbD 4,
      (fieldview b).getLsbD 3, (fieldview b).getLsbD 2, (fieldview b).getLsbD 1, (fieldview b).getLsbD 0] =
    [b.getLsbD 5, b.getLsbD 4, b.getLsbD 3, b.getLsbD 6, b.getLsbD 1, b.getLsbD 2, b.getLsbD 7, b.getLsbD 0]) ∧
  (∀ v : Byte, [(byteview v).getLsbD 7, (byteview v).getLsbD 6, (byteview v).getLsbD 5, (byteview v).getLsbD 4,
      (byteview v).getLsbD 3, (byteview v).getLsbD 2, (byteview v).getLsbD 1, (byteview v).getLsbD 0] =
    [v.getLsbD 1, v.getLsbD 4, v.getLsbD 7, v.getLsbD 6, v.getLsbD 5, v.getLsbD 2, v.getLsbD 3, v.getLsbD 0]) ∧
  fieldview 0x3A = 0xE8 ∧ fieldview 0x81 = 0x03 ∧ fieldview 0x40 = 0x10 ∧ byteview 0x05 = 0x05

/-- Packing and unpacking undo each other, and so do the two views (R127, R128, and 95_test_vectors.md section 2). -/
def Obligations.FieldPackingUndoesItself : Prop :=
  (∀ v : Byte, packFields (unpackFields v) = v) ∧ (∀ f : CfgFields, unpackFields (packFields f) = f) ∧
  (∀ b : Byte, byteview (fieldview b) = b) ∧ (∀ v : Byte, fieldview (byteview v) = v)

/-- R131: `set_heater` re-encodes the decoded byte with another heater bit, and so changes bit 2 only. -/
def Obligations.SetHeaterChangesBitTwoOnly : Prop :=
  (∀ (b : Byte) (h : BitVec 1) (f : CfgFields), cfgDecode b = some f →
    setHeater b h = cfgEncode { f with heater := h }) ∧
  (∀ b : Byte, setHeater b 1 = b ||| 0x04 ∧ setHeater b 0 = b &&& 0xFB)

/-! ### Checksum -/

/-- R147: the step is a table over `acc ^ byte`, and the table's first sixteen entries are those of the rule. -/
def Obligations.CrcStepIsATable : Prop :=
  (∀ acc x : Byte, crc8Step acc x = crc8Step 0x00 (acc ^^^ x)) ∧
  (([0x00, 0x01, 0x02, 0x03, 0x04, 0x05, 0x06, 0x07, 0x08, 0x09, 0x0A, 0x0B, 0x0C, 0x0D, 0x0E, 0x0F] : List Byte).map
      (crc8Step 0x00) =
    [0x00, 0x31, 0x62, 0x53, 0xC4, 0xF5, 0xA6, 0x97, 0xB9, 0x88, 0xDB, 0xEA, 0x7D, 0x4C, 0x1F, 0x2E])

/-- R145: linearity over lists of equal length, the zero residue, and the detection of every single-bit error. -/
def Obligations.CrcIsLinearAndCatchesSingleBitErrors : Prop :=
  (∀ a b : List Byte, a.length = b.length → crc8 (List.zipWith (· ^^^ ·) a b) = crc8 a ^^^ crc8 b) ∧
  (∀ d : List Byte, crc8 (d ++ [crc8 d]) = 0x00) ∧
  (∀ d0 d1 c : Byte, sampleIntact d0 d1 c = true ↔ crc8 [d0, d1, c] = 0x00) ∧
  (∀ (d0 d1 c : Byte) (k : Nat), k < 8 → sampleIntact d0 d1 c = true →
    sampleIntact (d0 ^^^ (1#8 <<< k)) d1 c = false ∧ sampleIntact d0 (d1 ^^^ (1#8 <<< k)) c = false ∧
    sampleIntact d0 d1 (c ^^^ (1#8 <<< k)) = false)

/-- R152, the check value of the nine ASCII bytes, beside vectors of 95_test_vectors.md section 3. -/
def Obligations.CrcCheckValue : Prop :=
  crc8 [0x31, 0x32, 0x33, 0x34, 0x35, 0x36, 0x37, 0x38, 0x39] = 0xA2 ∧
  crc8 [0x68, 0x3A] = 0x7C ∧ crc8 [0x7C, 0x80] = 0xF5 ∧ crc8 [0xFF, 0xFF] = 0x2D ∧ crc8 [] = 0x00

/-! ### Host reads -/

/-- What each read of a control, CRC, codec or VALID register returns (R188, R190, R192, R203, R207, and the returned
values of R187, R201, R205, R209); it changes nothing but `h_rdata`, whatever its data bits. While BUSY, the outcome
fields of STATUS read 0 (R188's corner case), in states that meet the STATUS invariant. The ERR numbers are those of
60_exceptions.md R221. -/
def Obligations.ReadsOfControlRegisters : Prop :=
  ∀ (s : State) (d : Byte),
    exec (.rdCmd d) s = .next { s with hRdata := some s.cmd } ∧
    (∃ v : Byte, exec (.rdStatus d) s = .next { s with hRdata := some v } ∧
      v.getLsbD 0 = s.status.busy ∧ v.getLsbD 1 = s.status.done ∧ (s.status.err = .none → v.extractLsb' 2 3 = 0) ∧
      (s.status.err = .transport → v.extractLsb' 2 3 = 1) ∧ (s.status.err = .integrity → v.extractLsb' 2 3 = 2) ∧
      (s.status.err = .decode → v.extractLsb' 2 3 = 3) ∧ (s.status.err = .illegalOp → v.extractLsb' 2 3 = 4) ∧
      v.getLsbD 5 = s.status.ovr ∧ v.extractLsb' 6 2 = s.status.txerr ∧
      (StatusInv s → s.status.busy = true → v &&& 0xDF = 0x01)) ∧
    exec (.rdIrqen d) s = .next { s with hRdata := some (if s.doneIe then 0x01 else 0x00) } ∧
    exec (.rdArg d) s = .next { s with hRdata := some s.arg } ∧
    exec (.rdCrcAcc d) s = .next { s with hRdata := some s.crcAcc } ∧
    exec (.rdCrcDin d) s = .next { s with hRdata := some 0x00 } ∧
    exec (.rdCodecByte d) s = .next { s with hRdata := some s.codecByte } ∧
    exec (.rdCodecFields d) s = .next { s with hRdata := some (fieldview s.codecByte) } ∧
    (∃ v : Byte, exec (.rdValid d) s = .next { s with hRdata := some v } ∧
      v.getLsbD 0 = s.valid.measV ∧ v.getLsbD 1 = s.valid.cfgrdV ∧ v.getLsbD 2 = s.valid.cfgwrV ∧
      v.extractLsb' 3 5 = 0)

/-- What each read of a result register returns (R195, R196, R197, and the returned values of R194, R198, R199, R200);
it changes nothing but `h_rdata`, whatever its data bits. The corner cases of RAWL (bits 1:0 are 0) and MCRC (the
checksum of the sample as received) hold in states that meet the sample invariant. -/
def Obligations.ReadsOfResultRegisters : Prop :=
  ∀ (s : State) (d : Byte),
    exec (.rdRawh d) s = .next { s with hRdata := some s.rawh } ∧
    exec (.rdRawl d) s = .next { s with hRdata := some s.rawl } ∧
    (SampleInv s → s.rawl.extractLsb' 0 2 = 0) ∧
    (∃ v : Byte, exec (.rdMstat d) s = .next { s with hRdata := some v } ∧
      v.extractLsb' 0 2 = s.mstat.sbits ∧ (v.getLsbD 2 = true ↔ s.mstat.kind = .humidity) ∧ v.extractLsb' 3 5 = 0) ∧
    exec (.rdMcrc d) s = .next { s with hRdata := some s.mcrc } ∧
    (SampleInv s → s.valid.measV = true → s.mcrc = crc8 [s.rawh, s.rawl ||| s.mstat.sbits.setWidth 8]) ∧
    exec (.rdCfgRd d) s = .next { s with hRdata := some s.cfgRd } ∧
    exec (.rdCfgWr d) s = .next { s with hRdata := some s.cfgWr } ∧
    exec (.rdCfgFields d) s = .next { s with hRdata := some (fieldview s.cfgRd) }

/-- No host read has a side effect: a step on any of the 2^12 read words takes the event, drives the addressed register,
and changes nothing else; the ignored data bits do not matter (20_memory.md R80, 30_encoding.md R91, R92). -/
def Obligations.StepOnAReadChangesNothingElse : Prop :=
  ∀ (s : State) (w : AccessWord) (rest : List Input), s.inbox = .access w :: rest → accessWe w = false →
    step s = .next { s with inbox := rest, hRdata := some (s.readReg (Reg.ofAddr (accessAddr w))) }

/-! ### Host writes -/

/-- R191, R202, R204, R206, R208, and the effect of R193: each of these writes changes its one register, at once and in
every state. Setting DONE_IE while DONE = 1 raises the interrupt (R191), and CODEC_FIELDS reads back what was written
(R208). -/
def Obligations.WritesOfPlainRegisters : Prop :=
  ∀ (s : State) (v : Byte),
    exec (.wrIrqen v) s = .next { s with doneIe := v.getLsbD 0 } ∧
    (s.status.done = true → ({ s with doneIe := v.getLsbD 0 } : State).irq = v.getLsbD 0) ∧
    exec (.wrArg v) s = .next { s with arg := v } ∧
    exec (.wrCrcAcc v) s = .next { s with crcAcc := v } ∧
    exec (.wrCrcDin v) s = .next { s with crcAcc := crc8Step s.crcAcc v } ∧
    exec (.wrCodecByte v) s = .next { s with codecByte := v } ∧
    exec (.wrCodecFields v) s = .next { s with codecByte := byteview v } ∧
    fieldview (byteview v) = v

/-- R189: a write to STATUS clears DONE by bit 1 and OVR by bit 5 and ignores every other bit; clearing DONE drops the
interrupt. -/
def Obligations.StatusWriteClearsDoneAndOvrOnly : Prop :=
  ∀ (s : State) (v : Byte), ∃ t : State,
    t = { s with status :=
      { s.status with
        done := if v.getLsbD 1 = true then false else s.status.done
        ovr := if v.getLsbD 5 = true then false else s.status.ovr } } ∧
    exec (.wrStatus v) s = .next t ∧ (v.getLsbD 1 = true → t.irq = false)

/-- R210: a write to a read-only register has no effect. -/
def Obligations.WritesToReadOnlyRegistersDoNothing : Prop :=
  ∀ (s : State) (v : Byte),
    exec (.wrRoRawh v) s = .next s ∧ exec (.wrRoRawl v) s = .next s ∧ exec (.wrRoMstat v) s = .next s ∧
    exec (.wrRoMcrc v) s = .next s ∧ exec (.wrRoCfgRd v) s = .next s ∧ exec (.wrRoCfgWr v) s = .next s ∧
    exec (.wrRoCfgFields v) s = .next s ∧ exec (.wrRoValid v) s = .next s

/-! ### CMD -/

/-- R185: a write to CMD while BUSY = 0, in an idle block, for each of the eight codes and for every reserved byte: the
whole next state, with the first request outstanding, or the ILLEGAL_OP completion. -/
def Obligations.AcceptedCommandStartsItsOperation : Prop :=
  ∀ s : State, s.status.busy = false → s.fsm = .idle → s.req = none → s.delay = none →
    let started := fun (v : Byte) (f : Fsm) (q : Request) =>
      ({ s with
          cmd := v, opl := v, argl := s.arg, fsm := f, req := some q, arrival := none
          status := { busy := true, done := false, err := .none, ovr := s.status.ovr, txerr := 0 } } : State)
    let write := fun (bytes : List Byte) => (⟨.write, Config.devAddr, bytes, 0⟩ : Request)
    let readCfg : Request := ⟨.writeRead, Config.devAddr, [0xE7], 1⟩
    exec (.wrCmd 0x01) s = .next (started 0x01 .rstW (write [0xFE])) ∧
    exec (.wrCmd 0x02) s = .next (started 0x02 .measW (write [0xE3])) ∧
    exec (.wrCmd 0x03) s = .next (started 0x03 .measW (write [0xE5])) ∧
    exec (.wrCmd 0x04) s = .next (started 0x04 .cfgrW readCfg) ∧
    exec (.wrCmd 0x05) s = .next (started 0x05 .cfgwW (write [0xE6, s.arg])) ∧
    exec (.wrCmd 0x06) s = .next (started 0x06 .cfgrW readCfg) ∧
    exec (.wrCmd 0x07) s = .next (started 0x07 .cfgrW readCfg) ∧
    exec (.wrCmd 0x08) s = .next (started 0x08 .cfgrW readCfg) ∧
    (∀ b : Byte, reservedOpByte b = true →
      exec (.wrCmd b) s = .next
        { s with
          cmd := b, opl := b, argl := s.arg, arrival := none
          status := { busy := false, done := true, err := .illegalOp, ovr := s.status.ovr, txerr := 0 } })

/-- R165: ILLEGAL completes with ERR = ILLEGAL_OP, in the event of its acceptance, with no request; the byte reads back
from CMD; no result register changes. -/
def Obligations.ReservedCommandIsIllegal : Prop :=
  ∀ (s : State) (b : Byte), s.fsm = .idle →
    exec (.illegal b) s = .next
      { s with
        arrival := none
        status := { busy := false, done := true, err := .illegalOp, ovr := s.status.ovr, txerr := 0 } } ∧
    (reservedOpByte b = true → s.status.busy = false → ∃ t, exec (.wrCmd b) s = .next t ∧
      t.cmd = b ∧ t.fsm = .idle ∧ t.req = s.req ∧ t.delay = s.delay ∧ t.results = s.results ∧
      t.status = { busy := false, done := true, err := .illegalOp, ovr := s.status.ovr, txerr := 0 })

/-- R186: a write to CMD while BUSY = 1 sets OVR and changes nothing else, for either spelling of the word. -/
def Obligations.RejectedCommandSetsOvrOnly : Prop :=
  ∀ (s : State) (v : Byte), s.status.busy = true →
    exec (.wrCmdRejected v) s = .next { s with status := { s.status with ovr := true } } ∧
    exec (.wrCmd v) s = .next { s with status := { s.status with ovr := true } }

/-- An accepted CMD write runs the instruction its byte decodes to, after acceptance, in the same event (R185; this is
how the HOSTOP rows run). -/
def Obligations.AcceptedCommandRunsTheDecodedOperation : Prop :=
  ∀ (s : State) (v : Byte), s.status.busy = false →
    let accepted : State :=
      { s with cmd := v, opl := v, argl := s.arg,
               status := { busy := false, done := false, err := .none, ovr := s.status.ovr, txerr := 0 } }
    exec (.wrCmd v) s =
      exec (decodeOp v)
        (if reservedOpByte v then accepted else { accepted with status := { accepted.status with busy := true } })

/-! ### Host operations -/

/-- The pseudocode of R155: SOFT_RESET sends its Write, issues the delay whatever the answer was, and completes with
no error when the delay is over, clearing CFGRD_V and CFGWR_V only. -/
def Obligations.SoftResetFollowsItsRule : Prop :=
  ∀ s : State, s.req = none → s.delay = none →
    (s.fsm = .idle → exec .softReset s = .next
      { s with fsm := .rstW, arrival := none, req := some ⟨.write, Config.devAddr, [0xFE], 0⟩ }) ∧
    (s.fsm = .rstW → (s.arrival = some (.response (.ok [])) ∨ ∃ code, s.arrival = some (.response (.err code))) →
      exec .softReset s = .next { s with fsm := .rstD, arrival := none, delay := some ⟨15, s.nowMs⟩ }) ∧
    (s.fsm = .rstD → s.arrival = some .delayDone → exec .softReset s = .next
      { s with
        fsm := .idle, arrival := none
        valid := { measV := s.valid.measV, cfgrdV := false, cfgwrV := false }
        status := { busy := false, done := true, err := .none, ovr := s.status.ovr, txerr := 0 } })

/-- R156, run for MEAS_T and MEAS_RH as R157 and R158 say: MEAS_T and MEAS_RH, event by event: the command's Write,
the Read after its `Ok`, the publication of an intact sample, INTEGRITY with no register written on a bad checksum,
TRANSPORT with the transport's code on an `Err`. -/
def Obligations.MeasurementFollowsItsRule : Prop :=
  ∀ (s : State) (i : Instr) (cmd : Byte) (kind : MeasKind), s.req = none → s.delay = none →
    (i = .measT ∧ cmd = 0xE3 ∧ kind = .temperature) ∨ (i = .measRh ∧ cmd = 0xE5 ∧ kind = .humidity) →
    let ended := fun (e : ErrCode) (x : BitVec 2) =>
      (⟨false, true, e, s.status.ovr, x⟩ : Status)
    (s.fsm = .idle → exec i s = .next
      { s with fsm := .measW, arrival := none, req := some ⟨.write, Config.devAddr, [cmd], 0⟩ }) ∧
    (s.fsm = .measW → s.arrival = some (.response (.ok [])) → exec i s = .next
      { s with fsm := .measR, arrival := none, req := some ⟨.read, Config.devAddr, [], 3⟩ }) ∧
    (∀ d0 d1 c : Byte, s.fsm = .measR → s.arrival = some (.response (.ok [d0, d1, c])) → crc8 [d0, d1] = c →
      exec i s = .next
        { s with
          fsm := .idle, arrival := none, status := ended .none 0
          rawh := d0, rawl := d1 &&& 0xFC, mstat := ⟨kind, d1.extractLsb' 0 2⟩, mcrc := c
          valid := { s.valid with measV := true } }) ∧
    (∀ d0 d1 c : Byte, s.fsm = .measR → s.arrival = some (.response (.ok [d0, d1, c])) → crc8 [d0, d1] ≠ c →
      exec i s = .next { s with fsm := .idle, arrival := none, status := ended .integrity 0 }) ∧
    (∀ code : BitVec 2, s.fsm = .measW ∨ s.fsm = .measR → s.arrival = some (.response (.err code)) →
      exec i s = .next { s with fsm := .idle, arrival := none, status := ended .transport code })

/-- R160, R161: READ_CFG and READ_EOB read the configuration byte with one WriteRead and publish it, or end with
TRANSPORT; the end-of-battery flag is bit 6 of CFG_RD and bit 4 of CFG_FIELDS. -/
def Obligations.ConfigurationReadFollowsItsRule : Prop :=
  ∀ (s : State) (i : Instr), s.req = none → s.delay = none → (i = .readCfg ∨ i = .readEob) →
    (s.fsm = .idle → exec i s = .next
      { s with fsm := .cfgrW, arrival := none, req := some ⟨.writeRead, Config.devAddr, [0xE7], 1⟩ }) ∧
    (∀ b : Byte, s.fsm = .cfgrW → s.arrival = some (.response (.ok [b])) →
      exec i s = .next
        { s with
          fsm := .idle, arrival := none, cfgRd := b, valid := { s.valid with cfgrdV := true }
          status := ⟨false, true, .none, s.status.ovr, 0⟩ } ∧
      (fieldview b).getLsbD 4 = b.getLsbD 6) ∧
    (∀ code : BitVec 2, s.fsm = .cfgrW → s.arrival = some (.response (.err code)) →
      exec i s = .next
        { s with fsm := .idle, arrival := none, status := ⟨false, true, .transport, s.status.ovr, code⟩ })

/-- R162: WRITE_CFG writes ARGL unchanged, and publishes it on `Ok`, or ends with TRANSPORT. -/
def Obligations.ConfigurationWriteFollowsItsRule : Prop :=
  ∀ s : State, s.req = none → s.delay = none →
    (s.fsm = .idle → exec .writeCfg s = .next
      { s with fsm := .cfgwW, arrival := none, req := some ⟨.write, Config.devAddr, [0xE6, s.argl], 0⟩ }) ∧
    (s.fsm = .cfgwW → s.arrival = some (.response (.ok [])) → exec .writeCfg s = .next
      { s with
        fsm := .idle, arrival := none, cfgWr := s.argl, valid := { s.valid with cfgwrV := true }
        status := ⟨false, true, .none, s.status.ovr, 0⟩ }) ∧
    (∀ code : BitVec 2, s.fsm = .cfgwW → s.arrival = some (.response (.err code)) → exec .writeCfg s = .next
      { s with fsm := .idle, arrival := none, status := ⟨false, true, .transport, s.status.ovr, code⟩ })

/-- The pseudocode of R163 and R164: HEATER_ON and HEATER_OFF read the byte, write it back with bit 2 set or cleared
and every other bit kept, and publish both bytes on success; an `Err` of either transaction ends with TRANSPORT and
publishes neither. -/
def Obligations.HeaterFollowsItsRule : Prop :=
  ∀ (s : State) (i : Instr) (change : Byte → Byte), s.req = none → s.delay = none →
    (i = .heaterOn ∧ change = fun b => b ||| 0x04) ∨ (i = .heaterOff ∧ change = fun b => b &&& 0xFB) →
    (s.fsm = .idle → exec i s = .next
      { s with fsm := .cfgrW, arrival := none, req := some ⟨.writeRead, Config.devAddr, [0xE7], 1⟩ }) ∧
    (∀ b : Byte, s.fsm = .cfgrW → s.arrival = some (.response (.ok [b])) → exec i s = .next
      { s with fsm := .cfgwW, arrival := none, tb := b, req := some ⟨.write, Config.devAddr, [0xE6, change b], 0⟩ }) ∧
    (s.fsm = .cfgwW → s.arrival = some (.response (.ok [])) → exec i s = .next
      { s with
        fsm := .idle, arrival := none, cfgRd := s.tb, cfgWr := change s.tb
        valid := { measV := s.valid.measV, cfgrdV := true, cfgwrV := true }
        status := ⟨false, true, .none, s.status.ovr, 0⟩ }) ∧
    (∀ code : BitVec 2, s.fsm = .cfgrW ∨ s.fsm = .cfgwW → s.arrival = some (.response (.err code)) → exec i s = .next
      { s with fsm := .idle, arrival := none, status := ⟨false, true, .transport, s.status.ovr, code⟩ })

/-! ### Wire commands -/

/-- The transactions of R100, for a command sent while nothing is outstanding: from any sequencer state but MEAS_W for
the first one, and, for the measurement commands, from MEAS_W with the Write's `Ok` for the second. R100 gives the
transactions; that a wire command by itself issues its request and sets FSM, from any sequencer state, those in which
the block never sends it among them, is the model's choice (log 4). -/
def Obligations.WireCommandsSendTheirTransactions : Prop :=
  ∀ s : State, s.req = none → s.delay = none →
    exec .cmdSoftReset s = .next
      { s with fsm := .rstW, arrival := none, req := some ⟨.write, Config.devAddr, [0xFE], 0⟩ } ∧
    (s.fsm ≠ .measW → exec .cmdMeasTHold s = .next
      { s with fsm := .measW, arrival := none, req := some ⟨.write, Config.devAddr, [0xE3], 0⟩ }) ∧
    (s.fsm ≠ .measW → exec .cmdMeasRhHold s = .next
      { s with fsm := .measW, arrival := none, req := some ⟨.write, Config.devAddr, [0xE5], 0⟩ }) ∧
    (∀ bytes, s.fsm = .measW → s.arrival = some (.response (.ok bytes)) →
      exec .cmdMeasTHold s = .next
        { s with fsm := .measR, arrival := none, req := some ⟨.read, Config.devAddr, [], 3⟩ } ∧
      exec .cmdMeasRhHold s = .next
        { s with fsm := .measR, arrival := none, req := some ⟨.read, Config.devAddr, [], 3⟩ }) ∧
    (∀ b : Byte, exec (.cmdWriteCfg b) s = .next
      { s with fsm := .cfgwW, arrival := none, req := some ⟨.write, Config.devAddr, [0xE6, b], 0⟩ }) ∧
    exec .cmdReadCfg s = .next
      { s with fsm := .cfgrW, arrival := none, req := some ⟨.writeRead, Config.devAddr, [0xE7], 1⟩ }

/-- While a request or a delay is outstanding no wire command sends anything (10_state.md R23, at most one request
outstanding; that such a command then has no effect is the model's choice, log 4). -/
def Obligations.NothingIsSentWhileOneIsOutstanding : Prop :=
  ∀ (s : State) (i : Instr), s.req ≠ none ∨ s.delay ≠ none →
    (i = .cmdSoftReset ∨ i = .cmdMeasTHold ∨ i = .cmdMeasRhHold ∨ (∃ b, i = .cmdWriteCfg b) ∨ i = .cmdReadCfg) →
    exec i s = .next s

/-! ### The step -/

/-- A step on a host access is exec of the instruction its word decodes to, with the event taken. -/
def Obligations.StepRunsTheDecodedAccess : Prop :=
  ∀ (s : State) (w : AccessWord) (rest : List Input), s.inbox = .access w :: rest →
    step s = exec (decodeAccess s.status.busy w) { s with inbox := rest, hRdata := none }

/-- A step on an answer to what is outstanding is exec of the operation OPL names, with the request ended and the answer
presented to its await (10_state.md R23, R46, R47). That OPL selects it, in every state, is the model's reading (log 3,
DEDUCED): R166 selects by FSM alone where only one procedure has the state. -/
def Obligations.StepResumesTheOperationOplNames : Prop :=
  ∀ (s : State) (rest : List Input),
    (∀ (r : Response) (q : Request), s.inbox = .response r :: rest → s.req = some q → q.accepts r = true →
      step s = exec (decodeOp s.opl)
        { s with inbox := rest, hRdata := none, req := none, arrival := some (.response r) }) ∧
    (∀ d : DelayRequest, s.inbox = .delayDone :: rest → s.fsm = .rstD → s.delay = some d → d.since + d.ms ≤ s.nowMs →
      step s = exec (decodeOp s.opl) { s with inbox := rest, hRdata := none, delay := none, arrival := some .delayDone })

/-! ### Reset -/

/-- R50, but for the three latches it leaves unspecified (log 8): after block reset every host register reads 0x00,
FSM is IDLE, nothing is outstanding and `irq` is 0. -/
def Obligations.ResetStateIsQuiet : Prop :=
  (∀ r : Reg, State.reset.readReg r = 0x00) ∧ State.reset.fsm = .idle ∧ State.reset.req = none ∧
  State.reset.delay = none ∧ State.reset.irq = false

/-- R245, R234: block reset in any state, during an operation too, abandons what is outstanding without a completion and
leaves every register as R50 says; in the next event a CMD write is accepted. -/
def Obligations.BlockResetAbandonsEverything : Prop :=
  ∀ (s : State) (rest : List Input), s.inbox = .blockReset :: rest →
    ∃ t, step s = .next t ∧ (∀ r : Reg, t.readReg r = 0x00) ∧ t.fsm = .idle ∧ t.req = none ∧ t.delay = none ∧
      t.irq = false ∧ t.inbox = rest ∧
      (∀ (v : Byte) (rest' : List Input), rest = .access (wrWord .cmd v) :: rest' →
        ∃ u, step t = .next u ∧ u.cmd = v ∧ u.status.ovr = false)

/-- R251: the boot order, from any state, ends idle with the sensor's own configuration byte in CFG_RD, whatever the
soft reset's Write was answered. -/
def Obligations.BootLeavesTheSensorsConfiguration : Prop :=
  ∀ (s : State) (irq : Bool) (resetAnswer : Response) (b : Byte) (settle : Nat) (rest : List Input),
    (resetAnswer = .ok [] ∨ ∃ code, resetAnswer = .err code) → 15 ≤ settle →
    s.inbox = bootInputs irq resetAnswer (.ok [b]) settle ++ rest →
    ∃ t, core.run 9 s = .next t ∧ t.inbox = rest ∧ t.fsm = .idle ∧ t.cfgRd = b ∧
      t.valid = { measV := false, cfgrdV := true, cfgwrV := false } ∧
      t.status = { busy := false, done := true, err := .none, ovr := false, txerr := 0 } ∧ t.irq = irq

/-! ### Invariants -/

/-- The three invariants hold after block reset. -/
def Obligations.InvariantsHoldAtReset : Prop :=
  SequencerInv State.reset ∧ StatusInv State.reset ∧ SampleInv State.reset

/-- Every step keeps BUSY, the outstanding requests, OPL and CMD in agreement with FSM (R27, R45, R46, R166). -/
def Obligations.StepKeepsSequencerInv : Prop :=
  ∀ s t : State, SequencerInv s → step s = .next t → SequencerInv t

/-- Every step keeps STATUS in order: no outcome while BUSY, TXERR only for TRANSPORT, DECODE never (R28, R188, R224).
-/
def Obligations.StepKeepsStatusInv : Prop :=
  ∀ s t : State, StatusInv s → step s = .next t → StatusInv t

/-- Every step keeps the measurement registers one intact sample or none (R32, R34, R44, R197). -/
def Obligations.StepKeepsSampleInv : Prop :=
  ∀ s t : State, SampleInv s → step s = .next t → SampleInv t

/-! ### Whole-machine rules -/

/-- From R44: but for block reset, a result register changes only in the event that completes an operation, and only
when that completion's ERR is NONE. -/
def Obligations.ResultsChangeOnlyInASuccessfulCompletion : Prop :=
  ∀ s t : State, SequencerInv s → step s = .next t → s.inbox.head? ≠ some .blockReset → t.results ≠ s.results →
    s.fsm ≠ .idle ∧ t.fsm = .idle ∧ t.status.done = true ∧ t.status.err = .none

/-- No torn sample (20_memory.md R76, 70_reset_and_hazards.md R255): but for block reset, the four measurement registers
change only together, in the event of an intact Read response, and then hold that response and its operation's kind. -/
def Obligations.SampleChangesAsOne : Prop :=
  ∀ s t : State, SequencerInv s → step s = .next t → s.inbox.head? ≠ some .blockReset → t.sample ≠ s.sample →
    ∃ d0 d1 c : Byte, s.inbox.head? = some (.response (.ok [d0, d1, c])) ∧ s.fsm = .measR ∧ crc8 [d0, d1] = c ∧
      t.sample =
        (d0, d1 &&& 0xFC, ⟨if s.opl = 0x03 then .humidity else .temperature, d1.extractLsb' 0 2⟩, c)

/-- R254, over a run (`past` are the states before, the last one first): the event that ends an operation gives a meaning
to exactly the result registers of that operation, and only with ERR = NONE; after an error none has one, and the values
are those from before. While an operation is in progress, from its acceptance on, every register has the meaning it had
before. The registers that are no results never have one. (The most recent completion is read from the last idle state,
log 26.) -/
def Obligations.ResultsAreMeaningfulAfterTheirOperationOnly : Prop :=
  (∀ (s t : State) (past : List State), SequencerInv s → s.fsm ≠ .idle → step s = .next t → t.fsm = .idle →
    s.inbox.head? ≠ some .blockReset →
    let meaningful := fun r => t.resultMeaningful r (lastCompletion? (t :: s :: past))
    (∀ r ∈ ([.rawh, .rawl, .mstat, .mcrc] : List Reg),
      meaningful r = true ↔ t.status.err = .none ∧ s.opl ∈ ([0x02, 0x03] : List Byte)) ∧
    (∀ r ∈ ([.cfgRd, .cfgFields] : List Reg),
      meaningful r = true ↔ t.status.err = .none ∧ s.opl ∈ ([0x04, 0x08, 0x06, 0x07] : List Byte)) ∧
    (meaningful .cfgWr = true ↔ t.status.err = .none ∧ s.opl ∈ ([0x05, 0x06, 0x07] : List Byte)) ∧
    (t.status.err ≠ .none → t.results = s.results ∧ ∀ r : Reg, meaningful r = false)) ∧
  (∀ (s t : State) (past : List State) (r : Reg), SequencerInv s → step s = .next t → t.status.busy = true →
    t.resultMeaningful r (lastCompletion? (t :: s :: past)) = s.resultMeaningful r (lastCompletion? (s :: past))) ∧
  (∀ (s : State) (past : List State) (r : Reg), s.status.busy = false → s.status.err ≠ .none →
    s.resultMeaningful r (lastCompletion? (s :: past)) = false) ∧
  (∀ (s : State) (last : Option Completion) (r : Reg), s.resultMeaningful r last = true →
    r ∈ ([.rawh, .rawl, .mstat, .mcrc, .cfgRd, .cfgFields, .cfgWr] : List Reg)) ∧
  (∀ (last : Option Completion) (r : Reg), State.reset.resultMeaningful r last = false)

/-- R259, R267: an operation in progress needs at most two answers, every answer to what is outstanding brings it
nearer to its end, and at its end the block shows DONE. -/
def Obligations.EveryAnswerBringsCompletionNearer : Prop :=
  ∀ (s : State) (e : Input) (rest : List Input), SequencerInv s → s.fsm ≠ .idle → s.inbox = e :: rest → Answers s e →
    1 ≤ answersLeft s ∧ answersLeft s ≤ 2 ∧
    ∃ t, step s = .next t ∧ answersLeft t < answersLeft s ∧
      (t.fsm = .idle → t.status.done = true ∧ t.status.busy = false ∧ t.req = none ∧ t.delay = none)

/-- Only an answer to what is outstanding, or block reset, moves an operation in progress: no host access, stray
answer or passing of time does, and none reaches its latches (10_state.md R30, R47, 43_host_access.md R186, R253). -/
def Obligations.OnlyAnswersAndResetMoveTheSequencer : Prop :=
  ∀ s t : State, SequencerInv s → s.fsm ≠ .idle → step s = .next t → s.inbox.head? ≠ some .blockReset →
    (∀ e, s.inbox.head? = some e → ¬ Answers s e) →
    t.fsm = s.fsm ∧ t.req = s.req ∧ t.delay = s.delay ∧ t.opl = s.opl ∧ t.argl = s.argl ∧ t.tb = s.tb ∧
    t.cmd = s.cmd ∧ t.results = s.results ∧ t.status.busy = true

/-- R252: a response with no request outstanding, a `delay_done` outside RST_D, and a second response to a request
(which the model tells apart as an input of its own and ignores, log 11) change nothing. -/
def Obligations.StrayAnswersChangeNothing : Prop :=
  ∀ (s : State) (rest : List Input),
    (∀ r, s.inbox = .response r :: rest → s.req = none → step s = .next { s with inbox := rest, hRdata := none }) ∧
    (s.inbox = .delayDone :: rest → s.fsm ≠ .rstD → step s = .next { s with inbox := rest, hRdata := none }) ∧
    (∀ r, s.inbox = .secondResponse r :: rest → step s = .next { s with inbox := rest, hRdata := none })

/-- R257, R262: in the reset delay the block stays where it is, whatever the host does, until block reset or a
`delay_done` no sooner than 15 ms after the request. -/
def Obligations.SoftResetHoldsForTheSettleTime : Prop :=
  ∀ s t : State, SequencerInv s → s.fsm = .rstD → step s = .next t →
    (t.fsm = .rstD ∧ t.delay = s.delay ∧ t.req = none ∧ t.status.busy = true) ∨
    s.inbox.head? = some .blockReset ∨
    (s.inbox.head? = some .delayDone ∧ (∃ d, s.delay = some d ∧ d.since + 15 ≤ s.nowMs) ∧ t.fsm = .idle ∧
      t.status.done = true ∧ t.status.err = .none)

/-- From R46: in IDLE the values of OPL, ARGL and TB affect nothing that follows: runs of any length from two states
that differ in them only stay alike but for the latches themselves. -/
def Obligations.LatchesInIdleDoNotMatter : Prop :=
  ∀ (s : State) (opl argl tb : Byte) (n : Nat), SequencerInv s → s.fsm = .idle →
    mapNext (fun t => t.withLatches 0 0 0) (core.run n (s.withLatches opl argl tb)) =
    mapNext (fun t => t.withLatches 0 0 0) (core.run n s)

/-- R148: the validator and the host CRC unit are independent: what an event other than a host access does does not
depend on CRC_ACC, and, but for block reset, does not change it. -/
def Obligations.ValidatorIgnoresTheHostCrcUnit : Prop :=
  ∀ (s : State) (e : Input) (rest : List Input), s.inbox = e :: rest → (∀ w, e ≠ .access w) →
    (∀ v : Byte, mapNext (fun t => t.withCrcAcc 0) (step (s.withCrcAcc v)) =
      mapNext (fun t => t.withCrcAcc 0) (step s)) ∧
    (e ≠ .blockReset → ∀ t, step s = .next t → t.crcAcc = s.crcAcc)

/-- From R71: the sequencer never writes CMD, IRQEN, ARG, CRC_ACC or CODEC_BYTE: but for block reset, only a host
access does. -/
def Obligations.SequencerNeverWritesHostRegisters : Prop :=
  ∀ (s t : State) (e : Input) (rest : List Input), s.inbox = e :: rest → (∀ w, e ≠ .access w) → e ≠ .blockReset →
    step s = .next t → t.hostOwned = s.hostOwned

/-- R22, R82, R225: every host access, of any of the 2^13 words, completes in its event, in every state in order. R22
has `h_rdata` driven by a read; that a write drives nothing is the model's choice (log 9). -/
def Obligations.EveryHostAccessCompletes : Prop :=
  ∀ (s : State) (w : AccessWord) (rest : List Input), SequencerInv s → s.inbox = .access w :: rest →
    ∃ t, step s = .next t ∧ t.inbox = rest ∧ (t.hRdata = none ↔ accessWe w = true)

/-- In a state in order, a step is refused only where the model chose to refuse (logs 12, 13, 14), where the
environment breaks its contract: an `Ok` of the wrong length (R23), a `delay_done` before its time (R24), an abandoned
request's answer while a later one is outstanding (R246). -/
def Obligations.OnlyContractBreachesAreRefused : Prop :=
  ∀ (s : State) (why : Refusal), SequencerInv s → step s = .refused why →
    (why = .responseShape ∧ ∃ q bytes, s.req = some q ∧ s.inbox.head? = some (.response (.ok bytes)) ∧
      bytes.length ≠ q.rlen) ∨
    (why = .earlyDelayDone ∧ s.inbox.head? = some .delayDone ∧ ∃ d, s.delay = some d ∧ s.nowMs < d.since + d.ms) ∨
    (why = .abandonedAnswer ∧ ((∃ r, s.inbox.head? = some (.lateResponse r) ∧ s.req ≠ none) ∨
      (s.inbox.head? = some .lateDelayDone ∧ s.delay ≠ none)))

/-- Every transaction goes to DEV_ADDR and is one of the five frames of R100 with its response length, or the sample's
Read (20_memory.md R72, R78, 30_encoding.md R101, R103, R106). -/
def Obligations.OnlyTheFiveCommandsGoOut : Prop :=
  ∀ (s t : State) (q : Request), SequencerInv s → step s = .next t → t.req = some q →
    q.addr = Config.devAddr ∧
    ((q.kind = .write ∧ q.rlen = 0 ∧
        (q.wbytes = [0xFE] ∨ q.wbytes = [0xE3] ∨ q.wbytes = [0xE5] ∨ ∃ b, q.wbytes = [0xE6, b])) ∨
      (q.kind = .read ∧ q.rlen = 3 ∧ q.wbytes = []) ∨ (q.kind = .writeRead ∧ q.rlen = 1 ∧ q.wbytes = [0xE7]))

/-- R223, R229: the interrupt rises only with a completion (an operation's last answer, or the acceptance of a reserved
CMD byte) or when the host enables it while DONE is pending; a rejected CMD write does not raise it. -/
def Obligations.InterruptRisesOnlyWithACompletionOrAnEnable : Prop :=
  ∀ s t : State, SequencerInv s → step s = .next t → s.irq = false → t.irq = true →
    (s.fsm ≠ .idle ∧ t.fsm = .idle ∧ t.status.done = true) ∨
    ∃ w, s.inbox.head? = some (.access w) ∧ accessWe w = true ∧
      ((Reg.ofAddr (accessAddr w) = .cmd ∧ reservedOpByte (accessData w) = true ∧ s.status.busy = false) ∨
        (Reg.ofAddr (accessAddr w) = .irqen ∧ (accessData w).getLsbD 0 = true ∧ s.status.done = true))

/-- R233, as interleavings with the host's access first (log 17): beside a completion, a write of 1 to DONE leaves
DONE = 1, a CMD write is rejected with OVR set and the operation still completes, and a read returns the value from
before. -/
def Obligations.SameCycleAccessComesFirst : Prop :=
  ∀ (s : State) (e : Input) (rest : List Input), SequencerInv s → s.fsm ≠ .idle → Answers s e →
    (∀ v : Byte, s.inbox = .access (wrWord .status v) :: e :: rest →
      ∃ t, core.run 2 s = .next t ∧ (t.fsm = .idle → t.status.done = true)) ∧
    (∀ v : Byte, s.inbox = .access (wrWord .cmd v) :: e :: rest →
      ∃ t, core.run 2 s = .next t ∧ t.status.ovr = true ∧ t.cmd = s.cmd ∧ answersLeft t < answersLeft s ∧
        (t.fsm = .idle → t.status.done = true)) ∧
    (∀ r : Reg, s.inbox = .access (rdWord r) :: e :: rest →
      ∃ t u, step s = .next t ∧ t.hRdata = some (s.readReg r) ∧ step t = .next u ∧ answersLeft u < answersLeft s)

/-! ### Whole operations and the host's side -/

/-- R151: the `crc` pseudo-instruction, in any state and beside any operation, ends with `crc8` of its bytes on
`h_rdata`; without a word between its accesses it changes nothing else, and with any events between them but block
reset (R50 clears CRC_ACC) and host writes to CRC_ACC and CRC_DIN, it ends so whenever they happen at all (an answer
outside the environment's contract is refused). -/
def Obligations.HostChecksumIsCrcEight : Prop :=
  (∀ (s : State) (bytes : List Byte) (rest : List Input), s.inbox = (AsmLine.crc bytes).inputs ++ rest →
    core.run (bytes.length + 2) s =
      .next { s with inbox := rest, crcAcc := crc8 bytes, hRdata := some (crc8 bytes) }) ∧
  (∀ (s t : State) (gap : List Input) (fed : List (Byte × List Input)) (rest : List Input),
    s.inbox = crcWithGaps gap fed ++ rest → (∀ e ∈ gap, leavesCrcUnit e) → (∀ p ∈ fed, ∀ e ∈ p.2, leavesCrcUnit e) →
    core.run (crcWithGaps gap fed).length s = .next t →
    t.inbox = rest ∧ t.hRdata = some (crc8 (fed.map Prod.fst)) ∧ t.crcAcc = crc8 (fed.map Prod.fst))

/-- R108: each pseudo-instruction stands for the accesses listed, written out as words, and `wait` repeats its read of
STATUS until it reads BUSY = 0: where it ends, BUSY reads 0; an idle block ends it at its first read, which changes
nothing else; a busy one, with no event beside the read, does not end it, and with no event to come never does; and each
answer to what is outstanding ends it or brings its end nearer (R259). (The host runs beside the environment in turns,
log 27.) -/
def Obligations.PseudoInstructionsAndTheWaitLoop : Prop :=
  (∀ op : HostOp, ∃ code : Byte, (AsmLine.op op).words = [0x1000 ||| code.setWidth 13] ∧ decodeOp code = op.instr) ∧
  (∀ v : Byte, (AsmLine.opWriteCfg v).words = [0x1300 ||| v.setWidth 13, 0x1005]) ∧
  AsmLine.ack.words = [0x1102] ∧ AsmLine.clrovr.words = [0x1120] ∧
  (∀ bytes : List Byte, (AsmLine.crc bytes).words =
    0x1B00 :: (bytes.map (fun b => 0x1C00 ||| b.setWidth 13) ++ [0x0B00])) ∧
  (∀ v : Byte, (AsmLine.fields v).words = [0x1E00 ||| v.setWidth 13]) ∧
  (∀ (s t : State) (turns left : List (List Input)), AsmLine.wait.run turns s = .done t left →
    t.status.busy = false ∧ ∃ v, t.hRdata = some v ∧ v.getLsbD 0 = false) ∧
  (∀ (s : State) (turns : List (List Input)), s.status.busy = false →
    AsmLine.wait.run ([] :: turns) s = .done { s with hRdata := some (s.readReg .status) } turns) ∧
  (∀ (s : State) (turns : List (List Input)), s.status.busy = true →
    AsmLine.wait.run ([] :: turns) s = AsmLine.wait.run turns { s with hRdata := some (s.readReg .status) } ∧
    AsmLine.wait.run [] s = .waiting { s with hRdata := some (s.readReg .status) }) ∧
  (∀ (s : State) (e : Input) (turns : List (List Input)), SequencerInv s → s.fsm ≠ .idle → Answers s e →
    ∃ t, SequencerInv t ∧ answersLeft t < answersLeft s ∧
      AsmLine.wait.run ([e] :: turns) s = if t.fsm = .idle then .done t turns else AsmLine.wait.run turns t)

/-- R30, R256: an operation's operand is ARG at acceptance: a later write to ARG changes neither the frame sent nor
what is published. -/
def Obligations.WriteCfgSendsArgAsAccepted : Prop :=
  ∀ (s : State) (a later : Byte) (rest : List Input), SequencerInv s → s.fsm = .idle →
    s.inbox = (AsmLine.opWriteCfg a).inputs ++ .access (wrWord .arg later) :: .response (.ok []) :: rest →
    (∃ u, core.run 3 s = .next u ∧ u.arg = later ∧ u.req = some ⟨.write, Config.devAddr, [0xE6, a], 0⟩) ∧
    ∃ t, core.run 4 s = .next t ∧ t.arg = later ∧ t.cfgWr = a ∧ t.valid.cfgwrV = true ∧ t.status.err = .none

/-- A temperature measurement from the CMD write to the host's conversion: an intact response gives the formula of
R215 at the masked count, a corrupt one gives the host no value at all (R156, R157, R215, R219, R254). -/
def Obligations.MeasuredTemperatureIsTheFormulaOrNothing : Prop :=
  ∀ (s : State) (d0 d1 c : Byte) (rest : List Input), SequencerInv s → s.fsm = .idle →
    s.inbox = (AsmLine.op .measT).inputs ++ .response (.ok []) :: .response (.ok [d0, d1, c]) :: rest →
    ∃ t, core.run 3 s = .next t ∧ t.inbox = rest ∧ t.hostHumidity? t.shownCompletion? = none ∧
      t.hostTemperature? t.shownCompletion? =
        if crc8 [d0, d1] = c then
          some (-(4685 / 100) + (17572 / 100) * ((d0.toNat * 256 + (d1.toNat - d1.toNat % 4) : ℕ) : ℚ) / 65536)
        else none

/-- R217, with the formulas and exact values of R215 and R216: both conversions are strictly increasing, with the rules'
steps between masked counts. -/
def Obligations.ConversionsAreIncreasingAndExact : Prop :=
  (∀ raw : ℕ, temperatureOf raw = -(4685 / 100) + (17572 / 100) * (raw : ℚ) / 65536) ∧
  (∀ raw : ℕ, humidityOf raw = -6 + 125 * (raw : ℚ) / 65536) ∧
  StrictMono temperatureOf ∧ StrictMono humidityOf ∧
  (∀ raw : ℕ, temperatureOf (raw + 4) - temperatureOf raw = 4 * (17572 / 100) / 65536) ∧
  (∀ raw : ℕ, humidityOf (raw + 4) - humidityOf raw = 4 * 125 / 65536) ∧
  temperatureOf 0 = -(4685 / 100) ∧ temperatureOf 0x6838 = 202231 / 8192 ∧
  temperatureOf 0xFFFC = 52780759 / 409600 ∧ humidityOf 0 = -6 ∧ humidityOf 0x7C80 = 28053 / 512 ∧
  humidityOf 0xFFFC = 1949571 / 16384

/-- R218, with R12: the reference value is the exact rational: the written order of each formula, and every evaluation
order a host may have, gives the reference in exact arithmetic. Whatever the host's number type and evaluation orders, it
reports a value exactly where the reference has one, and the written order is evaluated operation by operation. That
`CONV_NUM` is a type of fixed-width words with expressions of additions, multiplications and divisions is the model's
choice (log 24). Nothing is said of how far a host's own value lies from the reference: its type may round in any way. -/
def Obligations.ConversionInExactArithmeticIsTheReference : Prop :=
  IsOrderOf temperatureExpr temperatureOf ∧ IsOrderOf humidityExpr humidityOf ∧
  (∀ (α : Type) (n : NumType α) (raw : ℕ),
    evalConv n raw temperatureExpr =
      n.add (n.lit (-(4685 / 100))) (n.div (n.mul (n.lit (17572 / 100)) (n.lit raw)) (n.lit 65536)) ∧
    evalConv n raw humidityExpr = n.add (n.lit (-6)) (n.div (n.mul (n.lit 125) (n.lit raw)) (n.lit 65536))) ∧
  (∀ (c : ConvNum) (last : Option Completion) (s : State),
    (s.temperatureIn c last).isSome = (s.hostTemperature? last).isSome ∧
    (s.humidityIn c last).isSome = (s.hostHumidity? last).isSome ∧
    (s.countOf? .temperature last).bind (evalConv exactNum · c.temperature) = s.hostTemperature? last ∧
    (s.countOf? .humidity last).bind (evalConv exactNum · c.humidity) = s.hostHumidity? last)
end

