-- ==== Sys2Proof/Laws/Codec.lean ====
section
/-! SUPPORT. Laws of the codec (spec/40_codec.md) that proofs about operations cite. -/

namespace Sys2Proof.Machine

/-- Inside `cfg_decode` the selector is always one of the four (R122, R124). -/
theorem resDecode_masked (b : Byte) : ∃ r, resDecode (b &&& 0x81) = some r := by
  have all : ∀ b : Byte, (resDecode (b &&& 0x81)).isSome = true := by decide
  exact Option.isSome_iff_exists.mp (all b)

/-- `cfg_decode` never raises (R126): it gives the fields that `fieldsOf` names. -/
theorem cfgDecode_eq (b : Byte) : cfgDecode b = some (fieldsOf b) := by
  obtain ⟨r, h⟩ := resDecode_masked b
  cases hc : cfgDecode b with
  | none => rw [cfgDecode, h] at hc; cases hc
  | some f => rw [fieldsOf, hc]

/-- Re-encoding the decoded byte with another heater bit, one bit at a time. -/
theorem setHeater_eq (b : Byte) (h : BitVec 1) : setHeater b h = if h = 1 then b ||| 0x04 else b &&& 0xFB := by
  revert b h
  decide

/-- WRITE_CFG's payload "equals ARGL" (42_framer_ops.md R162). -/
@[simp] theorem writePayload_eq (argl : Byte) : writePayload argl = argl := by
  revert argl
  decide

end Sys2Proof.Machine
end

