-- ==== Sys2Proof/Laws/Decode.lean ====
section
/-! SUPPORT. Small laws of the encodings: the fields of an access word, register addresses, operation codes. -/

namespace Sys2Proof

@[simp] theorem accessWe_accessWord (we : Bool) (r : Reg) (d : Byte) : accessWe (accessWord we r d) = we := by
  simp only [accessWe, accessWord]
  rw [BitVec.append_assoc, BitVec.getLsbD_cast, BitVec.getLsbD_append]
  cases we <;> simp

@[simp] theorem accessAddr_accessWord (we : Bool) (r : Reg) (d : Byte) : accessAddr (accessWord we r d) = r.addr := by
  ext i hi
  simp only [accessAddr, accessWord, BitVec.getElem_extractLsb']
  rw [BitVec.getLsbD_append, if_neg (by omega), BitVec.getLsbD_append, if_pos (by omega)]
  rw [show 8 + i - 8 = i by omega, BitVec.getLsbD_eq_getElem hi]

@[simp] theorem accessData_accessWord (we : Bool) (r : Reg) (d : Byte) : accessData (accessWord we r d) = d := by
  ext i hi
  simp only [accessData, accessWord, BitVec.getElem_extractLsb']
  rw [BitVec.getLsbD_append, if_pos (by omega)]
  rw [show 0 + i = i by omega, BitVec.getLsbD_eq_getElem hi]

@[simp] theorem Reg.ofAddr_addr (r : Reg) : Reg.ofAddr r.addr = r := by cases r <;> rfl

@[simp] theorem Reg.addr_ofAddr (a : RegAddr) : (Reg.ofAddr a).addr = a := by revert a; decide

theorem accessWord_fields (w : AccessWord) :
    accessWord (accessWe w) (Reg.ofAddr (accessAddr w)) (accessData w) = w := by
  ext i hi
  rw [← BitVec.getLsbD_eq_getElem hi, ← BitVec.getLsbD_eq_getElem hi]
  simp only [accessWord, accessWe, accessAddr, accessData, Reg.addr_ofAddr]
  rw [BitVec.getLsbD_append]
  split
  · simp; omega
  · rw [BitVec.getLsbD_append]
    split
    · rename_i h1 h2; simp [h2]; congr 1; omega
    · have : i = 12 := by omega
      subst this; simp

@[simp] theorem decodeAccess_read (busy : Bool) (r : Reg) (d : Byte) :
    decodeAccess busy (accessWord false r d) = readOf r d := by
  simp [decodeAccess]

@[simp] theorem decodeAccess_write (busy : Bool) (r : Reg) (v : Byte) :
    decodeAccess busy (accessWord true r v) = writeOf busy r v := by
  simp [decodeAccess]

@[simp] theorem HostOp.ofByte_code (op : HostOp) : HostOp.ofByte? op.code = some op := by cases op <;> rfl

theorem HostOp.code_of_ofByte {b : Byte} {op : HostOp} (h : HostOp.ofByte? b = some op) : op.code = b := by
  have all : ∀ b : Byte, (HostOp.ofByte? b).all (fun op => op.code == b) = true := by decide
  simpa [h] using all b

/-- The reserved bytes of R95 are exactly those that name no operation (R93). -/
theorem reservedOpByte_iff (b : Byte) : reservedOpByte b = true ↔ HostOp.ofByte? b = none := by
  have : ∀ b : Byte, reservedOpByte b = (HostOp.ofByte? b).isNone := by decide
  rw [this, Option.isNone_iff_eq_none]

@[simp] theorem decodeOp_code (op : HostOp) : decodeOp op.code = op.instr := by simp [decodeOp]

theorem decodeOp_reserved {b : Byte} (h : reservedOpByte b = true) : decodeOp b = .illegal b := by
  simp [decodeOp, (reservedOpByte_iff b).mp h]

end Sys2Proof
end

