-- ==== Sys2Proof/Laws/State.lean ====
section
/-! SUPPORT. For each named update of the state, one lemma per field, true by rfl, so that no proof unfolds an update. -/

namespace Sys2Proof.Machine

variable (s : State)

/-! ### taking an event -/

@[simp] theorem takeEvent_cmd (rest : List Input) : (takeEvent rest s).cmd = s.cmd := rfl
@[simp] theorem takeEvent_status (rest : List Input) : (takeEvent rest s).status = s.status := rfl
@[simp] theorem takeEvent_doneIe (rest : List Input) : (takeEvent rest s).doneIe = s.doneIe := rfl
@[simp] theorem takeEvent_arg (rest : List Input) : (takeEvent rest s).arg = s.arg := rfl
@[simp] theorem takeEvent_rawh (rest : List Input) : (takeEvent rest s).rawh = s.rawh := rfl
@[simp] theorem takeEvent_rawl (rest : List Input) : (takeEvent rest s).rawl = s.rawl := rfl
@[simp] theorem takeEvent_mstat (rest : List Input) : (takeEvent rest s).mstat = s.mstat := rfl
@[simp] theorem takeEvent_mcrc (rest : List Input) : (takeEvent rest s).mcrc = s.mcrc := rfl
@[simp] theorem takeEvent_cfgRd (rest : List Input) : (takeEvent rest s).cfgRd = s.cfgRd := rfl
@[simp] theorem takeEvent_cfgWr (rest : List Input) : (takeEvent rest s).cfgWr = s.cfgWr := rfl
@[simp] theorem takeEvent_crcAcc (rest : List Input) : (takeEvent rest s).crcAcc = s.crcAcc := rfl
@[simp] theorem takeEvent_codecByte (rest : List Input) : (takeEvent rest s).codecByte = s.codecByte := rfl
@[simp] theorem takeEvent_valid (rest : List Input) : (takeEvent rest s).valid = s.valid := rfl
@[simp] theorem takeEvent_fsm (rest : List Input) : (takeEvent rest s).fsm = s.fsm := rfl
@[simp] theorem takeEvent_opl (rest : List Input) : (takeEvent rest s).opl = s.opl := rfl
@[simp] theorem takeEvent_argl (rest : List Input) : (takeEvent rest s).argl = s.argl := rfl
@[simp] theorem takeEvent_tb (rest : List Input) : (takeEvent rest s).tb = s.tb := rfl
@[simp] theorem takeEvent_req (rest : List Input) : (takeEvent rest s).req = s.req := rfl
@[simp] theorem takeEvent_delay (rest : List Input) : (takeEvent rest s).delay = s.delay := rfl
@[simp] theorem takeEvent_hRdata (rest : List Input) : (takeEvent rest s).hRdata = none := rfl
@[simp] theorem takeEvent_arrival (rest : List Input) : (takeEvent rest s).arrival = s.arrival := rfl
@[simp] theorem takeEvent_inbox (rest : List Input) : (takeEvent rest s).inbox = rest := rfl
@[simp] theorem takeEvent_nowMs (rest : List Input) : (takeEvent rest s).nowMs = s.nowMs := rfl

/-! ### a read -/

@[simp] theorem drive_cmd (r : Reg) : (drive r s).cmd = s.cmd := rfl
@[simp] theorem drive_status (r : Reg) : (drive r s).status = s.status := rfl
@[simp] theorem drive_doneIe (r : Reg) : (drive r s).doneIe = s.doneIe := rfl
@[simp] theorem drive_arg (r : Reg) : (drive r s).arg = s.arg := rfl
@[simp] theorem drive_rawh (r : Reg) : (drive r s).rawh = s.rawh := rfl
@[simp] theorem drive_rawl (r : Reg) : (drive r s).rawl = s.rawl := rfl
@[simp] theorem drive_mstat (r : Reg) : (drive r s).mstat = s.mstat := rfl
@[simp] theorem drive_mcrc (r : Reg) : (drive r s).mcrc = s.mcrc := rfl
@[simp] theorem drive_cfgRd (r : Reg) : (drive r s).cfgRd = s.cfgRd := rfl
@[simp] theorem drive_cfgWr (r : Reg) : (drive r s).cfgWr = s.cfgWr := rfl
@[simp] theorem drive_crcAcc (r : Reg) : (drive r s).crcAcc = s.crcAcc := rfl
@[simp] theorem drive_codecByte (r : Reg) : (drive r s).codecByte = s.codecByte := rfl
@[simp] theorem drive_valid (r : Reg) : (drive r s).valid = s.valid := rfl
@[simp] theorem drive_fsm (r : Reg) : (drive r s).fsm = s.fsm := rfl
@[simp] theorem drive_opl (r : Reg) : (drive r s).opl = s.opl := rfl
@[simp] theorem drive_argl (r : Reg) : (drive r s).argl = s.argl := rfl
@[simp] theorem drive_tb (r : Reg) : (drive r s).tb = s.tb := rfl
@[simp] theorem drive_req (r : Reg) : (drive r s).req = s.req := rfl
@[simp] theorem drive_delay (r : Reg) : (drive r s).delay = s.delay := rfl
@[simp] theorem drive_hRdata (r : Reg) : (drive r s).hRdata = some (s.readReg r) := rfl
@[simp] theorem drive_arrival (r : Reg) : (drive r s).arrival = s.arrival := rfl
@[simp] theorem drive_inbox (r : Reg) : (drive r s).inbox = s.inbox := rfl
@[simp] theorem drive_nowMs (r : Reg) : (drive r s).nowMs = s.nowMs := rfl

/-! ### issuing a transport request -/

@[simp] theorem issue_cmd (f : Fsm) (q : Request) : (issue f q s).cmd = s.cmd := rfl
@[simp] theorem issue_status (f : Fsm) (q : Request) : (issue f q s).status = s.status := rfl
@[simp] theorem issue_doneIe (f : Fsm) (q : Request) : (issue f q s).doneIe = s.doneIe := rfl
@[simp] theorem issue_arg (f : Fsm) (q : Request) : (issue f q s).arg = s.arg := rfl
@[simp] theorem issue_rawh (f : Fsm) (q : Request) : (issue f q s).rawh = s.rawh := rfl
@[simp] theorem issue_rawl (f : Fsm) (q : Request) : (issue f q s).rawl = s.rawl := rfl
@[simp] theorem issue_mstat (f : Fsm) (q : Request) : (issue f q s).mstat = s.mstat := rfl
@[simp] theorem issue_mcrc (f : Fsm) (q : Request) : (issue f q s).mcrc = s.mcrc := rfl
@[simp] theorem issue_cfgRd (f : Fsm) (q : Request) : (issue f q s).cfgRd = s.cfgRd := rfl
@[simp] theorem issue_cfgWr (f : Fsm) (q : Request) : (issue f q s).cfgWr = s.cfgWr := rfl
@[simp] theorem issue_crcAcc (f : Fsm) (q : Request) : (issue f q s).crcAcc = s.crcAcc := rfl
@[simp] theorem issue_codecByte (f : Fsm) (q : Request) : (issue f q s).codecByte = s.codecByte := rfl
@[simp] theorem issue_valid (f : Fsm) (q : Request) : (issue f q s).valid = s.valid := rfl
@[simp] theorem issue_fsm (f : Fsm) (q : Request) : (issue f q s).fsm = f := rfl
@[simp] theorem issue_opl (f : Fsm) (q : Request) : (issue f q s).opl = s.opl := rfl
@[simp] theorem issue_argl (f : Fsm) (q : Request) : (issue f q s).argl = s.argl := rfl
@[simp] theorem issue_tb (f : Fsm) (q : Request) : (issue f q s).tb = s.tb := rfl
@[simp] theorem issue_req (f : Fsm) (q : Request) : (issue f q s).req = some q := rfl
@[simp] theorem issue_delay (f : Fsm) (q : Request) : (issue f q s).delay = s.delay := rfl
@[simp] theorem issue_hRdata (f : Fsm) (q : Request) : (issue f q s).hRdata = s.hRdata := rfl
@[simp] theorem issue_arrival (f : Fsm) (q : Request) : (issue f q s).arrival = none := rfl
@[simp] theorem issue_inbox (f : Fsm) (q : Request) : (issue f q s).inbox = s.inbox := rfl
@[simp] theorem issue_nowMs (f : Fsm) (q : Request) : (issue f q s).nowMs = s.nowMs := rfl

/-! ### issuing the delay -/

@[simp] theorem issueDelay_cmd : (issueDelay s).cmd = s.cmd := rfl
@[simp] theorem issueDelay_status : (issueDelay s).status = s.status := rfl
@[simp] theorem issueDelay_doneIe : (issueDelay s).doneIe = s.doneIe := rfl
@[simp] theorem issueDelay_arg : (issueDelay s).arg = s.arg := rfl
@[simp] theorem issueDelay_rawh : (issueDelay s).rawh = s.rawh := rfl
@[simp] theorem issueDelay_rawl : (issueDelay s).rawl = s.rawl := rfl
@[simp] theorem issueDelay_mstat : (issueDelay s).mstat = s.mstat := rfl
@[simp] theorem issueDelay_mcrc : (issueDelay s).mcrc = s.mcrc := rfl
@[simp] theorem issueDelay_cfgRd : (issueDelay s).cfgRd = s.cfgRd := rfl
@[simp] theorem issueDelay_cfgWr : (issueDelay s).cfgWr = s.cfgWr := rfl
@[simp] theorem issueDelay_crcAcc : (issueDelay s).crcAcc = s.crcAcc := rfl
@[simp] theorem issueDelay_codecByte : (issueDelay s).codecByte = s.codecByte := rfl
@[simp] theorem issueDelay_valid : (issueDelay s).valid = s.valid := rfl
@[simp] theorem issueDelay_fsm : (issueDelay s).fsm = .rstD := rfl
@[simp] theorem issueDelay_opl : (issueDelay s).opl = s.opl := rfl
@[simp] theorem issueDelay_argl : (issueDelay s).argl = s.argl := rfl
@[simp] theorem issueDelay_tb : (issueDelay s).tb = s.tb := rfl
@[simp] theorem issueDelay_req : (issueDelay s).req = s.req := rfl
@[simp] theorem issueDelay_delay : (issueDelay s).delay = some ⟨tRstMs, s.nowMs⟩ := rfl
@[simp] theorem issueDelay_hRdata : (issueDelay s).hRdata = s.hRdata := rfl
@[simp] theorem issueDelay_arrival : (issueDelay s).arrival = none := rfl
@[simp] theorem issueDelay_inbox : (issueDelay s).inbox = s.inbox := rfl
@[simp] theorem issueDelay_nowMs : (issueDelay s).nowMs = s.nowMs := rfl

/-! ### completion -/

@[simp] theorem complete_cmd (e : ErrCode) (x : BitVec 2) : (complete e x s).cmd = s.cmd := rfl
@[simp] theorem complete_status (e : ErrCode) (x : BitVec 2) : (complete e x s).status = s.status.completed e x := rfl
@[simp] theorem complete_doneIe (e : ErrCode) (x : BitVec 2) : (complete e x s).doneIe = s.doneIe := rfl
@[simp] theorem complete_arg (e : ErrCode) (x : BitVec 2) : (complete e x s).arg = s.arg := rfl
@[simp] theorem complete_rawh (e : ErrCode) (x : BitVec 2) : (complete e x s).rawh = s.rawh := rfl
@[simp] theorem complete_rawl (e : ErrCode) (x : BitVec 2) : (complete e x s).rawl = s.rawl := rfl
@[simp] theorem complete_mstat (e : ErrCode) (x : BitVec 2) : (complete e x s).mstat = s.mstat := rfl
@[simp] theorem complete_mcrc (e : ErrCode) (x : BitVec 2) : (complete e x s).mcrc = s.mcrc := rfl
@[simp] theorem complete_cfgRd (e : ErrCode) (x : BitVec 2) : (complete e x s).cfgRd = s.cfgRd := rfl
@[simp] theorem complete_cfgWr (e : ErrCode) (x : BitVec 2) : (complete e x s).cfgWr = s.cfgWr := rfl
@[simp] theorem complete_crcAcc (e : ErrCode) (x : BitVec 2) : (complete e x s).crcAcc = s.crcAcc := rfl
@[simp] theorem complete_codecByte (e : ErrCode) (x : BitVec 2) : (complete e x s).codecByte = s.codecByte := rfl
@[simp] theorem complete_valid (e : ErrCode) (x : BitVec 2) : (complete e x s).valid = s.valid := rfl
@[simp] theorem complete_fsm (e : ErrCode) (x : BitVec 2) : (complete e x s).fsm = .idle := rfl
@[simp] theorem complete_opl (e : ErrCode) (x : BitVec 2) : (complete e x s).opl = s.opl := rfl
@[simp] theorem complete_argl (e : ErrCode) (x : BitVec 2) : (complete e x s).argl = s.argl := rfl
@[simp] theorem complete_tb (e : ErrCode) (x : BitVec 2) : (complete e x s).tb = s.tb := rfl
@[simp] theorem complete_req (e : ErrCode) (x : BitVec 2) : (complete e x s).req = s.req := rfl
@[simp] theorem complete_delay (e : ErrCode) (x : BitVec 2) : (complete e x s).delay = s.delay := rfl
@[simp] theorem complete_hRdata (e : ErrCode) (x : BitVec 2) : (complete e x s).hRdata = s.hRdata := rfl
@[simp] theorem complete_arrival (e : ErrCode) (x : BitVec 2) : (complete e x s).arrival = none := rfl
@[simp] theorem complete_inbox (e : ErrCode) (x : BitVec 2) : (complete e x s).inbox = s.inbox := rfl
@[simp] theorem complete_nowMs (e : ErrCode) (x : BitVec 2) : (complete e x s).nowMs = s.nowMs := rfl

/-! ### acceptance -/

@[simp] theorem accept_cmd (v : Byte) : (accept v s).cmd = v := rfl
@[simp] theorem accept_status (v : Byte) : (accept v s).status = s.status.accepted := rfl
@[simp] theorem accept_doneIe (v : Byte) : (accept v s).doneIe = s.doneIe := rfl
@[simp] theorem accept_arg (v : Byte) : (accept v s).arg = s.arg := rfl
@[simp] theorem accept_rawh (v : Byte) : (accept v s).rawh = s.rawh := rfl
@[simp] theorem accept_rawl (v : Byte) : (accept v s).rawl = s.rawl := rfl
@[simp] theorem accept_mstat (v : Byte) : (accept v s).mstat = s.mstat := rfl
@[simp] theorem accept_mcrc (v : Byte) : (accept v s).mcrc = s.mcrc := rfl
@[simp] theorem accept_cfgRd (v : Byte) : (accept v s).cfgRd = s.cfgRd := rfl
@[simp] theorem accept_cfgWr (v : Byte) : (accept v s).cfgWr = s.cfgWr := rfl
@[simp] theorem accept_crcAcc (v : Byte) : (accept v s).crcAcc = s.crcAcc := rfl
@[simp] theorem accept_codecByte (v : Byte) : (accept v s).codecByte = s.codecByte := rfl
@[simp] theorem accept_valid (v : Byte) : (accept v s).valid = s.valid := rfl
@[simp] theorem accept_fsm (v : Byte) : (accept v s).fsm = s.fsm := rfl
@[simp] theorem accept_opl (v : Byte) : (accept v s).opl = v := rfl
@[simp] theorem accept_argl (v : Byte) : (accept v s).argl = s.arg := rfl
@[simp] theorem accept_tb (v : Byte) : (accept v s).tb = s.tb := rfl
@[simp] theorem accept_req (v : Byte) : (accept v s).req = s.req := rfl
@[simp] theorem accept_delay (v : Byte) : (accept v s).delay = s.delay := rfl
@[simp] theorem accept_hRdata (v : Byte) : (accept v s).hRdata = s.hRdata := rfl
@[simp] theorem accept_arrival (v : Byte) : (accept v s).arrival = s.arrival := rfl
@[simp] theorem accept_inbox (v : Byte) : (accept v s).inbox = s.inbox := rfl
@[simp] theorem accept_nowMs (v : Byte) : (accept v s).nowMs = s.nowMs := rfl

/-! ### setting BUSY -/

@[simp] theorem setBusy_cmd : (setBusy s).cmd = s.cmd := rfl
@[simp] theorem setBusy_status : (setBusy s).status = s.status.started := rfl
@[simp] theorem setBusy_doneIe : (setBusy s).doneIe = s.doneIe := rfl
@[simp] theorem setBusy_arg : (setBusy s).arg = s.arg := rfl
@[simp] theorem setBusy_rawh : (setBusy s).rawh = s.rawh := rfl
@[simp] theorem setBusy_rawl : (setBusy s).rawl = s.rawl := rfl
@[simp] theorem setBusy_mstat : (setBusy s).mstat = s.mstat := rfl
@[simp] theorem setBusy_mcrc : (setBusy s).mcrc = s.mcrc := rfl
@[simp] theorem setBusy_cfgRd : (setBusy s).cfgRd = s.cfgRd := rfl
@[simp] theorem setBusy_cfgWr : (setBusy s).cfgWr = s.cfgWr := rfl
@[simp] theorem setBusy_crcAcc : (setBusy s).crcAcc = s.crcAcc := rfl
@[simp] theorem setBusy_codecByte : (setBusy s).codecByte = s.codecByte := rfl
@[simp] theorem setBusy_valid : (setBusy s).valid = s.valid := rfl
@[simp] theorem setBusy_fsm : (setBusy s).fsm = s.fsm := rfl
@[simp] theorem setBusy_opl : (setBusy s).opl = s.opl := rfl
@[simp] theorem setBusy_argl : (setBusy s).argl = s.argl := rfl
@[simp] theorem setBusy_tb : (setBusy s).tb = s.tb := rfl
@[simp] theorem setBusy_req : (setBusy s).req = s.req := rfl
@[simp] theorem setBusy_delay : (setBusy s).delay = s.delay := rfl
@[simp] theorem setBusy_hRdata : (setBusy s).hRdata = s.hRdata := rfl
@[simp] theorem setBusy_arrival : (setBusy s).arrival = s.arrival := rfl
@[simp] theorem setBusy_inbox : (setBusy s).inbox = s.inbox := rfl
@[simp] theorem setBusy_nowMs : (setBusy s).nowMs = s.nowMs := rfl

/-! ### rejection -/

@[simp] theorem reject_cmd : (reject s).cmd = s.cmd := rfl
@[simp] theorem reject_status : (reject s).status = s.status.rejected := rfl
@[simp] theorem reject_doneIe : (reject s).doneIe = s.doneIe := rfl
@[simp] theorem reject_arg : (reject s).arg = s.arg := rfl
@[simp] theorem reject_rawh : (reject s).rawh = s.rawh := rfl
@[simp] theorem reject_rawl : (reject s).rawl = s.rawl := rfl
@[simp] theorem reject_mstat : (reject s).mstat = s.mstat := rfl
@[simp] theorem reject_mcrc : (reject s).mcrc = s.mcrc := rfl
@[simp] theorem reject_cfgRd : (reject s).cfgRd = s.cfgRd := rfl
@[simp] theorem reject_cfgWr : (reject s).cfgWr = s.cfgWr := rfl
@[simp] theorem reject_crcAcc : (reject s).crcAcc = s.crcAcc := rfl
@[simp] theorem reject_codecByte : (reject s).codecByte = s.codecByte := rfl
@[simp] theorem reject_valid : (reject s).valid = s.valid := rfl
@[simp] theorem reject_fsm : (reject s).fsm = s.fsm := rfl
@[simp] theorem reject_opl : (reject s).opl = s.opl := rfl
@[simp] theorem reject_argl : (reject s).argl = s.argl := rfl
@[simp] theorem reject_tb : (reject s).tb = s.tb := rfl
@[simp] theorem reject_req : (reject s).req = s.req := rfl
@[simp] theorem reject_delay : (reject s).delay = s.delay := rfl
@[simp] theorem reject_hRdata : (reject s).hRdata = s.hRdata := rfl
@[simp] theorem reject_arrival : (reject s).arrival = s.arrival := rfl
@[simp] theorem reject_inbox : (reject s).inbox = s.inbox := rfl
@[simp] theorem reject_nowMs : (reject s).nowMs = s.nowMs := rfl

/-! ### publishing a sample -/

@[simp] theorem publishSample_cmd (k : MeasKind) (d0 d1 c : Byte) : (publishSample k d0 d1 c s).cmd = s.cmd := rfl
@[simp] theorem publishSample_status (k : MeasKind) (d0 d1 c : Byte) : (publishSample k d0 d1 c s).status = s.status := rfl
@[simp] theorem publishSample_doneIe (k : MeasKind) (d0 d1 c : Byte) : (publishSample k d0 d1 c s).doneIe = s.doneIe := rfl
@[simp] theorem publishSample_arg (k : MeasKind) (d0 d1 c : Byte) : (publishSample k d0 d1 c s).arg = s.arg := rfl
@[simp] theorem publishSample_rawh (k : MeasKind) (d0 d1 c : Byte) : (publishSample k d0 d1 c s).rawh = d0 := rfl
@[simp] theorem publishSample_rawl (k : MeasKind) (d0 d1 c : Byte) : (publishSample k d0 d1 c s).rawl = maskedLow d1 := rfl
@[simp] theorem publishSample_mstat (k : MeasKind) (d0 d1 c : Byte) : (publishSample k d0 d1 c s).mstat = ⟨k, statusBits d1⟩ := rfl
@[simp] theorem publishSample_mcrc (k : MeasKind) (d0 d1 c : Byte) : (publishSample k d0 d1 c s).mcrc = c := rfl
@[simp] theorem publishSample_cfgRd (k : MeasKind) (d0 d1 c : Byte) : (publishSample k d0 d1 c s).cfgRd = s.cfgRd := rfl
@[simp] theorem publishSample_cfgWr (k : MeasKind) (d0 d1 c : Byte) : (publishSample k d0 d1 c s).cfgWr = s.cfgWr := rfl
@[simp] theorem publishSample_crcAcc (k : MeasKind) (d0 d1 c : Byte) : (publishSample k d0 d1 c s).crcAcc = s.crcAcc := rfl
@[simp] theorem publishSample_codecByte (k : MeasKind) (d0 d1 c : Byte) : (publishSample k d0 d1 c s).codecByte = s.codecByte := rfl
@[simp] theorem publishSample_valid (k : MeasKind) (d0 d1 c : Byte) : (publishSample k d0 d1 c s).valid = { s.valid with measV := true } := rfl
@[simp] theorem publishSample_fsm (k : MeasKind) (d0 d1 c : Byte) : (publishSample k d0 d1 c s).fsm = s.fsm := rfl
@[simp] theorem publishSample_opl (k : MeasKind) (d0 d1 c : Byte) : (publishSample k d0 d1 c s).opl = s.opl := rfl
@[simp] theorem publishSample_argl (k : MeasKind) (d0 d1 c : Byte) : (publishSample k d0 d1 c s).argl = s.argl := rfl
@[simp] theorem publishSample_tb (k : MeasKind) (d0 d1 c : Byte) : (publishSample k d0 d1 c s).tb = s.tb := rfl
@[simp] theorem publishSample_req (k : MeasKind) (d0 d1 c : Byte) : (publishSample k d0 d1 c s).req = s.req := rfl
@[simp] theorem publishSample_delay (k : MeasKind) (d0 d1 c : Byte) : (publishSample k d0 d1 c s).delay = s.delay := rfl
@[simp] theorem publishSample_hRdata (k : MeasKind) (d0 d1 c : Byte) : (publishSample k d0 d1 c s).hRdata = s.hRdata := rfl
@[simp] theorem publishSample_arrival (k : MeasKind) (d0 d1 c : Byte) : (publishSample k d0 d1 c s).arrival = s.arrival := rfl
@[simp] theorem publishSample_inbox (k : MeasKind) (d0 d1 c : Byte) : (publishSample k d0 d1 c s).inbox = s.inbox := rfl
@[simp] theorem publishSample_nowMs (k : MeasKind) (d0 d1 c : Byte) : (publishSample k d0 d1 c s).nowMs = s.nowMs := rfl

/-! ### publishing a byte read -/

@[simp] theorem publishRead_cmd (b : Byte) : (publishRead b s).cmd = s.cmd := rfl
@[simp] theorem publishRead_status (b : Byte) : (publishRead b s).status = s.status := rfl
@[simp] theorem publishRead_doneIe (b : Byte) : (publishRead b s).doneIe = s.doneIe := rfl
@[simp] theorem publishRead_arg (b : Byte) : (publishRead b s).arg = s.arg := rfl
@[simp] theorem publishRead_rawh (b : Byte) : (publishRead b s).rawh = s.rawh := rfl
@[simp] theorem publishRead_rawl (b : Byte) : (publishRead b s).rawl = s.rawl := rfl
@[simp] theorem publishRead_mstat (b : Byte) : (publishRead b s).mstat = s.mstat := rfl
@[simp] theorem publishRead_mcrc (b : Byte) : (publishRead b s).mcrc = s.mcrc := rfl
@[simp] theorem publishRead_cfgRd (b : Byte) : (publishRead b s).cfgRd = b := rfl
@[simp] theorem publishRead_cfgWr (b : Byte) : (publishRead b s).cfgWr = s.cfgWr := rfl
@[simp] theorem publishRead_crcAcc (b : Byte) : (publishRead b s).crcAcc = s.crcAcc := rfl
@[simp] theorem publishRead_codecByte (b : Byte) : (publishRead b s).codecByte = s.codecByte := rfl
@[simp] theorem publishRead_valid (b : Byte) : (publishRead b s).valid = { s.valid with cfgrdV := true } := rfl
@[simp] theorem publishRead_fsm (b : Byte) : (publishRead b s).fsm = s.fsm := rfl
@[simp] theorem publishRead_opl (b : Byte) : (publishRead b s).opl = s.opl := rfl
@[simp] theorem publishRead_argl (b : Byte) : (publishRead b s).argl = s.argl := rfl
@[simp] theorem publishRead_tb (b : Byte) : (publishRead b s).tb = s.tb := rfl
@[simp] theorem publishRead_req (b : Byte) : (publishRead b s).req = s.req := rfl
@[simp] theorem publishRead_delay (b : Byte) : (publishRead b s).delay = s.delay := rfl
@[simp] theorem publishRead_hRdata (b : Byte) : (publishRead b s).hRdata = s.hRdata := rfl
@[simp] theorem publishRead_arrival (b : Byte) : (publishRead b s).arrival = s.arrival := rfl
@[simp] theorem publishRead_inbox (b : Byte) : (publishRead b s).inbox = s.inbox := rfl
@[simp] theorem publishRead_nowMs (b : Byte) : (publishRead b s).nowMs = s.nowMs := rfl

/-! ### publishing a byte written -/

@[simp] theorem publishWritten_cmd (b : Byte) : (publishWritten b s).cmd = s.cmd := rfl
@[simp] theorem publishWritten_status (b : Byte) : (publishWritten b s).status = s.status := rfl
@[simp] theorem publishWritten_doneIe (b : Byte) : (publishWritten b s).doneIe = s.doneIe := rfl
@[simp] theorem publishWritten_arg (b : Byte) : (publishWritten b s).arg = s.arg := rfl
@[simp] theorem publishWritten_rawh (b : Byte) : (publishWritten b s).rawh = s.rawh := rfl
@[simp] theorem publishWritten_rawl (b : Byte) : (publishWritten b s).rawl = s.rawl := rfl
@[simp] theorem publishWritten_mstat (b : Byte) : (publishWritten b s).mstat = s.mstat := rfl
@[simp] theorem publishWritten_mcrc (b : Byte) : (publishWritten b s).mcrc = s.mcrc := rfl
@[simp] theorem publishWritten_cfgRd (b : Byte) : (publishWritten b s).cfgRd = s.cfgRd := rfl
@[simp] theorem publishWritten_cfgWr (b : Byte) : (publishWritten b s).cfgWr = b := rfl
@[simp] theorem publishWritten_crcAcc (b : Byte) : (publishWritten b s).crcAcc = s.crcAcc := rfl
@[simp] theorem publishWritten_codecByte (b : Byte) : (publishWritten b s).codecByte = s.codecByte := rfl
@[simp] theorem publishWritten_valid (b : Byte) : (publishWritten b s).valid = { s.valid with cfgwrV := true } := rfl
@[simp] theorem publishWritten_fsm (b : Byte) : (publishWritten b s).fsm = s.fsm := rfl
@[simp] theorem publishWritten_opl (b : Byte) : (publishWritten b s).opl = s.opl := rfl
@[simp] theorem publishWritten_argl (b : Byte) : (publishWritten b s).argl = s.argl := rfl
@[simp] theorem publishWritten_tb (b : Byte) : (publishWritten b s).tb = s.tb := rfl
@[simp] theorem publishWritten_req (b : Byte) : (publishWritten b s).req = s.req := rfl
@[simp] theorem publishWritten_delay (b : Byte) : (publishWritten b s).delay = s.delay := rfl
@[simp] theorem publishWritten_hRdata (b : Byte) : (publishWritten b s).hRdata = s.hRdata := rfl
@[simp] theorem publishWritten_arrival (b : Byte) : (publishWritten b s).arrival = s.arrival := rfl
@[simp] theorem publishWritten_inbox (b : Byte) : (publishWritten b s).inbox = s.inbox := rfl
@[simp] theorem publishWritten_nowMs (b : Byte) : (publishWritten b s).nowMs = s.nowMs := rfl

/-! ### the passing of time -/

@[simp] theorem elapse_cmd (ms : Nat) : (elapse ms s).cmd = s.cmd := rfl
@[simp] theorem elapse_status (ms : Nat) : (elapse ms s).status = s.status := rfl
@[simp] theorem elapse_doneIe (ms : Nat) : (elapse ms s).doneIe = s.doneIe := rfl
@[simp] theorem elapse_arg (ms : Nat) : (elapse ms s).arg = s.arg := rfl
@[simp] theorem elapse_rawh (ms : Nat) : (elapse ms s).rawh = s.rawh := rfl
@[simp] theorem elapse_rawl (ms : Nat) : (elapse ms s).rawl = s.rawl := rfl
@[simp] theorem elapse_mstat (ms : Nat) : (elapse ms s).mstat = s.mstat := rfl
@[simp] theorem elapse_mcrc (ms : Nat) : (elapse ms s).mcrc = s.mcrc := rfl
@[simp] theorem elapse_cfgRd (ms : Nat) : (elapse ms s).cfgRd = s.cfgRd := rfl
@[simp] theorem elapse_cfgWr (ms : Nat) : (elapse ms s).cfgWr = s.cfgWr := rfl
@[simp] theorem elapse_crcAcc (ms : Nat) : (elapse ms s).crcAcc = s.crcAcc := rfl
@[simp] theorem elapse_codecByte (ms : Nat) : (elapse ms s).codecByte = s.codecByte := rfl
@[simp] theorem elapse_valid (ms : Nat) : (elapse ms s).valid = s.valid := rfl
@[simp] theorem elapse_fsm (ms : Nat) : (elapse ms s).fsm = s.fsm := rfl
@[simp] theorem elapse_opl (ms : Nat) : (elapse ms s).opl = s.opl := rfl
@[simp] theorem elapse_argl (ms : Nat) : (elapse ms s).argl = s.argl := rfl
@[simp] theorem elapse_tb (ms : Nat) : (elapse ms s).tb = s.tb := rfl
@[simp] theorem elapse_req (ms : Nat) : (elapse ms s).req = s.req := rfl
@[simp] theorem elapse_delay (ms : Nat) : (elapse ms s).delay = s.delay := rfl
@[simp] theorem elapse_hRdata (ms : Nat) : (elapse ms s).hRdata = s.hRdata := rfl
@[simp] theorem elapse_arrival (ms : Nat) : (elapse ms s).arrival = s.arrival := rfl
@[simp] theorem elapse_inbox (ms : Nat) : (elapse ms s).inbox = s.inbox := rfl
@[simp] theorem elapse_nowMs (ms : Nat) : (elapse ms s).nowMs = s.nowMs + ms := rfl

end Sys2Proof.Machine
end

