-- ==== Sys2Proof/Laws/Ops.lean ====
section
/-! SUPPORT. One spec lemma per shared operation: everything it can do. -/

namespace Sys2Proof.Machine

/-! ### Sending -/

theorem pending_eq_false {s : State} : s.pending = false ↔ s.req = none ∧ s.delay = none := by
  simp [State.pending]

theorem send_quiet {s : State} (f : Fsm) (q : Request) (hr : s.req = none) (hd : s.delay = none) :
    send f q s = issue f q s := by
  simp [send, pending_eq_false.mpr ⟨hr, hd⟩]

theorem send_pending {s : State} (f : Fsm) (q : Request) (h : s.pending = true) : send f q s = s := by
  simp [send, h]

/-- Sending either issues the request, with nothing outstanding, or leaves everything. -/
theorem send_cases (f : Fsm) (q : Request) (s : State) :
    (s.req = none ∧ s.delay = none ∧ send f q s = issue f q s) ∨ (s.pending = true ∧ send f q s = s) := by
  cases h : s.pending
  · obtain ⟨hr, hd⟩ := pending_eq_false.mp h
    exact .inl ⟨hr, hd, send_quiet f q hr hd⟩
  · exact .inr ⟨rfl, send_pending f q h⟩

/-! ### Awaiting -/

@[simp] theorem awaitOk_ok {s : State} {bytes : List Byte} (k : List Byte → Result)
    (h : s.arrival = some (.response (.ok bytes))) : awaitOk s k = k bytes := by
  simp [awaitOk, h]

@[simp] theorem awaitOk_err {s : State} {code : BitVec 2} (k : List Byte → Result)
    (h : s.arrival = some (.response (.err code))) : awaitOk s k = .next (complete .transport code s) := by
  simp [awaitOk, h, raise]

/-- An await goes on with the bytes of an `Ok`, completes with TRANSPORT on an `Err`, or goes on waiting. -/
theorem awaitOk_cases (s : State) (k : List Byte → Result) :
    (∃ bytes, s.arrival = some (.response (.ok bytes)) ∧ awaitOk s k = k bytes) ∨
    (∃ code, s.arrival = some (.response (.err code)) ∧ awaitOk s k = .next (complete .transport code s)) ∨
    awaitOk s k = .next s := by
  unfold awaitOk
  split
  · next b h => exact .inl ⟨b, h, rfl⟩
  · next c h => exact .inr (.inl ⟨c, h, rfl⟩)
  · exact .inr (.inr rfl)
  · exact .inr (.inr rfl)

/-- The end of `read_cfg()` on a one-byte answer: the decode check never fails (60_exceptions.md R224). -/
theorem readCfgThen_one {s : State} {b : Byte} (k : Byte → Result)
    (h : s.arrival = some (.response (.ok [b]))) : readCfgThen s k = k b := by
  simp [readCfgThen, h, cfgDecode_eq]

/-! ### Answers from outside -/

theorem presentResponse_none {s : State} (r : Response) (h : s.req = none) : presentResponse r s = .ignored := by
  simp [presentResponse, h]

theorem presentResponse_some {s : State} {r : Response} {q : Request} (h : s.req = some q) (hq : q.accepts r = true) :
    presentResponse r s = .received { s with req := none, arrival := some (.response r) } := by
  simp [presentResponse, h, hq]

/-- A response is ignored, ends the outstanding request, or has the wrong length. -/
theorem presentResponse_cases (r : Response) (s : State) :
    (s.req = none ∧ presentResponse r s = .ignored) ∨
    (∃ q, s.req = some q ∧ q.accepts r = true ∧
      presentResponse r s = .received { s with req := none, arrival := some (.response r) }) ∨
    (∃ q, s.req = some q ∧ q.accepts r = false ∧ presentResponse r s = .refused .responseShape) := by
  cases h : s.req with
  | none => exact .inl ⟨rfl, presentResponse_none r h⟩
  | some q =>
    cases hq : q.accepts r
    · exact .inr (.inr ⟨q, rfl, hq, by simp [presentResponse, h, hq]⟩)
    · exact .inr (.inl ⟨q, rfl, hq, presentResponse_some h hq⟩)

theorem presentDelayDone_ready {s : State} {d : DelayRequest} (hf : s.fsm = .rstD) (hd : s.delay = some d)
    (ht : d.since + d.ms ≤ s.nowMs) :
    presentDelayDone s = .received { s with delay := none, arrival := some .delayDone } := by
  simp [presentDelayDone, hf, hd, ht]

theorem presentDelayDone_stray {s : State} (hf : s.fsm ≠ .rstD) : presentDelayDone s = .ignored := by
  unfold presentDelayDone
  split <;> simp [hf]

/-- `delay_done` is ignored, ends the outstanding delay in RST_D, or comes before its time. -/
theorem presentDelayDone_cases (s : State) :
    ((s.delay = none ∨ s.fsm ≠ .rstD) ∧ presentDelayDone s = .ignored) ∨
    (∃ d, s.fsm = .rstD ∧ s.delay = some d ∧ d.since + d.ms ≤ s.nowMs ∧
      presentDelayDone s = .received { s with delay := none, arrival := some .delayDone }) ∨
    (∃ d, s.fsm = .rstD ∧ s.delay = some d ∧ s.nowMs < d.since + d.ms ∧
      presentDelayDone s = .refused .earlyDelayDone) := by
  cases hd : s.delay with
  | none => exact .inl ⟨.inl rfl, by simp [presentDelayDone, hd]⟩
  | some d =>
    by_cases hf : s.fsm = .rstD
    · by_cases ht : d.since + d.ms ≤ s.nowMs
      · exact .inr (.inl ⟨d, hf, rfl, ht, presentDelayDone_ready hf hd ht⟩)
      · exact .inr (.inr ⟨d, hf, rfl, by omega, by simp [presentDelayDone, hd, hf, ht]⟩)
    · exact .inl ⟨.inr hf, presentDelayDone_stray hf⟩

/-! ### CMD -/

theorem writeCommand_busy {s : State} (v : Byte) (h : s.status.busy = true) : writeCommand v s = .next (reject s) := by
  simp [writeCommand, h]

theorem writeCommand_idle {s : State} (v : Byte) (h : s.status.busy = false) : writeCommand v s = acceptCommand v s := by
  simp [writeCommand, h]

/-- Running an operation is exec of its instruction. -/
theorem exec_instr (op : HostOp) (s : State) : exec op.instr s = runOp op s := by cases op <;> rfl

/-! ### The step -/

theorem step_nil {s : State} (h : s.inbox = []) : step s = .next s := by simp [step, h]

theorem step_cons {s : State} {e : Input} {rest : List Input} (h : s.inbox = e :: rest) :
    step s = event e (takeEvent rest s) := by
  simp [step, h]

/-- A table word of 16 bits is fetched and run as the next access. -/
theorem step_withFetchWord_access (s : State) {nbits w : Nat} {a : AccessWord}
    (h : tableWord? nbits w = some (.access a)) :
    step (s.withFetchWord nbits w) = exec (decodeAccess s.status.busy a) (takeEvent s.inbox s) := by
  simp only [State.withFetchWord, h]
  rfl

end Sys2Proof.Machine
end

