-- ==== Sys2Proof/Laws/Framer.lean ====
section
/-! SUPPORT. What an operation can do to the registers, from any state whatever, in order or not: how STATUS can change,
how the measurement registers can change, and what no operation touches. -/

namespace Sys2Proof.Machine

/-- STATUS after an operation's event: as before, or completed, and never with DECODE (60_exceptions.md R224). -/
def StatusEffect (a b : Status) : Prop := b = a ∨ ∃ e x, e ≠ .decode ∧ b = a.completed e x

/-- The measurement registers after an operation's event: as before, or an intact sample (42_framer_ops.md R156). -/
def SampleEffect (s t : State) : Prop :=
  (t.sample = s.sample ∧ t.valid.measV = s.valid.measV) ∨
  ∃ kind d0 d1 c, crc8 [d0, d1] = c ∧ t.sample = (d0, maskedLow d1, ⟨kind, statusBits d1⟩, c) ∧ t.valid.measV = true

/-- What an operation's event can do. -/
structure OpEffect (s t : State) : Prop where
  status : StatusEffect s.status t.status
  sample : SampleEffect s t
  host : t.hostOwned = s.hostOwned
  port : t.hRdata = s.hRdata ∧ t.inbox = s.inbox ∧ t.nowMs = s.nowMs ∧ t.opl = s.opl ∧ t.argl = s.argl

theorem OpEffect.refl (s : State) : OpEffect s s := ⟨.inl rfl, .inl ⟨rfl, rfl⟩, rfl, rfl, rfl, rfl, rfl, rfl⟩

theorem OpEffect.of_send (f : Fsm) (q : Request) (s : State) : OpEffect s (send f q s) := by
  rcases send_cases f q s with ⟨-, -, h⟩ | ⟨-, h⟩ <;> rw [h]
  · exact ⟨.inl rfl, .inl ⟨rfl, rfl⟩, rfl, rfl, rfl, rfl, rfl, rfl⟩
  · exact .refl s

theorem OpEffect.of_measureFrames (c : Byte) (s : State) : OpEffect s (measureFrames c s) := by
  unfold measureFrames
  split
  · exact .of_send _ _ s
  · exact .refl s
  · exact .of_send _ _ s

/-- Completion after an update that leaves STATUS and everything but the results alone. -/
theorem OpEffect.of_complete {s u : State} (e : ErrCode) (x : BitVec 2) (he : e ≠ .decode) (hst : u.status = s.status)
    (hsa : SampleEffect s u) (hh : u.hostOwned = s.hostOwned)
    (hp : u.hRdata = s.hRdata ∧ u.inbox = s.inbox ∧ u.nowMs = s.nowMs ∧ u.opl = s.opl ∧ u.argl = s.argl) :
    OpEffect s (complete e x u) :=
  ⟨.inr ⟨e, x, he, by simp [hst]⟩, hsa, hh, hp⟩

/-- An await has the effects its continuation has. -/
theorem awaitOk_effect {s t : State} {k : List Byte → Result} (hk : ∀ bytes, k bytes = .next t → OpEffect s t)
    (h : awaitOk s k = .next t) : OpEffect s t := by
  rcases awaitOk_cases s k with ⟨bytes, -, hb⟩ | ⟨code, -, hb⟩ | hb <;> rw [hb] at h
  · exact hk bytes h
  · cases h
    exact .of_complete _ _ (by simp) rfl (.inl ⟨rfl, rfl⟩) rfl ⟨rfl, rfl, rfl, rfl, rfl⟩
  · cases h
    exact .refl s

theorem readCfgThen_effect {s t : State} {k : Byte → Result} (hk : ∀ b, k b = .next t → OpEffect s t)
    (h : readCfgThen s k = .next t) : OpEffect s t := by
  refine awaitOk_effect (fun bytes hb => ?_) h
  split at hb
  · rw [cfgDecode_eq] at hb
    exact hk _ hb
  · cases hb

theorem writeDoneThen_effect {s t : State} {k : Result} (hk : k = .next t → OpEffect s t)
    (h : writeDoneThen s k = .next t) : OpEffect s t := by
  refine awaitOk_effect (fun bytes hb => ?_) h
  split at hb
  · exact hk hb
  · cases hb

theorem execSoftReset_effect {s t : State} (h : execSoftReset s = .next t) : OpEffect s t := by
  unfold execSoftReset at h
  split at h
  · cases h; exact .of_send _ _ s
  · split at h <;> cases h
    · exact ⟨.inl rfl, .inl ⟨rfl, rfl⟩, rfl, rfl, rfl, rfl, rfl, rfl⟩
    · exact ⟨.inl rfl, .inl ⟨rfl, rfl⟩, rfl, rfl, rfl, rfl, rfl, rfl⟩
    · exact .refl s
    · exact .refl s
  · split at h <;> cases h
    · exact .of_complete _ _ (by simp) rfl (.inl ⟨rfl, rfl⟩) rfl ⟨rfl, rfl, rfl, rfl, rfl⟩
    · exact .refl s
    · exact .refl s
  all_goals cases h; exact .refl s

theorem measureRun_effect {s t : State} {wire : State → Result} {kind : MeasKind}
    (hw : ∀ u, wire s = .next u → OpEffect s u) (h : measureRun wire kind s = .next t) : OpEffect s t := by
  unfold measureRun at h
  split at h
  · exact hw t h
  · refine awaitOk_effect (fun bytes hb => ?_) h
    split at hb
    · exact hw t hb
    · cases hb
  · refine awaitOk_effect (fun bytes hb => ?_) h
    split at hb
    · next d0 d1 c =>
      split at hb
      · next hi =>
        cases hb
        exact .of_complete _ _ (by simp) rfl (.inr ⟨kind, d0, d1, c, by simpa [sampleIntact] using hi, rfl, rfl⟩) rfl
          ⟨rfl, rfl, rfl, rfl, rfl⟩
      · cases hb
        exact .of_complete _ _ (by simp) rfl (.inl ⟨rfl, rfl⟩) rfl ⟨rfl, rfl, rfl, rfl, rfl⟩
    · cases hb
  all_goals cases h; exact .refl s

theorem readConfiguration_effect {s t : State} (h : readConfiguration s = .next t) : OpEffect s t := by
  unfold readConfiguration at h
  split at h
  · cases h; exact .of_send _ _ s
  · refine readCfgThen_effect (fun b hb => ?_) h
    cases hb
    exact .of_complete _ _ (by simp) rfl (.inl ⟨rfl, rfl⟩) rfl ⟨rfl, rfl, rfl, rfl, rfl⟩
  all_goals cases h; exact .refl s

theorem execWriteCfg_effect {s t : State} (h : execWriteCfg s = .next t) : OpEffect s t := by
  unfold execWriteCfg at h
  split at h
  · cases h; exact .of_send _ _ s
  · refine writeDoneThen_effect (fun hb => ?_) h
    cases hb
    exact .of_complete _ _ (by simp) rfl (.inl ⟨rfl, rfl⟩) rfl ⟨rfl, rfl, rfl, rfl, rfl⟩
  all_goals cases h; exact .refl s

theorem heater_effect {s t : State} {b : BitVec 1} (h : heater b s = .next t) : OpEffect s t := by
  unfold heater at h
  split at h
  · cases h; exact .of_send _ _ s
  · refine readCfgThen_effect (fun v hv => ?_) h
    cases hv
    have := OpEffect.of_send .cfgwW (Request.writeOf [wireWriteCfg, setHeater v b]) { s with tb := v }
    exact ⟨this.status, this.sample, this.host, this.port⟩
  · refine writeDoneThen_effect (fun hb => ?_) h
    cases hb
    exact .of_complete _ _ (by simp) rfl (.inl ⟨rfl, rfl⟩) rfl ⟨rfl, rfl, rfl, rfl, rfl⟩
  all_goals cases h; exact .refl s

/-- Whatever the state, an operation's event has only these effects. -/
theorem runOp_effect {op : HostOp} {s t : State} (h : runOp op s = .next t) : OpEffect s t := by
  cases op with
  | softReset => exact execSoftReset_effect h
  | measT => exact measureRun_effect (fun u hu => by cases hu; exact .of_measureFrames _ s) h
  | measRh => exact measureRun_effect (fun u hu => by cases hu; exact .of_measureFrames _ s) h
  | readCfg => exact readConfiguration_effect h
  | writeCfg => exact execWriteCfg_effect h
  | heaterOn => exact heater_effect h
  | heaterOff => exact heater_effect h
  | readEob => exact readConfiguration_effect h

theorem execIllegal_effect {b : Byte} {s t : State} (h : execIllegal b s = .next t) : OpEffect s t := by
  unfold execIllegal at h
  split at h <;> cases h
  · exact .of_complete _ _ (by simp) rfl (.inl ⟨rfl, rfl⟩) rfl ⟨rfl, rfl, rfl, rfl, rfl⟩
  all_goals exact .refl s

/-- The same for the instruction a CMD byte decodes to. -/
theorem exec_decodeOp_effect {b : Byte} {s t : State} (h : exec (decodeOp b) s = .next t) : OpEffect s t := by
  unfold decodeOp at h
  split at h
  · rw [exec_instr] at h
    exact runOp_effect h
  · exact execIllegal_effect (b := b) h

/-- An answer from outside, whatever the state: nothing changes, or the operation OPL names receives it. -/
theorem event_answer_effect {e : Input} {s t : State} (ha : ∀ w, e ≠ .access w) (hr : e ≠ .blockReset)
    (h : event e s = .next t) :
    StatusEffect s.status t.status ∧ SampleEffect s t ∧ t.hostOwned = s.hostOwned ∧ t.hRdata = s.hRdata ∧
      t.inbox = s.inbox := by
  have present : ∀ p : Presented, (∀ u, p = .received u → ∃ a r d, u = { s with arrival := a, req := r, delay := d }) →
      resume s p = .next t → OpEffect s t := by
    intro p hp hres
    cases p with
    | ignored => cases hres; exact .refl s
    | refused r => cases hres
    | received u =>
      obtain ⟨a, r, d, rfl⟩ := hp u rfl
      have ht := exec_decodeOp_effect hres
      exact ⟨ht.status, ht.sample, ht.host, ht.port⟩
  have done (ho : OpEffect s t) : StatusEffect s.status t.status ∧ SampleEffect s t ∧ t.hostOwned = s.hostOwned ∧
      t.hRdata = s.hRdata ∧ t.inbox = s.inbox := ⟨ho.status, ho.sample, ho.host, ho.port.1, ho.port.2.1⟩
  cases e with
  | access w => exact absurd rfl (ha w)
  | blockReset => exact absurd rfl hr
  | elapse ms => cases h; exact ⟨.inl rfl, .inl ⟨rfl, rfl⟩, rfl, rfl, rfl⟩
  | secondResponse r => exact done (present presentSecondResponse (fun u hu => by cases hu) h)
  | response r =>
    refine done (present (presentResponse r s) (fun u hu => ?_) h)
    rcases presentResponse_cases r s with ⟨-, hp⟩ | ⟨q, -, -, hp⟩ | ⟨q, -, -, hp⟩ <;> rw [hp] at hu <;> cases hu
    exact ⟨_, _, _, rfl⟩
  | delayDone =>
    refine done (present (presentDelayDone s) (fun u hu => ?_) h)
    rcases presentDelayDone_cases s with ⟨-, hp⟩ | ⟨d, -, -, -, hp⟩ | ⟨d, -, -, -, hp⟩ <;> rw [hp] at hu <;> cases hu
    exact ⟨_, _, _, rfl⟩
  | lateResponse r =>
    refine done (present (presentLateResponse s) (fun u hu => ?_) h)
    unfold presentLateResponse at hu
    split at hu <;> cases hu
  | lateDelayDone =>
    refine done (present (presentLateDelayDone s) (fun u hu => ?_) h)
    unfold presentLateDelayDone at hu
    split at hu <;> cases hu

end Sys2Proof.Machine
end

