-- ==== Sys2Proof/Laws/Step.lean ====
section
/-! SUPPORT. What an event can do, said once: `Moves s e t` lists every way the block can go from `s` to `t` on event `e`
when its sequencer is in order (the transitions of spec/42_framer_ops.md R166 and the accesses of 43_host_access.md),
and `event_moves` says that these are all. -/

namespace Sys2Proof.Machine

/-- The sequencer state and the request with which an operation begins (R166, rows of IDLE). -/
def firstRequest (op : HostOp) (argl : Byte) : Fsm × Request :=
  match op with
  | .softReset => (.rstW, Request.writeOf [wireSoftReset])
  | .measT => (.measW, Request.writeOf [wireMeasTHold])
  | .measRh => (.measW, Request.writeOf [wireMeasRhHold])
  | .readCfg | .readEob | .heaterOn | .heaterOff => (.cfgrW, Request.writeReadOf wireReadCfg)
  | .writeCfg => (.cfgwW, Request.writeOf [wireWriteCfg, argl])

/-- The kind of the measurement in progress (R157, R158). -/
def kindOf (opl : Byte) : MeasKind := if opl = 0x03 then .humidity else .temperature

/-- Every move of the block on one event, from a state in order. -/
inductive Moves (s : State) : Input → State → Prop where
  /-- A host read. -/
  | read (w : AccessWord) : accessWe w = false → Moves s (.access w) (drive (Reg.ofAddr (accessAddr w)) s)
  /-- A CMD write while BUSY (R186). -/
  | rejected (w : AccessWord) : accessWe w = true → Reg.ofAddr (accessAddr w) = .cmd → s.status.busy = true →
      Moves s (.access w) (reject s)
  /-- A CMD write that starts an operation (R185). -/
  | started (w : AccessWord) (op : HostOp) : accessWe w = true → Reg.ofAddr (accessAddr w) = .cmd →
      s.status.busy = false → s.fsm = .idle → accessData w = op.code →
      Moves s (.access w) (issue (firstRequest op s.arg).1 (firstRequest op s.arg).2 (setBusy (accept op.code s)))
  /-- A CMD write of a reserved byte (R165). -/
  | illegal (w : AccessWord) : accessWe w = true → Reg.ofAddr (accessAddr w) = .cmd → s.status.busy = false →
      s.fsm = .idle → reservedOpByte (accessData w) = true →
      Moves s (.access w) (complete .illegalOp 0 (accept (accessData w) s))
  | wrStatus (w : AccessWord) : accessWe w = true → Reg.ofAddr (accessAddr w) = .status →
      Moves s (.access w) { s with status := s.status.cleared (accessData w) }
  | wrIrqen (w : AccessWord) : accessWe w = true → Reg.ofAddr (accessAddr w) = .irqen →
      Moves s (.access w) { s with doneIe := (accessData w).getLsbD 0 }
  | wrArg (w : AccessWord) : accessWe w = true → Reg.ofAddr (accessAddr w) = .arg →
      Moves s (.access w) { s with arg := accessData w }
  | wrCrc (w : AccessWord) (v : Byte) : accessWe w = true → Reg.ofAddr (accessAddr w) = .crcAcc ∨
      Reg.ofAddr (accessAddr w) = .crcDin → Moves s (.access w) { s with crcAcc := v }
  | wrCodec (w : AccessWord) (v : Byte) : accessWe w = true → Reg.ofAddr (accessAddr w) = .codecByte ∨
      Reg.ofAddr (accessAddr w) = .codecFields → Moves s (.access w) { s with codecByte := v }
  /-- A write to a read-only register (R210). -/
  | readOnly (w : AccessWord) : accessWe w = true →
      Reg.ofAddr (accessAddr w) ∈ [.rawh, .rawl, .mstat, .mcrc, .cfgRd, .cfgWr, .cfgFields, .valid] →
      Moves s (.access w) s
  /-- An answer that nothing waits for (R252). -/
  | stray (e : Input) : ¬ Answers s e → (∀ w, e ≠ .access w) → e ≠ .blockReset → Moves s e s
  | elapsed (ms : Nat) : Moves s (.elapse ms) (elapse ms s)
  | reset : Moves s .blockReset (blockReset s)
  /-- RST_W: any answer starts the delay (R155). -/
  | settle (r : Response) : s.fsm = .rstW → s.opl = HostOp.softReset.code → (r = .ok [] ∨ ∃ c, r = .err c) →
      Moves s (.response r) (issueDelay { s with req := none })
  /-- RST_D: the delay is over (R155). -/
  | resetDone (d : DelayRequest) : s.fsm = .rstD → s.opl = HostOp.softReset.code → s.delay = some d →
      d.since + 15 ≤ s.nowMs →
      Moves s .delayDone (complete .none 0 { s with delay := none, valid := s.valid.afterSoftReset })
  /-- An `Err` ends any other operation with TRANSPORT (R156, R159, R162, R163). -/
  | failed (c : BitVec 2) : s.fsm ∈ [.measW, .measR, .cfgrW, .cfgwW] →
      Moves s (.response (.err c)) (complete .transport c { s with req := none })
  /-- MEAS_W: the command was sent (R156). -/
  | commanded : s.fsm = .measW → s.opl ∈ operationsOf .measW →
      Moves s (.response (.ok [])) (issue .measR Request.readSample { s with req := none })
  /-- MEAS_R: an intact sample (R156). -/
  | sampled (d0 d1 c : Byte) : s.fsm = .measR → s.opl ∈ operationsOf .measR → crc8 [d0, d1] = c →
      Moves s (.response (.ok [d0, d1, c]))
        (complete .none 0 (publishSample (kindOf s.opl) d0 d1 c { s with req := none }))
  /-- MEAS_R: a corrupt one (R144). -/
  | corrupt (d0 d1 c : Byte) : s.fsm = .measR → crc8 [d0, d1] ≠ c →
      Moves s (.response (.ok [d0, d1, c])) (complete .integrity 0 { s with req := none })
  /-- CFGR_W for READ_CFG and READ_EOB (R160, R161). -/
  | readDone (b : Byte) : s.fsm = .cfgrW → s.opl = HostOp.readCfg.code ∨ s.opl = HostOp.readEob.code →
      Moves s (.response (.ok [b])) (complete .none 0 (publishRead b { s with req := none }))
  /-- CFGR_W for the heater operations (R163, R164). -/
  | modified (b p : Byte) : s.fsm = .cfgrW →
      (s.opl = HostOp.heaterOn.code ∧ p = b ||| 0x04) ∨ (s.opl = HostOp.heaterOff.code ∧ p = b &&& 0xFB) →
      Moves s (.response (.ok [b]))
        (issue .cfgwW (Request.writeOf [wireWriteCfg, p]) { s with req := none, tb := b })
  /-- CFGW_W for WRITE_CFG (R162). -/
  | written : s.fsm = .cfgwW → s.opl = HostOp.writeCfg.code →
      Moves s (.response (.ok [])) (complete .none 0 (publishWritten s.argl { s with req := none }))
  /-- CFGW_W for the heater operations (R163, R164). -/
  | heaterDone (p : Byte) : s.fsm = .cfgwW →
      (s.opl = HostOp.heaterOn.code ∧ p = s.tb ||| 0x04) ∨ (s.opl = HostOp.heaterOff.code ∧ p = s.tb &&& 0xFB) →
      Moves s (.response (.ok []))
        (complete .none 0 (publishWritten p (publishRead s.tb { s with req := none })))

/-! ### An idle block starts an operation -/

theorem runOp_idle {op : HostOp} {s : State} (hf : s.fsm = .idle) (hr : s.req = none) (hd : s.delay = none) :
    runOp op s = .next (issue (firstRequest op s.argl).1 (firstRequest op s.argl).2 s) := by
  cases op <;>
    simp [runOp, execSoftReset, execMeasT, execMeasRh, measureRun, execReadCfg, execReadEob, readConfiguration,
      execWriteCfg, execHeaterOn, execHeaterOff, heater, hf, execCmdSoftReset, execCmdMeasTHold, execCmdMeasRhHold,
      measureFrames, execCmdReadCfg, execCmdWriteCfg, firstRequest, send_quiet _ _ hr hd]

theorem acceptCommand_op {s : State} {op : HostOp} (hf : s.fsm = .idle) (hr : s.req = none) (hd : s.delay = none) :
    acceptCommand op.code s =
      .next (issue (firstRequest op s.arg).1 (firstRequest op s.arg).2 (setBusy (accept op.code s))) := by
  simp only [acceptCommand, HostOp.ofByte_code]
  exact runOp_idle (s := setBusy (accept op.code s)) hf hr hd

theorem acceptCommand_reserved {s : State} {b : Byte} (hf : s.fsm = .idle) (h : reservedOpByte b = true) :
    acceptCommand b s = .next (complete .illegalOp 0 (accept b s)) := by
  simp [acceptCommand, (reservedOpByte_iff b).mp h, execIllegal, hf, raise]

theorem reserved_or_code (b : Byte) : reservedOpByte b = true ∨ ∃ op : HostOp, b = op.code := by
  cases h : HostOp.ofByte? b with
  | none => exact .inl ((reservedOpByte_iff b).mpr h)
  | some op => exact .inr ⟨op, (HostOp.code_of_ofByte h).symm⟩

/-! ### Host accesses -/

theorem SequencerInv.idle_of_not_busy {s : State} (hs : SequencerInv s) (hb : s.status.busy = false) :
    s.fsm = .idle ∧ s.req = none ∧ s.delay = none := by
  have hf : s.fsm = .idle := by
    by_contra h
    exact absurd (hs.busy_iff.mpr h) (by simp [hb])
  refine ⟨hf, ?_, ?_⟩
  · rw [hs.request, expectedRequest, hf]
  · have := hs.delay_ms
    simpa [hf] using this

/-- A host access always has a next state, and it is one of the access moves. -/
theorem event_access {s : State} (hs : SequencerInv s) (w : AccessWord) :
    ∃ t, event (.access w) s = .next t ∧ Moves s (.access w) t := by
  show ∃ t, exec (decodeAccess s.status.busy w) s = .next t ∧ _
  by_cases hw : accessWe w = true
  · simp only [decodeAccess, hw, if_true]
    cases hr : Reg.ofAddr (accessAddr w) with
    | cmd =>
      cases hb : s.status.busy with
      | true => exact ⟨_, writeCommand_busy _ hb, .rejected w hw hr hb⟩
      | false =>
        obtain ⟨hf, hq, hd⟩ := hs.idle_of_not_busy hb
        simp only [writeOf, Bool.false_eq_true, if_false, exec, execWrCmd, writeCommand_idle _ hb]
        rcases reserved_or_code (accessData w) with h | ⟨op, h⟩
        · exact ⟨_, acceptCommand_reserved hf h, .illegal w hw hr hb hf h⟩
        · rw [h]
          exact ⟨_, acceptCommand_op hf hq hd, .started w op hw hr hb hf h⟩
    | status => exact ⟨_, rfl, .wrStatus w hw hr⟩
    | irqen => exact ⟨_, rfl, .wrIrqen w hw hr⟩
    | arg => exact ⟨_, rfl, .wrArg w hw hr⟩
    | crcAcc => exact ⟨_, rfl, .wrCrc w _ hw (.inl hr)⟩
    | crcDin => exact ⟨_, rfl, .wrCrc w _ hw (.inr hr)⟩
    | codecByte => exact ⟨_, rfl, .wrCodec w _ hw (.inl hr)⟩
    | codecFields => exact ⟨_, rfl, .wrCodec w _ hw (.inr hr)⟩
    | rawh | rawl | mstat | mcrc | cfgRd | cfgWr | cfgFields | valid =>
      exact ⟨_, rfl, .readOnly w hw (by simp [hr])⟩
  · have hw' : accessWe w = false := by simpa using hw
    refine ⟨_, ?_, .read w hw'⟩
    simp only [decodeAccess, hw', Bool.false_eq_true, if_false]
    cases Reg.ofAddr (accessAddr w) <;> rfl

/-! ### Answers -/

theorem SequencerInv.delay_none {s : State} (hs : SequencerInv s) (hf : s.fsm ≠ .rstD) : s.delay = none := by
  have := hs.delay_ms
  simpa [hf] using this

/-- The running operation receives a response of the right shape. -/
theorem event_response {s : State} (hs : SequencerInv s) {r : Response} {q : Request} (hq : s.req = some q)
    (hr : q.accepts r = true) : ∃ t, event (.response r) s = .next t ∧ Moves s (.response r) t := by
  simp only [event, presentResponse_some hq hr, resume]
  have hreq := hq.symm.trans hs.request
  have hfi : s.fsm ≠ .idle := by intro h; simp [expectedRequest, h] at hreq
  have hop := hs.operation hfi
  cases hf : s.fsm with
  | idle => exact absurd hf hfi
  | rstD => simp [expectedRequest, hf] at hreq
  | rstW =>
    have ho : s.opl = HostOp.softReset.code := by simpa [operationsOf, hf] using hop
    obtain rfl : q = _ := by simpa [expectedRequest, hf] using hreq
    cases r with
    | err c =>
      refine ⟨_, ?_, .settle _ hf ho (.inr ⟨c, rfl⟩)⟩
      simp [ho, decodeOp_code, HostOp.instr, exec, execSoftReset, hf]
      rfl
    | ok bytes =>
      obtain rfl : bytes = [] := by simpa [Request.accepts] using hr
      refine ⟨_, ?_, .settle _ hf ho (.inl rfl)⟩
      simp [ho, decodeOp_code, HostOp.instr, exec, execSoftReset, hf]
      rfl
  | measW =>
    have hd := hs.delay_none (by simp [hf])
    have ho : s.opl = HostOp.measT.code ∨ s.opl = HostOp.measRh.code := by simpa [operationsOf, hf] using hop
    have hm : s.opl ∈ operationsOf .measW := by simpa [operationsOf] using ho
    obtain rfl : q = _ := by simpa [expectedRequest, hf] using hreq
    cases r with
    | err c =>
      refine ⟨_, ?_, .failed c (by simp [hf])⟩
      rcases ho with ho | ho <;> simp [ho, decodeOp_code, HostOp.instr, exec, execMeasT, execMeasRh, measureRun, hf] <;> rfl
    | ok bytes =>
      obtain rfl : bytes = [] := by simpa [Request.accepts] using hr
      refine ⟨_, ?_, .commanded hf hm⟩
      rcases ho with ho | ho <;>
        simp [ho, decodeOp_code, HostOp.instr, exec, execMeasT, execMeasRh, measureRun, hf, execCmdMeasTHold,
          execCmdMeasRhHold, measureFrames, send_quiet, hd] <;> rfl
  | measR =>
    have ho : s.opl = HostOp.measT.code ∨ s.opl = HostOp.measRh.code := by simpa [operationsOf, hf] using hop
    have hm : s.opl ∈ operationsOf .measR := by simpa [operationsOf] using ho
    obtain rfl : q = _ := by simpa [expectedRequest, hf] using hreq
    cases r with
    | err c =>
      refine ⟨_, ?_, .failed c (by simp [hf])⟩
      rcases ho with ho | ho <;> simp [ho, decodeOp_code, HostOp.instr, exec, execMeasT, execMeasRh, measureRun, hf] <;> rfl
    | ok bytes =>
      have hl : bytes.length = 3 := by simpa [Request.accepts] using hr
      obtain ⟨d0, d1, c, rfl⟩ := List.length_eq_three.mp hl
      by_cases hc : crc8 [d0, d1] = c
      · refine ⟨_, ?_, .sampled d0 d1 c hf hm hc⟩
        rcases ho with ho | ho <;>
          simp [ho, decodeOp_code, HostOp.instr, exec, execMeasT, execMeasRh, measureRun, hf, sampleIntact, hc] <;> rfl
      · refine ⟨_, ?_, .corrupt d0 d1 c hf hc⟩
        rcases ho with ho | ho <;>
          simp [ho, decodeOp_code, HostOp.instr, exec, execMeasT, execMeasRh, measureRun, hf, sampleIntact, hc, raise] <;>
          rfl
  | cfgrW =>
    have hd := hs.delay_none (by simp [hf])
    have ho : s.opl = HostOp.readCfg.code ∨ s.opl = HostOp.readEob.code ∨ s.opl = HostOp.heaterOn.code ∨
        s.opl = HostOp.heaterOff.code := by simpa [operationsOf, hf] using hop
    obtain rfl : q = _ := by simpa [expectedRequest, hf] using hreq
    cases r with
    | err c =>
      refine ⟨_, ?_, .failed c (by simp [hf])⟩
      rcases ho with ho | ho | ho | ho <;>
        simp [ho, decodeOp_code, HostOp.instr, exec, execReadCfg, execReadEob, readConfiguration, execHeaterOn,
          execHeaterOff, heater, readCfgThen, hf] <;> rfl
    | ok bytes =>
      have hl : bytes.length = 1 := by simpa [Request.accepts] using hr
      obtain ⟨b, rfl⟩ := List.length_eq_one_iff.mp hl
      rcases ho with ho | ho | ho | ho
      · refine ⟨_, ?_, .readDone b hf (.inl ho)⟩
        simp [ho, decodeOp_code, HostOp.instr, exec, execReadCfg, readConfiguration, readCfgThen, cfgDecode_eq, hf]
        rfl
      · refine ⟨_, ?_, .readDone b hf (.inr ho)⟩
        simp [ho, decodeOp_code, HostOp.instr, exec, execReadEob, readConfiguration, readCfgThen, cfgDecode_eq, hf]
        rfl
      · refine ⟨_, ?_, .modified b _ hf (.inl ⟨ho, rfl⟩)⟩
        simp [ho, decodeOp_code, HostOp.instr, exec, execHeaterOn, heater, readCfgThen, cfgDecode_eq, hf,
          execCmdWriteCfg, send_quiet, hd, setHeater_eq]
        rfl
      · refine ⟨_, ?_, .modified b _ hf (.inr ⟨ho, rfl⟩)⟩
        simp [ho, decodeOp_code, HostOp.instr, exec, execHeaterOff, heater, readCfgThen, cfgDecode_eq, hf,
          execCmdWriteCfg, send_quiet, hd, setHeater_eq]
        rfl
  | cfgwW =>
    have ho : s.opl = HostOp.writeCfg.code ∨ s.opl = HostOp.heaterOn.code ∨ s.opl = HostOp.heaterOff.code := by
      simpa [operationsOf, hf] using hop
    obtain rfl : q = _ := by simpa [expectedRequest, hf] using hreq
    cases r with
    | err c =>
      refine ⟨_, ?_, .failed c (by simp [hf])⟩
      rcases ho with ho | ho | ho <;>
        simp [ho, decodeOp_code, HostOp.instr, exec, execWriteCfg, execHeaterOn, execHeaterOff, heater, writeDoneThen,
          hf] <;> rfl
    | ok bytes =>
      obtain rfl : bytes = [] := by simpa [Request.accepts] using hr
      rcases ho with ho | ho | ho
      · refine ⟨_, ?_, .written hf ho⟩
        simp [ho, decodeOp_code, HostOp.instr, exec, execWriteCfg, writeDoneThen, hf]
        rfl
      · refine ⟨_, ?_, .heaterDone _ hf (.inl ⟨ho, rfl⟩)⟩
        simp [ho, decodeOp_code, HostOp.instr, exec, execHeaterOn, heater, writeDoneThen, hf, setHeater_eq]
        rfl
      · refine ⟨_, ?_, .heaterDone _ hf (.inr ⟨ho, rfl⟩)⟩
        simp [ho, decodeOp_code, HostOp.instr, exec, execHeaterOff, heater, writeDoneThen, hf, setHeater_eq]
        rfl

/-- The running SOFT_RESET receives `delay_done` in time. -/
theorem event_delayDone {s : State} (hs : SequencerInv s) {d : DelayRequest} (hf : s.fsm = .rstD)
    (hd : s.delay = some d) (ht : d.since + d.ms ≤ s.nowMs) :
    ∃ t, event .delayDone s = .next t ∧ Moves s .delayDone t := by
  have ho : s.opl = HostOp.softReset.code := by
    simpa [operationsOf, hf] using hs.operation (by simp [hf])
  have hms : d.ms = 15 := by simpa [hf, hd] using hs.delay_ms
  refine ⟨_, ?_, .resetDone d hf ho hd (by omega)⟩
  simp only [event, presentDelayDone_ready hf hd ht, resume, ho, decodeOp_code, HostOp.instr, exec]
  simp [execSoftReset, hf]
  rfl

/-! ### All events -/

/-- An answer to what is outstanding has a next state, by one of the moves. -/
theorem event_of_answers {s : State} (hs : SequencerInv s) {e : Input} (h : Answers s e) :
    ∃ t, event e s = .next t ∧ Moves s e t := by
  cases e with
  | response r => obtain ⟨q, hq, hr⟩ := h; exact event_response hs hq hr
  | delayDone => obtain ⟨hf, d, hd, ht⟩ := h; exact event_delayDone hs hf hd ht
  | _ => exact absurd h (by simp [Answers])

/-- Whatever happens to a state in order is one of the moves. -/
theorem event_moves {s t : State} (hs : SequencerInv s) {e : Input} (h : event e s = .next t) : Moves s e t := by
  by_cases ha : Answers s e
  · obtain ⟨t', ht', hm⟩ := event_of_answers hs ha
    rw [h] at ht'
    cases ht'
    exact hm
  · cases e with
    | access w =>
      obtain ⟨t', ht', hm⟩ := event_access hs w
      rw [h] at ht'
      cases ht'
      exact hm
    | response r =>
      rcases presentResponse_cases r s with ⟨hn, hp⟩ | ⟨q, hq, hr, -⟩ | ⟨q, hq, hr, hp⟩
      · simp only [event, hp, resume] at h
        cases h
        exact .stray _ ha (by simp) (by simp)
      · exact absurd ⟨q, hq, hr⟩ ha
      · simp [event, hp, resume] at h
    | secondResponse r =>
      simp only [event, presentSecondResponse, resume] at h
      cases h
      exact .stray _ ha (by simp) (by simp)
    | delayDone =>
      rcases presentDelayDone_cases s with ⟨-, hp⟩ | ⟨d, hf, hd, ht, -⟩ | ⟨d, -, -, -, hp⟩
      · simp only [event, hp, resume] at h
        cases h
        exact .stray _ ha (by simp) (by simp)
      · exact absurd ⟨hf, d, hd, ht⟩ ha
      · simp [event, hp, resume] at h
    | lateResponse r =>
      simp only [event, presentLateResponse] at h
      split at h <;> simp only [resume] at h <;> cases h
      exact .stray _ ha (by simp) (by simp)
    | lateDelayDone =>
      simp only [event, presentLateDelayDone] at h
      split at h <;> simp only [resume] at h <;> cases h
      exact .stray _ ha (by simp) (by simp)
    | elapse ms => cases h; exact .elapsed ms
    | blockReset => cases h; exact .reset

/-! ### Taking an event -/

theorem sequencerInv_takeEvent {s : State} (rest : List Input) (hs : SequencerInv s) : SequencerInv (takeEvent rest s) where
  busy_iff := hs.busy_iff
  request := hs.request
  delay_ms := hs.delay_ms
  delay_since := hs.delay_since
  operation := hs.operation
  command := hs.command
  arrival := hs.arrival

/-- A step with a next state either had no event to take, or is one of the moves after taking it. -/
theorem step_moves {s t : State} (hs : SequencerInv s) (h : step s = .next t) :
    (s.inbox = [] ∧ t = s) ∨ ∃ e rest, s.inbox = e :: rest ∧ Moves (takeEvent rest s) e t := by
  cases hi : s.inbox with
  | nil => rw [step_nil hi] at h; cases h; exact .inl ⟨rfl, rfl⟩
  | cons e rest =>
    rw [step_cons hi] at h
    exact .inr ⟨e, rest, rfl, event_moves (sequencerInv_takeEvent rest hs) h⟩

/-! ### Steps on the host's accesses -/

theorem step_write {s : State} {r : Reg} {v : Byte} {rest : List Input} (h : s.inbox = .access (wrWord r v) :: rest) :
    step s = exec (writeOf s.status.busy r v) (takeEvent rest s) := by
  rw [step_cons h]
  simp only [event, wrWord, decodeAccess_write, takeEvent_status]

theorem step_read {s : State} {r : Reg} {rest : List Input} (h : s.inbox = .access (rdWord r) :: rest) :
    step s = .next (drive r (takeEvent rest s)) := by
  rw [step_cons h]
  simp only [event, rdWord, decodeAccess_read]
  cases r <;> rfl

theorem step_op {s : State} {op : HostOp} {rest : List Input} (h : s.inbox = .access (wrWord .cmd op.code) :: rest)
    (hb : s.status.busy = false) (hf : s.fsm = .idle) (hr : s.req = none) (hd : s.delay = none) :
    step s = .next (issue (firstRequest op s.arg).1 (firstRequest op s.arg).2
      (setBusy (accept op.code (takeEvent rest s)))) := by
  rw [step_write h, hb]
  exact (writeCommand_idle (s := takeEvent rest s) _ hb).trans (acceptCommand_op hf hr hd)

theorem step_reserved {s : State} {v : Byte} {rest : List Input} (h : s.inbox = .access (wrWord .cmd v) :: rest)
    (hb : s.status.busy = false) (hf : s.fsm = .idle) (hv : reservedOpByte v = true) :
    step s = .next (complete .illegalOp 0 (accept v (takeEvent rest s))) := by
  rw [step_write h, hb]
  exact (writeCommand_idle (s := takeEvent rest s) _ hb).trans (acceptCommand_reserved hf hv)

/-- An answer of the right shape resumes the operation OPL names. -/
theorem step_response {s : State} {r : Response} {q : Request} {rest : List Input}
    (h : s.inbox = .response r :: rest) (hq : s.req = some q) (hr : q.accepts r = true) :
    step s = exec (decodeOp s.opl) { takeEvent rest s with req := none, arrival := some (.response r) } := by
  rw [step_cons h]
  simp only [event, presentResponse_some (s := takeEvent rest s) hq hr, resume]
  rfl

/-! ### Runs -/

theorem run_zero (s : State) : core.run 0 s = .next s := rfl

theorem run_next {s t : State} (n : Nat) (h : step s = .next t) : core.run (n + 1) s = core.run n t := by
  have h' : core.step s = .next t := h
  simp only [Host.Core.run, h']

end Sys2Proof.Machine
end

