-- ==== Sys2Proof/Laws/Host.lean ====
section
/-! SUPPORT. The host's side: what an event presented to the block does, one lemma per function of Machine/Assembly.lean
and Machine/Conversion.lean, and what leaves the host CRC unit alone. -/

namespace Sys2Proof.Machine

/-! ### Presenting events -/

/-- An event put before the inbox happens, and the inbox is as before. -/
theorem step_present (e : Input) (s : State) :
    step { s with inbox := e :: s.inbox } = event e { s with hRdata := none } := rfl

@[simp] theorem runEvents_nil (s : State) : runEvents [] s = .next s := rfl

theorem runEvents_cons {e : Input} {s t : State} (es : List Input) (h : event e { s with hRdata := none } = .next t) :
    runEvents (e :: es) s = runEvents es t := by
  simp only [runEvents, step_present, h]

/-- Events in a row that go through can be cut anywhere. -/
theorem runEvents_append {es : List Input} {s t : State} (fs : List Input) (h : runEvents es s = .next t) :
    runEvents (es ++ fs) s = runEvents fs t := by
  induction es generalizing s with
  | nil => cases h; rfl
  | cons e es ih =>
    simp only [runEvents, List.cons_append] at h ⊢
    split at h
    · next u hu => exact ih h
    · cases h
    · cases h

/-- A host read, whatever the state. -/
theorem runEvents_read (r : Reg) (s : State) :
    runEvents [.access (rdWord r)] s = .next { s with hRdata := some (s.readReg r) } := by
  have h : step { s with inbox := .access (rdWord r) :: s.inbox } = .next { s with hRdata := some (s.readReg r) } :=
    step_read (s := { s with inbox := .access (rdWord r) :: s.inbox }) rfl
  simp only [runEvents, h]

/-! ### The wait loop -/

@[simp] theorem RunEnd.after_next (s : State) (k : State → RunEnd) : RunEnd.after (.next s) k = k s := rfl

/-- Bit 0 of STATUS is BUSY (10_state.md R28). -/
theorem status_bit_zero (st : Status) : st.toByte.getLsbD 0 = st.busy := by
  obtain ⟨busy, done, err, ovr, txerr⟩ := st
  cases busy <;> cases done <;> cases err <;> cases ovr <;> revert txerr <;> decide

@[simp] theorem waitExits_status (s : State) : waitExits (s.readReg .status) = !s.status.busy :=
  congrArg (!·) (status_bit_zero s.status)

/-- One turn of the loop: the turn's events, one read of STATUS, and the end if it shows BUSY = 0. -/
theorem runWait_turn {turn : List Input} {s t : State} (turns : List (List Input)) (h : runEvents turn s = .next t) :
    runWait (turn :: turns) s =
      if t.status.busy then runWait turns { t with hRdata := some (t.readReg .status) }
      else .done { t with hRdata := some (t.readReg .status) } turns := by
  simp only [runWait]
  rw [runEvents_append _ h]
  simp only [AsmLine.inputs, AsmLine.words, List.map_cons, List.map_nil, runEvents_read, RunEnd.after_next, Option.any_some,
    waitExits_status]
  cases t.status.busy <;> rfl

/-- The last turn. -/
theorem runWait_last (s : State) :
    runWait [] s =
      if s.status.busy then .waiting { s with hRdata := some (s.readReg .status) }
      else .done { s with hRdata := some (s.readReg .status) } [] := by
  simp only [runWait, AsmLine.inputs, AsmLine.words, List.map_cons, List.map_nil, runEvents_read, RunEnd.after_next,
    Option.any_some, waitExits_status]
  cases s.status.busy <;> rfl

/-! ### Result registers and conversions -/

theorem shownCompletion_idle {s : State} (h : s.status.busy = false) :
    s.shownCompletion? = some { op := s.cmd, err := s.status.err } := by
  simp [State.shownCompletion?, h]

/-- An idle state shows the most recent completion itself. -/
theorem lastCompletion_idle {s : State} (past : List State) (h : s.status.busy = false) :
    lastCompletion? (s :: past) = some { op := s.cmd, err := s.status.err } := by
  simp [lastCompletion?, shownCompletion_idle h]

/-- While an operation is in progress the most recent completion is that of the states before. -/
theorem lastCompletion_busy {s : State} (past : List State) (h : s.status.busy = true) :
    lastCompletion? (s :: past) = lastCompletion? past := by
  simp [lastCompletion?, State.shownCompletion?, h]

/-- The three conditions of 70_reset_and_hazards.md R254. -/
theorem resultMeaningful_iff {r : Reg} {last : Option Completion} {s : State} :
    s.resultMeaningful r last = true ↔
      ∃ c, last = some c ∧ c.err = .none ∧ (∃ op ∈ resultWriters r, op.code = c.op) ∧ s.valid.bitOf r = true := by
  cases last <;> simp [State.resultMeaningful, and_assoc]

/-- The meaning depends on the most recent completion and VALID only. -/
theorem resultMeaningful_congr (r : Reg) (last : Option Completion) {s t : State} (h : s.valid = t.valid) :
    s.resultMeaningful r last = t.resultMeaningful r last := by
  cases last <;> simp [State.resultMeaningful, h]

@[simp] theorem evalConv_raw {α : Type} (n : NumType α) (k : Nat) : evalConv n k .raw = n.lit k := rfl
@[simp] theorem evalConv_lit {α : Type} (n : NumType α) (k : Nat) (q : ℚ) : evalConv n k (.lit q) = n.lit q := rfl
@[simp] theorem evalConv_add {α : Type} (n : NumType α) (k : Nat) (a b : ConvExpr) :
    evalConv n k (.add a b) = n.add (evalConv n k a) (evalConv n k b) := rfl
@[simp] theorem evalConv_mul {α : Type} (n : NumType α) (k : Nat) (a b : ConvExpr) :
    evalConv n k (.mul a b) = n.mul (evalConv n k a) (evalConv n k b) := rfl
@[simp] theorem evalConv_div {α : Type} (n : NumType α) (k : Nat) (a b : ConvExpr) :
    evalConv n k (.div a b) = n.div (evalConv n k a) (evalConv n k b) := rfl

/-- The count a host converts is a 16-bit one. -/
theorem countOf_lt {kind : MeasKind} {last : Option Completion} {s : State} {raw : Nat}
    (h : s.countOf? kind last = some raw) : raw < 65536 := by
  unfold State.countOf? at h
  split at h
  · cases h
    exact (s.rawh ++ s.rawl).isLt
  · cases h

/-! ### Interrupts at the host -/

@[simp] theorem statesOf_zero (s : State) : statesOf 0 s = [s] := rfl

theorem statesOf_succ {s t : State} (n : Nat) (h : step s = .next t) : statesOf (n + 1) s = statesOf n t ++ [s] := by
  simp only [statesOf, h]

/-- The host sees the block's runs only through their levels of `irq` (60_exceptions.md R230). -/
theorem interruptsThrough_congr (routing : IrqRouting) {ss ts : List State} (h : ss.map State.irq = ts.map State.irq) :
    interruptsThrough routing ss = interruptsThrough routing ts :=
  congrArg routing h

/-! ### The host CRC unit -/

/-- An access other than a write to CRC_ACC or CRC_DIN leaves the unit alone, whatever the state. -/
theorem event_access_crcAcc {w : AccessWord} {s t : State} (hl : leavesCrcUnit (.access w))
    (h : event (.access w) s = .next t) : t.crcAcc = s.crcAcc ∧ t.inbox = s.inbox := by
  have h : exec (decodeAccess s.status.busy w) s = .next t := h
  by_cases hw : accessWe w = true
  · obtain ⟨ha, hd⟩ := hl hw
    simp only [decodeAccess, hw, if_true] at h
    cases hr : Reg.ofAddr (accessAddr w) with
    | crcAcc => exact absurd hr ha
    | crcDin => exact absurd hr hd
    | cmd =>
      cases hb : s.status.busy with
      | true =>
        have h : writeCommand (accessData w) s = .next t := by simpa [hr, hb, writeOf, exec, execWrCmdRejected] using h
        rw [writeCommand_busy _ hb] at h
        cases h
        exact ⟨rfl, rfl⟩
      | false =>
        have h : writeCommand (accessData w) s = .next t := by simpa [hr, hb, writeOf, exec, execWrCmd] using h
        rw [writeCommand_idle _ hb, acceptCommand] at h
        split at h
        · have ho := runOp_effect h
          exact ⟨congrArg (fun p => p.2.2.2.1) ho.host, ho.port.2.1⟩
        · have ho := execIllegal_effect h
          exact ⟨congrArg (fun p => p.2.2.2.1) ho.host, ho.port.2.1⟩
    | status | irqen | arg | codecByte | codecFields | rawh | rawl | mstat | mcrc | cfgRd | cfgWr | cfgFields | valid =>
      rw [hr] at h
      cases h
      exact ⟨rfl, rfl⟩
  · simp only [decodeAccess, hw] at h
    cases hr : Reg.ofAddr (accessAddr w) <;> rw [hr] at h <;> cases h <;> exact ⟨rfl, rfl⟩

/-- No event but block reset and a host write to CRC_ACC or CRC_DIN changes CRC_ACC (41_checksum.md R148, R151). -/
theorem event_crcAcc {e : Input} {s t : State} (hl : leavesCrcUnit e) (h : event e s = .next t) :
    t.crcAcc = s.crcAcc ∧ t.inbox = s.inbox := by
  have answer (ha : ∀ w, e ≠ .access w) (hr : e ≠ .blockReset) : t.crcAcc = s.crcAcc ∧ t.inbox = s.inbox := by
    obtain ⟨-, -, ho, -, hi⟩ := event_answer_effect ha hr h
    exact ⟨congrArg (fun p => p.2.2.2.1) ho, hi⟩
  cases e with
  | access w => exact event_access_crcAcc hl h
  | blockReset => exact absurd hl (by simp [leavesCrcUnit])
  | response | secondResponse | delayDone | lateResponse | lateDelayDone | elapse => exact answer (by simp) (by simp)

end Sys2Proof.Machine
end

