-- ==== Sys2Proof/Laws/PerInstr.lean ====
section
/-! SUPPORT. The statement families made per instruction (LAWS.json "per_instruction"). RoundTrip: decoding the words of
a well-formed instruction gives it back, under the BUSY value its row asks for (spec/30_encoding.md R91, R93, R101). -/

namespace Sys2Proof.Laws.RoundTrip

/-- The round trip of one instruction. -/
def Statement (i : Instr) : Prop :=
  ∀ busy : Bool, i.wellFormed = true → i.admitsBusy busy = true → decode busy (encode i) = .ok i

theorem softReset : Statement .softReset := fun _ _ _ => rfl
theorem measT : Statement .measT := fun _ _ _ => rfl
theorem measRh : Statement .measRh := fun _ _ _ => rfl
theorem readCfg : Statement .readCfg := fun _ _ _ => rfl
theorem writeCfg : Statement .writeCfg := fun _ _ _ => rfl
theorem heaterOn : Statement .heaterOn := fun _ _ _ => rfl
theorem heaterOff : Statement .heaterOff := fun _ _ _ => rfl
theorem readEob : Statement .readEob := fun _ _ _ => rfl
theorem illegal (b : Byte) : Statement (.illegal b) := fun _ h _ => congrArg Except.ok (decodeOp_reserved h)
theorem rdCmd (d : Byte) : Statement (.rdCmd d) := fun _ _ _ => by simp [encode, decode, readOf]
theorem rdStatus (d : Byte) : Statement (.rdStatus d) := fun _ _ _ => by simp [encode, decode, readOf]
theorem rdIrqen (d : Byte) : Statement (.rdIrqen d) := fun _ _ _ => by simp [encode, decode, readOf]
theorem rdArg (d : Byte) : Statement (.rdArg d) := fun _ _ _ => by simp [encode, decode, readOf]
theorem rdRawh (d : Byte) : Statement (.rdRawh d) := fun _ _ _ => by simp [encode, decode, readOf]
theorem rdRawl (d : Byte) : Statement (.rdRawl d) := fun _ _ _ => by simp [encode, decode, readOf]
theorem rdMstat (d : Byte) : Statement (.rdMstat d) := fun _ _ _ => by simp [encode, decode, readOf]
theorem rdMcrc (d : Byte) : Statement (.rdMcrc d) := fun _ _ _ => by simp [encode, decode, readOf]
theorem rdCfgRd (d : Byte) : Statement (.rdCfgRd d) := fun _ _ _ => by simp [encode, decode, readOf]
theorem rdCfgWr (d : Byte) : Statement (.rdCfgWr d) := fun _ _ _ => by simp [encode, decode, readOf]
theorem rdCfgFields (d : Byte) : Statement (.rdCfgFields d) := fun _ _ _ => by simp [encode, decode, readOf]
theorem rdCrcAcc (d : Byte) : Statement (.rdCrcAcc d) := fun _ _ _ => by simp [encode, decode, readOf]
theorem rdCrcDin (d : Byte) : Statement (.rdCrcDin d) := fun _ _ _ => by simp [encode, decode, readOf]
theorem rdCodecByte (d : Byte) : Statement (.rdCodecByte d) := fun _ _ _ => by simp [encode, decode, readOf]
theorem rdCodecFields (d : Byte) : Statement (.rdCodecFields d) := fun _ _ _ => by simp [encode, decode, readOf]
theorem rdValid (d : Byte) : Statement (.rdValid d) := fun _ _ _ => by simp [encode, decode, readOf]
theorem wrCmd (v : Byte) : Statement (.wrCmd v) := fun busy _ h => by
  cases busy <;> simp_all [encode, decode, writeOf, Instr.admitsBusy]
theorem wrCmdRejected (v : Byte) : Statement (.wrCmdRejected v) := fun busy _ h => by
  cases busy <;> simp_all [encode, decode, writeOf, Instr.admitsBusy]
theorem wrStatus (v : Byte) : Statement (.wrStatus v) := fun _ _ _ => by simp [encode, decode, writeOf]
theorem wrIrqen (v : Byte) : Statement (.wrIrqen v) := fun _ _ _ => by simp [encode, decode, writeOf]
theorem wrArg (v : Byte) : Statement (.wrArg v) := fun _ _ _ => by simp [encode, decode, writeOf]
theorem wrRoRawh (v : Byte) : Statement (.wrRoRawh v) := fun _ _ _ => by simp [encode, decode, writeOf]
theorem wrRoRawl (v : Byte) : Statement (.wrRoRawl v) := fun _ _ _ => by simp [encode, decode, writeOf]
theorem wrRoMstat (v : Byte) : Statement (.wrRoMstat v) := fun _ _ _ => by simp [encode, decode, writeOf]
theorem wrRoMcrc (v : Byte) : Statement (.wrRoMcrc v) := fun _ _ _ => by simp [encode, decode, writeOf]
theorem wrRoCfgRd (v : Byte) : Statement (.wrRoCfgRd v) := fun _ _ _ => by simp [encode, decode, writeOf]
theorem wrRoCfgWr (v : Byte) : Statement (.wrRoCfgWr v) := fun _ _ _ => by simp [encode, decode, writeOf]
theorem wrRoCfgFields (v : Byte) : Statement (.wrRoCfgFields v) := fun _ _ _ => by simp [encode, decode, writeOf]
theorem wrCrcAcc (v : Byte) : Statement (.wrCrcAcc v) := fun _ _ _ => by simp [encode, decode, writeOf]
theorem wrCrcDin (v : Byte) : Statement (.wrCrcDin v) := fun _ _ _ => by simp [encode, decode, writeOf]
theorem wrCodecByte (v : Byte) : Statement (.wrCodecByte v) := fun _ _ _ => by simp [encode, decode, writeOf]
theorem wrCodecFields (v : Byte) : Statement (.wrCodecFields v) := fun _ _ _ => by simp [encode, decode, writeOf]
theorem wrRoValid (v : Byte) : Statement (.wrRoValid v) := fun _ _ _ => by simp [encode, decode, writeOf]
theorem cmdSoftReset : Statement .cmdSoftReset := fun _ _ _ => rfl
theorem cmdMeasTHold : Statement .cmdMeasTHold := fun _ _ _ => rfl
theorem cmdMeasRhHold : Statement .cmdMeasRhHold := fun _ _ _ => rfl
theorem cmdWriteCfg (b : Byte) : Statement (.cmdWriteCfg b) := fun _ _ _ => rfl
theorem cmdReadCfg : Statement .cmdReadCfg := fun _ _ _ => rfl

end Sys2Proof.Laws.RoundTrip
end

