-- ==== Sys2Proof/Tests/Slice0.lean ====
section
/-! SUPPORT. The model's own tests and the witnesses of its statements' hypotheses. Expected values come from
spec/95_test_vectors.md or from the rule named; each machine test is one step on a small state. -/

namespace Sys2Proof.Tests

open Sys2Proof.Machine

/-! ### Small states -/

/-- The state after reset with events to come. -/
def idleAt (es : List Input) : State := { State.reset with inbox := es }

/-- An operation in progress. -/
def waiting (op : HostOp) (f : Fsm) (q : Option Request) (es : List Input) : State :=
  { State.reset with
    cmd := op.code, opl := op.code, fsm := f, req := q, inbox := es
    status := { busy := true, done := false, err := .none, ovr := false, txerr := 0 } }

/-- SOFT_RESET in its delay, requested at 100 ms. -/
def settling (now : Nat) (es : List Input) : State :=
  { waiting .softReset .rstD none es with delay := some ⟨15, 100⟩, nowMs := now }

/-- An operation whose await has just received `a`. -/
def answered (op : HostOp) (f : Fsm) (a : Arrival) : State := { waiting op f none [] with arrival := some a }

/-- What `f` sees of the next state. -/
def seen {α : Type} (f : State → α) (r : Result) : Option α :=
  match r with
  | .next t => some (f t)
  | .fault _ => none
  | .refused _ => none

/-- The state after one event. -/
def after {α : Type} (s : State) (f : State → α) : Option α := seen f (step s)

/-- A request's bytes: its address is a constant without a value. -/
def bytesOut (s : State) : Option (RequestKind × List Byte × Nat) := s.req.map fun q => (q.kind, q.wbytes, q.rlen)

/-! ### Well-formedness smoke -/

/-- ILLEGAL with an operation's own byte is ill-formed (30_encoding.md R94, R95), at both ends of the range. -/
theorem test_ill_formed_illegal_first : (Instr.illegal 0x01).wellFormed = false := by decide
theorem test_ill_formed_illegal_last : (Instr.illegal 0x08).wellFormed = false := by decide
theorem test_well_formed_illegal : (Instr.illegal 0x09).wellFormed = true := by decide
/-- The WR.CMD rows ask for their BUSY value (R185, R186). -/
theorem test_ill_placed_wrCmd : (Instr.wrCmd 0x02).admitsBusy true = false := by decide
theorem test_ill_placed_wrCmdRejected : (Instr.wrCmdRejected 0x02).admitsBusy false = false := by decide

/-! ### Decoding: words written out from the spec's encodings -/

/-- HOSTACC reads, `0aaaadddddddd` (R91; 43_host_access.md). -/
theorem test_decode_reads :
    ([0b0000000000000, 0b0000100000000, 0b0001000000000, 0b0001100000000, 0b0010000000000, 0b0010100000000,
      0b0011000000000, 0b0011100000000, 0b0100000000000, 0b0100100000000, 0b0101000000000, 0b0101100000000,
      0b0110000000000, 0b0110100000000, 0b0111000000000, 0b0111111111111] : List AccessWord).map (decodeAccess false) =
    [.rdCmd 0, .rdStatus 0, .rdIrqen 0, .rdArg 0, .rdRawh 0, .rdRawl 0, .rdMstat 0, .rdMcrc 0, .rdCfgRd 0, .rdCfgWr 0,
      .rdCfgFields 0, .rdCrcAcc 0, .rdCrcDin 0, .rdCodecByte 0, .rdCodecFields 0, .rdValid 0xFF] := by decide

/-- HOSTACC writes, `1aaaadddddddd` (R91; 43_host_access.md). -/
theorem test_decode_writes :
    ([0b1000000000010, 0b1000100100010, 0b1001000000001, 0b1001101011010, 0b1010001010101, 0b1010101010101,
      0b1011001010101, 0b1011101010101, 0b1100001010101, 0b1100101010101, 0b1101001010101, 0b1101100110001,
      0b1110001101000, 0b1110110000001, 0b1111000001011, 0b1111111111111] : List AccessWord).map (decodeAccess false) =
    [.wrCmd 0x02, .wrStatus 0x22, .wrIrqen 0x01, .wrArg 0x5A, .wrRoRawh 0x55, .wrRoRawl 0x55, .wrRoMstat 0x55,
      .wrRoMcrc 0x55, .wrRoCfgRd 0x55, .wrRoCfgWr 0x55, .wrRoCfgFields 0x55, .wrCrcAcc 0x31, .wrCrcDin 0x68,
      .wrCodecByte 0x81, .wrCodecFields 0x0B, .wrRoValid 0xFF] := by decide

/-- The word of WR.CMD while BUSY (R186). -/
theorem test_decode_rejected : decodeAccess true 0b1000000000100 = .wrCmdRejected 0x04 := by decide

/-- CMD bytes (R94), and reserved ones beside them (R95). -/
theorem test_decode_operations :
    ([0b00000001, 0b00000010, 0b00000011, 0b00000100, 0b00000101, 0b00000110, 0b00000111, 0b00001000, 0b00001001,
      0b00010010] : List Byte).map decodeOp =
    [.softReset, .measT, .measRh, .readCfg, .writeCfg, .heaterOn, .heaterOff, .readEob, .illegal 0x09, .illegal 0x12] := by
  decide

/-- Written frames (R100, R101). -/
theorem test_decode_frames :
    decodeFrame [0b11111110] = .ok .cmdSoftReset ∧ decodeFrame [0b11100011] = .ok .cmdMeasTHold ∧
    decodeFrame [0b11100101] = .ok .cmdMeasRhHold ∧ decodeFrame [0b11100110, 0x3E] = .ok (.cmdWriteCfg 0x3E) ∧
    decodeFrame [0b11100111] = .ok .cmdReadCfg := by decide

/-- Frames that are none (R103, R106): no byte, no-hold commands, a missing and an extra payload byte. -/
theorem test_decode_frames_rejected :
    decodeFrame [] = .error .emptyFrame ∧ decodeFrame [0xF3] = .error (.unknownCommand 0xF3) ∧
    decodeFrame [0xE6] = .error (.frameLength 0xE6 0) ∧ decodeFrame [0xFE, 0x00] = .error (.frameLength 0xFE 1) := by
  decide

/-- Words as the opcode table numbers them. -/
theorem test_decode_table_words :
    decodeTableWord 16 0x1F00 = some (.wrRoValid 0x00) ∧ decodeTableWord 8 0x02 = some .measT ∧
    decodeTableWord 8 0xE6 = some (.cmdWriteCfg 0x00) ∧ decodeTableWord 8 0x00 = some (.illegal 0x00) ∧
    decodeTableWord 16 0x2000 = none := by decide

/-! ### Codec and checksum (95_test_vectors.md sections 2 and 3) -/

theorem test_fieldview : ([0x02, 0x38, 0x42, 0x80, 0x83, 0x17, 0xC7] : List Byte).map fieldview =
    [0x08, 0xE0, 0x18, 0x02, 0x0B, 0x4D, 0x1F] := by decide

theorem test_byteview : ([0x02, 0x06, 0x08, 0x0B, 0x10, 0xE9] : List Byte).map byteview =
    [0x80, 0x84, 0x02, 0x83, 0x40, 0x3B] := by decide

theorem test_cfgDecode : cfgDecode 0x17 = some ⟨.res8, 0, 0b010, 1, 1⟩ := by decide

theorem test_crc_single : ([0x01, 0x80, 0xFF, 0x31, 0x68, 0x7C] : List Byte).map (crc8Step 0x00) =
    [0x31, 0x7A, 0xAC, 0xF4, 0x02, 0x85] := by decide

theorem test_crc_sample : crc8Step 0x85 0x80 = 0xF5 ∧ crc8Step 0x02 0x3A = 0x7C := by decide

/-! ### Host accesses (95_test_vectors.md section 5) -/

/-- `wr CMD, 0x02` accepted: STATUS 0x01, FSM MEAS_W, Write([0xE3]) outstanding. -/
theorem test_wrCmd_accepted : after (idleAt [.access 0x1002]) (fun t => (t.cmd, t.status.toByte, t.fsm, bytesOut t)) =
    some (0x02, 0x01, .measW, some (.write, [0xE3], 0)) := by rfl

/-- `wr CMD, 0x04` during MEAS_T: STATUS 0x21, CMD stays 0x02. -/
theorem test_wrCmd_rejected :
    after (waiting .measT .measW none [.access 0x1004]) (fun t => (t.cmd, t.status.toByte, t.fsm)) =
      some (0x02, 0x21, .measW) := by decide

/-- ILLEGAL 0x10: STATUS 0x12, CMD 0x10. -/
theorem test_illegal : after (idleAt [.access 0x1010]) (fun t => (t.cmd, t.status.toByte, t.fsm, t.req)) =
    some (0x10, 0x12, .idle, none) := by decide

/-- `wr STATUS, 0xFF` on STATUS 0xA6 leaves 0x84. -/
theorem test_wrStatus :
    seen (fun t => t.status.toByte) (exec (.wrStatus 0xFF)
      { State.reset with status := { busy := false, done := true, err := .transport, ovr := true, txerr := 0b10 } }) =
      some 0x84 := by decide

/-- `wr STATUS, 0x00` on STATUS 0x22 clears nothing. -/
theorem test_wrStatus_zero :
    seen (fun t => t.status.toByte) (exec (.wrStatus 0x00)
      { State.reset with status := { busy := false, done := true, err := .none, ovr := true, txerr := 0 } }) =
      some 0x22 := by decide

/-- `wr IRQEN, 0xFF` reads back 0x01. -/
theorem test_wrIrqen : after (idleAt [.access 0x12FF]) (fun t => t.readReg .irqen) = some 0x01 := by decide

theorem test_wrArg : after (idleAt [.access 0x135A]) (fun t => t.arg) = some 0x5A := by decide

/-- `wr CODEC_BYTE, 0x81` gives the field view 0x03. -/
theorem test_wrCodecByte : after (idleAt [.access 0x1D81]) (fun t => t.readReg .codecFields) = some 0x03 := by decide

/-- `wr CODEC_FIELDS, 0x06` gives the byte 0x84. -/
theorem test_wrCodecFields : after (idleAt [.access 0x1E06]) (fun t => t.readReg .codecByte) = some 0x84 := by decide

theorem test_wrCrcAcc : after (idleAt [.access 0x1B31]) (fun t => t.crcAcc) = some 0x31 := by decide

/-- `wr CRC_DIN, 0x68` from 0x00 gives 0x02. -/
theorem test_wrCrcDin : after (idleAt [.access 0x1C68]) (fun t => t.crcAcc) = some 0x02 := by decide

/-- `wr VALID, 0xFF` is ignored. -/
theorem test_wrRo : after (idleAt [.access 0x1FFF]) (fun t => t.readReg .valid) = some 0x00 := by decide

/-- `rd CFG_FIELDS` with CFG_RD 0x3A gives 0xE8, whatever the data bits; `rd CRC_DIN` gives 0x00. -/
theorem test_rdCfgFields : seen (fun t => t.hRdata) (exec (.rdCfgFields 0x77) { State.reset with cfgRd := 0x3A }) =
    some (some 0xE8) := by decide
theorem test_rdCrcDin : after { idleAt [.access 0x0C00] with crcAcc := 0x7C } (fun t => (t.hRdata, t.crcAcc)) =
    some (some 0x00, 0x7C) := by decide

/-! ### Operations (95_test_vectors.md section 4) -/

theorem test_softReset_first_write : after (idleAt [.access 0x1001]) (fun t => (t.fsm, bytesOut t)) =
    some (.rstW, some (.write, [0xFE], 0)) := by rfl

/-- A failed Write of SOFT_RESET still starts the delay. -/
theorem test_softReset_error_discarded :
    after (waiting .softReset .rstW (some (Request.writeOf [0xFE])) [.response (.err 0b01)])
      (fun t => (t.fsm, t.delay, t.status.toByte)) = some (.rstD, some ⟨15, 0⟩, 0x01) := by rfl

/-- The delay's end: VALID 0x07 becomes 0x01, STATUS 0x02. -/
theorem test_softReset_done :
    after { settling 115 [.delayDone] with valid := ⟨true, true, true⟩ }
      (fun t => (t.fsm, t.valid.toByte, t.status.toByte)) = some (.idle, 0x01, 0x02) := by decide

/-- R262: one millisecond earlier is outside the contract. -/
theorem test_softReset_early : step (settling 114 [.delayDone]) = .refused .earlyDelayDone := by rfl

/-- MEAS_T, Write answered: Read(3). -/
theorem test_measT_read :
    after (waiting .measT .measW (some (Request.writeOf [0xE3])) [.response (.ok [])]) (fun t => (t.fsm, bytesOut t)) =
      some (.measR, some (.read, [], 3)) := by rfl

/-- MEAS_T, `[0x68, 0x3A, 0x7C]`: RAWH 0x68, RAWL 0x38, MSTAT 0x02, MCRC 0x7C, MEAS_V 1, STATUS 0x02. -/
theorem test_measT_sample :
    seen (fun t => (t.rawh, t.rawl, t.mstat.toByte, t.mcrc, t.valid.toByte, t.status.toByte))
      (exec .measT (answered .measT .measR (.response (.ok [0x68, 0x3A, 0x7C])))) =
      some (0x68, 0x38, 0x02, 0x7C, 0x01, 0x02) := by decide +kernel

/-- MEAS_RH, status bits 10, `[0x7C, 0x82, 0x97]`: RAWL 0x80, MSTAT 0x06. -/
theorem test_measRh_sample :
    seen (fun t => (t.rawl, t.mstat.toByte)) (exec .measRh (answered .measRh .measR (.response (.ok [0x7C, 0x82, 0x97])))) =
      some (0x80, 0x06) := by decide +kernel

/-- MEAS_RH, bad checksum: STATUS 0x0A, nothing published. -/
theorem test_measRh_corrupt :
    seen (fun t => (t.rawh, t.valid.toByte, t.status.toByte))
      (exec .measRh (answered .measRh .measR (.response (.ok [0x7C, 0x80, 0xF4])))) =
      some (0x00, 0x00, 0x0A) := by decide +kernel

/-- MEAS_T, first Write fails with 0b11: STATUS 0xC6, no Read. -/
theorem test_measT_write_fails :
    after (waiting .measT .measW (some (Request.writeOf [0xE3])) [.response (.err 0b11)])
      (fun t => (t.fsm, t.status.toByte, t.req)) = some (.idle, 0xC6, none) := by rfl

/-- READ_CFG of 0x3A: CFG_RD, CFG_FIELDS 0xE8, CFGRD_V. -/
theorem test_readCfg :
    seen (fun t => (t.cfgRd, t.readReg .cfgFields, t.valid.toByte, t.status.toByte))
      (exec .readCfg (answered .readCfg .cfgrW (.response (.ok [0x3A])))) = some (0x3A, 0xE8, 0x02, 0x02) := by decide

/-- READ_EOB of 0x42: CFG_FIELDS 0x18. -/
theorem test_readEob :
    seen (fun t => (t.cfgRd, t.readReg .cfgFields)) (exec .readEob (answered .readEob .cfgrW (.response (.ok [0x42])))) =
      some (0x42, 0x18) := by decide

/-- WRITE_CFG with ARG 0xFF sends 0xFF as given. -/
theorem test_writeCfg_sends : after { idleAt [.access 0x1005] with arg := 0xFF } bytesOut =
    some (some (.write, [0xE6, 0xFF], 0)) := by rfl

theorem test_writeCfg_done :
    seen (fun t => (t.cfgWr, t.valid.toByte))
      (exec .writeCfg { answered .writeCfg .cfgwW (.response (.ok [])) with argl := 0x83, arg := 0x5A }) =
      some (0x83, 0x04) := by decide

/-- HEATER_ON of 0x3A writes back 0x3E. -/
theorem test_heaterOn_modifies :
    seen bytesOut (exec .heaterOn (answered .heaterOn .cfgrW (.response (.ok [0x3A])))) =
      some (some (.write, [0xE6, 0x3E], 0)) := by rfl

/-- HEATER_ON, write fails: nothing published, STATUS 0x46. -/
theorem test_heaterOn_write_fails :
    seen (fun t => (t.cfgRd, t.cfgWr, t.valid.toByte, t.status.toByte))
      (exec .heaterOn { answered .heaterOn .cfgwW (.response (.err 0b01)) with tb := 0x3A }) =
      some (0x00, 0x00, 0x00, 0x46) := by decide

/-- HEATER_OFF, sensor 0xC7: CFG_RD 0xC7, CFG_WR 0xC3. -/
theorem test_heaterOff_done :
    seen (fun t => (t.cfgRd, t.cfgWr, t.valid.toByte))
      (exec .heaterOff { answered .heaterOff .cfgwW (.response (.ok [])) with tb := 0xC7 }) =
      some (0xC7, 0xC3, 0x06) := by decide

/-- Wire commands (R100). -/
theorem test_wire_commands :
    seen bytesOut (exec .cmdSoftReset State.reset) = some (some (.write, [0xFE], 0)) ∧
    seen bytesOut (exec .cmdMeasTHold State.reset) = some (some (.write, [0xE3], 0)) ∧
    seen bytesOut (exec .cmdMeasRhHold State.reset) = some (some (.write, [0xE5], 0)) ∧
    seen bytesOut (exec (.cmdWriteCfg 0x83) State.reset) = some (some (.write, [0xE6, 0x83], 0)) ∧
    seen bytesOut (exec .cmdReadCfg State.reset) = some (some (.writeRead, [0xE7], 1)) :=
  ⟨rfl, rfl, rfl, rfl, rfl⟩

/-! ### Errors, reset, stray events (95_test_vectors.md sections 7 and 8) -/

/-- `complete(INTEGRITY, 0b10)`: TXERR is forced to 0. -/
theorem test_complete_integrity : (complete .integrity 0b10 State.reset).status.toByte = 0x0A := by decide
theorem test_complete_transport : (complete .transport 0b10 State.reset).status.toByte = 0x86 := by decide

/-- Block reset while FSM = MEAS_R: STATUS 0x00, no completion. -/
theorem test_blockReset :
    after (waiting .measT .measR (some Request.readSample) [.blockReset]) (fun t => (t.status.toByte, t.fsm, t.req)) =
      some (0x00, .idle, none) := by decide

/-- R252: a response with no request outstanding changes nothing. -/
theorem test_stray_response : after (idleAt [.response (.ok [0x01, 0x02, 0x03])]) id = some State.reset := by decide

/-- I11: an abandoned request's answer while a later one is outstanding. -/
theorem test_abandoned_answer :
    step (waiting .measT .measW (some (Request.writeOf [0xE3])) [.lateResponse (.ok [])]) = .refused .abandonedAnswer := rfl

/-- I12: an `Ok` of the wrong length. -/
theorem test_response_shape :
    step (waiting .measT .measR (some Request.readSample) [.response (.ok [0x68, 0x3A])]) = .refused .responseShape := rfl

/-- With no event to come the block waits. -/
theorem test_no_event : after State.reset id = some State.reset := by decide

/-- A table word presented to the machine runs in the very next step. -/
theorem test_fetch_access : after (State.reset.withFetchWord 16 0x135A) (fun t => t.arg) = some 0x5A := by decide
theorem test_fetch_operation : after (State.reset.withFetchWord 8 0x04) (fun t => (t.fsm, bytesOut t)) =
    some (.cfgrW, some (.writeRead, [0xE7], 1)) := by rfl
theorem test_fetch_frame : after (State.reset.withFetchWord 8 0xE6) bytesOut = some (some (.write, [0xE6, 0x00], 0)) := by
  rfl

/-! ### The host's side -/

/-- What `f` sees where a host program runs to its end. -/
def atEnd {α : Type} (f : State → α) (e : RunEnd) : Option α :=
  match e with
  | .done t _ => some (f t)
  | .waiting _ => none
  | .stopped _ => none

/-- R108, R259: `wait` over a turn without an answer, then one with it; and without any answer. -/
theorem test_wait_ends :
    atEnd (fun t => (t.hRdata, t.fsm)) (AsmLine.wait.run [[], [.response (.err 0b11)]]
      (waiting .measT .measW (some (Request.writeOf [0xE3])) [])) = some (some 0xC6, .idle) := by rfl
theorem test_wait_goes_on :
    atEnd State.hRdata (AsmLine.wait.run [[], []] (waiting .measT .measW (some (Request.writeOf [0xE3])) [])) = none := by
  rfl

/-- `op WRITE_CFG, 0x83 ; wait ; ack`, answered while the host waits: CFG_WR 0x83, STATUS 0x00. -/
theorem test_program :
    atEnd (fun t => (t.cfgWr, t.status.toByte))
      (runProgram [.opWriteCfg 0x83, .wait, .ack] [[], [], [], [.response (.ok [])]] (idleAt [])) = some (0x83, 0x00) := by
  rfl

/-- R254: a sample has a meaning after its measurement and while READ_CFG runs, and none once READ_CFG is over. -/
theorem test_meaningful :
    let s : State := { State.reset with cmd := 0x02, valid := ⟨true, true, false⟩ }
    let reading : State := { s with cmd := 0x04, status := s.status.started }
    let read : State := { s with cmd := 0x04 }
    s.resultMeaningful .mcrc (lastCompletion? [s]) = true ∧ s.resultMeaningful .cfgRd (lastCompletion? [s]) = false ∧
    reading.resultMeaningful .mcrc (lastCompletion? [reading, s]) = true ∧
    read.resultMeaningful .mcrc (lastCompletion? [read, reading, s]) = false ∧
    read.resultMeaningful .cfgFields (lastCompletion? [read, reading, s]) = true := by decide

/-- R215, R216: the examples, in exact arithmetic. -/
theorem test_conversions :
    evalConv exactNum 0x6838 temperatureExpr = some (202231 / 8192) ∧
    evalConv exactNum 0x7C80 humidityExpr = some (28053 / 512) := by
  norm_num [temperatureExpr, humidityExpr, exactNum]

/-- R229, R230: enabling the interrupt while DONE = 1 raises `irq`, on whatever line the platform has routed it to. -/
theorem test_interrupt_routed :
    interruptsThrough (fun levels => if levels.headD false then [⟨5, 1⟩] else []) (statesOf 1
      { State.reset with
        inbox := [.access 0x1201]
        status := { busy := false, done := true, err := .none, ovr := false, txerr := 0 } }) = [⟨5, 1⟩] := by rfl

/-! ### States in order, for the witnesses -/

theorem inv_idleAt (es : List Input) : SequencerInv (idleAt es) where
  busy_iff := by simp [idleAt, State.reset]
  request := rfl
  delay_ms := rfl
  delay_since := fun d h => by cases h
  operation := fun h => absurd rfl h
  command := fun h => absurd rfl h
  arrival := rfl

/-- MEAS_T waiting for its Write. -/
def measuring (es : List Input) : State := waiting .measT .measW (some (Request.writeOf [0xE3])) es

/-- MEAS_T waiting for its Read. -/
def sampling (es : List Input) : State := waiting .measT .measR (some Request.readSample) es

theorem inv_measuring (es : List Input) : SequencerInv (measuring es) where
  busy_iff := by simp [measuring, waiting]
  request := rfl
  delay_ms := rfl
  delay_since := fun d h => by cases h
  operation := fun _ => by simp [measuring, waiting, operationsOf]
  command := fun _ => rfl
  arrival := rfl

theorem inv_sampling (es : List Input) : SequencerInv (sampling es) where
  busy_iff := by simp [sampling, waiting]
  request := rfl
  delay_ms := rfl
  delay_since := fun d h => by cases h
  operation := fun _ => by simp [sampling, waiting, operationsOf]
  command := fun _ => rfl
  arrival := rfl

theorem inv_settling (now : Nat) (h : 100 ≤ now) (es : List Input) : SequencerInv (settling now es) where
  busy_iff := by simp [settling, waiting]
  request := rfl
  delay_ms := rfl
  delay_since := fun d hd => by cases hd; exact h
  operation := fun _ => by simp [settling, waiting, operationsOf]
  command := fun _ => rfl
  arrival := rfl

/-- HEATER_OFF waiting for its Write of `b & 0xFB`. -/
def writingBack (b : Byte) (es : List Input) : State :=
  { waiting .heaterOff .cfgwW (some (Request.writeOf [0xE6, b &&& 0xFB])) es with tb := b }

theorem inv_writingBack (b : Byte) (es : List Input) : SequencerInv (writingBack b es) where
  busy_iff := by simp [writingBack, waiting]
  request := rfl
  delay_ms := rfl
  delay_since := fun d h => by cases h
  operation := fun _ => by simp [writingBack, waiting, operationsOf]
  command := fun _ => rfl
  arrival := rfl

theorem statusInv_measuring (es : List Input) : StatusInv (measuring es) where
  quiet_while_busy := fun _ => ⟨rfl, rfl, rfl⟩
  txerr_only_transport := fun h => absurd rfl h
  never_decode := by simp [measuring, waiting]

/-- A state that holds the sample of 95_test_vectors.md program P1. -/
def sampled (es : List Input) : State :=
  { idleAt es with
    rawh := 0x68, rawl := 0x38, mstat := ⟨.temperature, 0b10⟩, mcrc := 0x7C, valid := ⟨true, false, false⟩
    cmd := 0x02, status := { busy := false, done := true, err := .none, ovr := false, txerr := 0 } }

theorem sampleInv_sampled (es : List Input) : SampleInv (sampled es) where
  rawl_masked := show (0x38 : Byte) &&& 0x03 = 0 by decide
  checksum := fun _ => show (0x7C : Byte) = crc8 [0x68, (0x38 : Byte) ||| (0b10 : BitVec 2).setWidth 8] by decide +kernel
  before_first := fun h => by cases h

theorem sampleInv_sampling (es : List Input) : SampleInv (sampling es) where
  rawl_masked := show (0x00 : Byte) &&& 0x03 = 0 by decide
  checksum := fun h => by cases h
  before_first := fun _ => ⟨rfl, rfl, show State.reset.mstat.toByte = 0 by decide, rfl⟩

/-! ### Witnesses: concrete states and operands that meet each statement's hypotheses, clause by clause -/

theorem witness_DecodeOfEncodeIsTheInstruction :
    (Instr.illegal 0x09).wellFormed = true ∧ (Instr.illegal 0x09).admitsBusy true = true ∧
    (Instr.wrCmd 0xFF).wellFormed = true ∧ (Instr.wrCmd 0xFF).admitsBusy false = true ∧
    (Instr.wrCmdRejected 0x00).admitsBusy true = true := by decide

theorem witness_CmdByteNamesAnOperationExactly :
    (0x00 : Byte) ∉ ([0x01, 0x02, 0x03, 0x04, 0x05, 0x06, 0x07, 0x08] : List Byte) ∧
    (0x09 : Byte) ∉ ([0x01, 0x02, 0x03, 0x04, 0x05, 0x06, 0x07, 0x08] : List Byte) ∧
    (0x11 : Byte) ∉ ([0x01, 0x02, 0x03, 0x04, 0x05, 0x06, 0x07, 0x08] : List Byte) ∧
    ∃ op : HostOp, decodeOp 0x08 = op.instr :=
  ⟨by decide, by decide, by decide, .readEob, rfl⟩

theorem witness_ResDecodeAcceptsFourBytesOnly :
    (0x02 : Byte) ∉ ([0x00, 0x01, 0x80, 0x81] : List Byte) ∧ (0x7F : Byte) ∉ ([0x00, 0x01, 0x80, 0x81] : List Byte) := by
  decide

theorem witness_FieldViewIsABitPermutation : cfgDecode 0xFF = some ⟨.res11, 1, 0b111, 1, 1⟩ := by decide

theorem witness_SetHeaterChangesBitTwoOnly : cfgDecode 0x3A = some ⟨.res12, 0, 0b111, 0, 1⟩ := by decide

theorem witness_CrcIsLinearAndCatchesSingleBitErrors :
    ([0x68, 0x3A] : List Byte).length = ([0xFF, 0xFF] : List Byte).length ∧ 7 < 8 ∧ 0 < 8 ∧
    sampleIntact 0x68 0x3A 0x7C = true := by decide +kernel

theorem witness_ReadsOfControlRegisters :
    (StatusInv (measuring []) ∧ (measuring []).status.busy = true) ∧
    ∀ e : ErrCode, ∃ s : State, s.status.err = e :=
  ⟨⟨statusInv_measuring [], rfl⟩, fun e => ⟨complete e 0 State.reset, rfl⟩⟩

theorem witness_ReadsOfResultRegisters : SampleInv (sampled []) ∧ (sampled []).valid.measV = true :=
  ⟨sampleInv_sampled [], rfl⟩

theorem witness_StepOnAReadChangesNothingElse :
    (idleAt [.access 0x0FFF]).inbox = [.access 0x0FFF] ∧ accessWe 0x0FFF = false ∧ accessWe 0x0000 = false :=
  ⟨rfl, by decide, by decide⟩

theorem witness_WritesOfPlainRegisters : (sampled []).status.done = true := rfl

theorem witness_StatusWriteClearsDoneAndOvrOnly : (0x22 : Byte).getLsbD 1 = true := by decide

theorem witness_AcceptedCommandStartsItsOperation :
    (idleAt []).status.busy = false ∧ (idleAt []).fsm = .idle ∧ (idleAt []).req = none ∧ (idleAt []).delay = none ∧
    reservedOpByte 0x00 = true ∧ reservedOpByte 0x09 = true ∧ reservedOpByte 0xFF = true := by decide

theorem witness_ReservedCommandIsIllegal :
    (sampled []).fsm = .idle ∧ reservedOpByte 0x10 = true ∧ (sampled []).status.busy = false := by decide

theorem witness_RejectedCommandSetsOvrOnly : (measuring []).status.busy = true := rfl

theorem witness_AcceptedCommandRunsTheDecodedOperation :
    (idleAt []).status.busy = false ∧ reservedOpByte 0x08 = false ∧ reservedOpByte 0x09 = true := by decide

/-- One state for each place of an operation, with what arrives there. -/
theorem witness_SoftResetFollowsItsRule :
    let w := answered .softReset .rstW
    (idleAt []).req = none ∧ (idleAt []).delay = none ∧ (idleAt []).fsm = .idle ∧
    (w (.response (.ok []))).req = none ∧ (w (.response (.ok []))).delay = none ∧ (w (.response (.ok []))).fsm = .rstW ∧
    (w (.response (.ok []))).arrival = some (.response (.ok [])) ∧
    (w (.response (.err 3))).arrival = some (.response (.err 3)) ∧
    (answered .softReset .rstD .delayDone).req = none ∧ (answered .softReset .rstD .delayDone).delay = none ∧
    (answered .softReset .rstD .delayDone).fsm = .rstD ∧
    (answered .softReset .rstD .delayDone).arrival = some .delayDone := by decide

theorem witness_MeasurementFollowsItsRule :
    let w := answered .measT .measW (.response (.ok []))
    let r := answered .measRh .measR (.response (.ok [0x7C, 0x80, 0xF5]))
    let bad := answered .measRh .measR (.response (.ok [0x7C, 0x80, 0xF4]))
    let e := answered .measT .measW (.response (.err 0))
    ((Instr.measT = .measT ∧ (0xE3 : Byte) = 0xE3 ∧ MeasKind.temperature = .temperature) ∧
      (Instr.measRh = .measRh ∧ (0xE5 : Byte) = 0xE5 ∧ MeasKind.humidity = .humidity)) ∧
    (w.req = none ∧ w.delay = none ∧ w.fsm = .measW ∧ w.arrival = some (.response (.ok []))) ∧
    (r.req = none ∧ r.delay = none ∧ r.fsm = .measR ∧ r.arrival = some (.response (.ok [0x7C, 0x80, 0xF5])) ∧
      crc8 [0x7C, 0x80] = 0xF5) ∧
    (bad.req = none ∧ bad.delay = none ∧ bad.fsm = .measR ∧ bad.arrival = some (.response (.ok [0x7C, 0x80, 0xF4])) ∧
      crc8 [0x7C, 0x80] ≠ 0xF4) ∧
    (e.req = none ∧ e.delay = none ∧ e.fsm = .measW ∧ e.arrival = some (.response (.err 0))) := by decide +kernel

theorem witness_ConfigurationReadFollowsItsRule :
    let r := answered .readEob .cfgrW (.response (.ok [0x42]))
    let e := answered .readCfg .cfgrW (.response (.err 1))
    (r.req = none ∧ r.delay = none ∧ r.fsm = .cfgrW ∧ r.arrival = some (.response (.ok [0x42]))) ∧
    (e.req = none ∧ e.delay = none ∧ e.fsm = .cfgrW ∧ e.arrival = some (.response (.err 1))) := by decide

theorem witness_ConfigurationWriteFollowsItsRule :
    let w := answered .writeCfg .cfgwW (.response (.ok []))
    let e := answered .writeCfg .cfgwW (.response (.err 2))
    (w.req = none ∧ w.delay = none ∧ w.fsm = .cfgwW ∧ w.arrival = some (.response (.ok []))) ∧
    (e.req = none ∧ e.delay = none ∧ e.fsm = .cfgwW ∧ e.arrival = some (.response (.err 2))) := by decide

theorem witness_HeaterFollowsItsRule :
    let r := answered .heaterOn .cfgrW (.response (.ok [0x3A]))
    let w := answered .heaterOff .cfgwW (.response (.ok []))
    let e := answered .heaterOff .cfgrW (.response (.err 1))
    (r.req = none ∧ r.delay = none ∧ r.fsm = .cfgrW ∧ r.arrival = some (.response (.ok [0x3A]))) ∧
    (w.req = none ∧ w.delay = none ∧ w.fsm = .cfgwW ∧ w.arrival = some (.response (.ok []))) ∧
    (e.req = none ∧ e.delay = none ∧ e.fsm = .cfgrW ∧ e.arrival = some (.response (.err 1))) := by decide

theorem witness_WireCommandsSendTheirTransactions :
    let w := answered .measRh .measW (.response (.ok []))
    ((idleAt []).req = none ∧ (idleAt []).delay = none ∧ (idleAt []).fsm ≠ .measW) ∧
    (w.req = none ∧ w.delay = none ∧ w.fsm = .measW ∧ w.arrival = some (.response (.ok []))) := by decide

theorem witness_NothingIsSentWhileOneIsOutstanding : (measuring []).req ≠ none ∧ (settling 100 []).delay ≠ none := by
  simp [measuring, settling, waiting]

theorem witness_StepRunsTheDecodedAccess : (measuring [.access 0x1004]).inbox = [.access 0x1004] := rfl

theorem witness_StepResumesTheOperationOplNames :
    let r := measuring [.response (.ok [])]
    let d := settling 115 [.delayDone]
    (r.inbox = [.response (.ok [])] ∧ r.req = some (Request.writeOf [0xE3]) ∧
      (Request.writeOf [0xE3]).accepts (.ok []) = true) ∧
    (d.inbox = [.delayDone] ∧ d.fsm = .rstD ∧ d.delay = some ⟨15, 100⟩ ∧ 100 + 15 ≤ d.nowMs) :=
  ⟨⟨rfl, rfl, rfl⟩, rfl, rfl, rfl, by decide⟩

theorem witness_BlockResetAbandonsEverything :
    (sampling [.blockReset, .access (wrWord .cmd 0x02)]).inbox = .blockReset :: [.access (wrWord .cmd 0x02)] := rfl

theorem witness_BootLeavesTheSensorsConfiguration :
    (Response.err 0b01 = .ok [] ∨ ∃ code, Response.err 0b01 = .err code) ∧ 15 ≤ 15 ∧
    (idleAt (bootInputs true (.err 0b01) (.ok [0x3A]) 15)).inbox =
      bootInputs true (.err 0b01) (.ok [0x3A]) 15 ++ ([] : List Input) :=
  ⟨.inr ⟨_, rfl⟩, Nat.le_refl _, (List.append_nil _).symm⟩

theorem witness_StepKeepsSequencerInv :
    SequencerInv (measuring [.access 0x1122]) ∧ ∃ t, step (measuring [.access 0x1122]) = .next t :=
  ⟨inv_measuring _, _, rfl⟩

theorem witness_StepKeepsStatusInv :
    StatusInv (measuring [.response (.err 0b11)]) ∧ ∃ t, step (measuring [.response (.err 0b11)]) = .next t :=
  ⟨statusInv_measuring _, _, rfl⟩

/-- The step that publishes a sample. -/
theorem step_sampling_of {d0 d1 c : Byte} (h : sampleIntact d0 d1 c = true) :
    step (sampling [.response (.ok [d0, d1, c])]) = .next (complete .none 0 (publishSample .temperature d0 d1 c
      { sampling [] with req := none, arrival := some (.response (.ok [d0, d1, c])) })) := by
  refine (step_response (q := Request.readSample) (r := .ok [d0, d1, c]) (rest := []) rfl rfl rfl).trans ?_
  show exec (decodeOp HostOp.measT.code) _ = _
  rw [decodeOp_code]
  show (if sampleIntact d0 d1 c then _ else _) = _
  rw [if_pos h]
  rfl

theorem step_sampling : step (sampling [.response (.ok [0x68, 0x3A, 0x7C])]) = .next (complete .none 0
    (publishSample .temperature 0x68 0x3A 0x7C
      { sampling [] with req := none, arrival := some (.response (.ok [0x68, 0x3A, 0x7C])) })) :=
  step_sampling_of (by decide +kernel)

theorem witness_StepKeepsSampleInv :
    SampleInv (sampling [.response (.ok [0x68, 0x3A, 0x7C])]) ∧
    ∃ t, step (sampling [.response (.ok [0x68, 0x3A, 0x7C])]) = .next t :=
  ⟨sampleInv_sampling _, _, step_sampling⟩

theorem witness_ResultsChangeOnlyInASuccessfulCompletion :
    let s := sampling [.response (.ok [0x68, 0x3A, 0x7C])]
    SequencerInv s ∧ s.inbox.head? ≠ some .blockReset ∧ ∃ t, step s = .next t ∧ t.results ≠ s.results :=
  ⟨inv_sampling _, by simp [sampling, waiting], _, step_sampling, by decide⟩

theorem witness_SampleChangesAsOne :
    let s := sampling [.response (.ok [0x68, 0x3A, 0x7C])]
    SequencerInv s ∧ s.inbox.head? ≠ some .blockReset ∧ ∃ t, step s = .next t ∧ t.sample ≠ s.sample :=
  ⟨inv_sampling _, by simp [sampling, waiting], _, step_sampling, by decide⟩

theorem inv_sampled (es : List Input) : SequencerInv (sampled es) where
  busy_iff := by simp [sampled, idleAt, State.reset]
  request := rfl
  delay_ms := rfl
  delay_since := fun d h => by cases h
  operation := fun h => absurd rfl h
  command := fun h => absurd rfl h
  arrival := rfl

/-- A completion without an error, one with an error, and the acceptance of READ_CFG after a measurement, where the
sample has its meaning before and after. -/
theorem witness_ResultsAreMeaningfulAfterTheirOperationOnly :
    let s := sampling [.response (.ok [0x68, 0x3A, 0x7C])]
    let e := sampling [.response (.err 1)]
    (SequencerInv s ∧ s.fsm ≠ .idle ∧ s.inbox.head? ≠ some .blockReset ∧
      ∃ t, step s = .next t ∧ t.fsm = .idle ∧ t.resultMeaningful .rawh (lastCompletion? [t, s]) = true) ∧
    (SequencerInv e ∧ e.fsm ≠ .idle ∧ e.inbox.head? ≠ some .blockReset ∧
      ∃ t, step e = .next t ∧ t.fsm = .idle ∧ t.status.busy = false ∧ t.status.err ≠ .none) ∧
    (SequencerInv (sampled [.access 0x1004]) ∧
      (sampled [.access 0x1004]).resultMeaningful .rawh (lastCompletion? [sampled [.access 0x1004]]) = true ∧
      ∃ t, step (sampled [.access 0x1004]) = .next t ∧ t.status.busy = true) :=
  ⟨⟨inv_sampling _, by simp [sampling, waiting], by simp [sampling, waiting], _, step_sampling, rfl, rfl⟩,
    ⟨inv_sampling _, by simp [sampling, waiting], by simp [sampling, waiting], _, rfl, rfl, rfl, by decide⟩,
    inv_sampled _, rfl, _, rfl, rfl⟩

theorem witness_EveryAnswerBringsCompletionNearer :
    let s := measuring [.response (.err 0)]
    let d := settling 115 [.delayDone]
    (SequencerInv s ∧ s.fsm ≠ .idle ∧ s.inbox = [.response (.err 0)] ∧ Answers s (.response (.err 0))) ∧
    (SequencerInv d ∧ d.fsm ≠ .idle ∧ d.inbox = [.delayDone] ∧ Answers d .delayDone) :=
  ⟨⟨inv_measuring _, by simp [measuring, waiting], rfl, _, rfl, rfl⟩,
    inv_settling 115 (by decide) _, by simp [settling, waiting], rfl, rfl, _, rfl, by decide⟩

theorem witness_OnlyAnswersAndResetMoveTheSequencer :
    let s := writingBack 0xC7 [.access 0x1101]
    SequencerInv s ∧ s.fsm ≠ .idle ∧ (∃ t, step s = .next t) ∧ s.inbox.head? ≠ some .blockReset ∧
    ∀ e, s.inbox.head? = some e → ¬ Answers s e :=
  ⟨inv_writingBack _ _, by simp [writingBack, waiting], ⟨_, rfl⟩, by simp [writingBack, waiting],
    fun e he => by cases he; simp [Answers]⟩

theorem witness_StrayAnswersChangeNothing :
    ((idleAt [.response (.err 1)]).inbox = [.response (.err 1)] ∧ (idleAt [.response (.err 1)]).req = none) ∧
    ((measuring [.delayDone]).inbox = [.delayDone] ∧ (measuring [.delayDone]).fsm ≠ .rstD) ∧
    (measuring [.secondResponse (.ok [])]).inbox = [.secondResponse (.ok [])] :=
  ⟨⟨rfl, rfl⟩, ⟨rfl, by simp [measuring, waiting]⟩, rfl⟩

/-- The three cases: a host access, block reset, and `delay_done` at exactly 15 ms. -/
theorem witness_SoftResetHoldsForTheSettleTime :
    let a := settling 114 [.access 0x1002]
    let b := settling 114 [.blockReset]
    let c := settling 115 [.delayDone]
    (SequencerInv a ∧ a.fsm = .rstD ∧ ∃ t, step a = .next t) ∧
    (SequencerInv b ∧ b.fsm = .rstD ∧ ∃ t, step b = .next t) ∧
    (SequencerInv c ∧ c.fsm = .rstD ∧ ∃ t, step c = .next t) :=
  ⟨⟨inv_settling _ (by decide) _, rfl, _, rfl⟩, ⟨inv_settling _ (by decide) _, rfl, _, rfl⟩,
    inv_settling _ (by decide) _, rfl, _, rfl⟩

theorem witness_LatchesInIdleDoNotMatter :
    SequencerInv (idleAt [.access 0x1006]) ∧ (idleAt [.access 0x1006]).fsm = .idle :=
  ⟨inv_idleAt _, rfl⟩

theorem witness_ValidatorIgnoresTheHostCrcUnit :
    let s := sampling [.response (.ok [0x68, 0x3A, 0x7C])]
    (∃ rest, s.inbox = .response (.ok [0x68, 0x3A, 0x7C]) :: rest) ∧
    (∀ w, Input.response (.ok [0x68, 0x3A, 0x7C]) ≠ .access w) ∧
    Input.response (.ok [0x68, 0x3A, 0x7C]) ≠ .blockReset ∧ ∃ t, step s = .next t :=
  ⟨⟨_, rfl⟩, by simp, by simp, _, step_sampling⟩

theorem witness_SequencerNeverWritesHostRegisters :
    let s := measuring [.response (.ok [])]
    (∃ rest, s.inbox = .response (.ok []) :: rest) ∧ (∀ w, Input.response (.ok []) ≠ .access w) ∧
    Input.response (.ok []) ≠ .blockReset ∧ ∃ t, step s = .next t :=
  ⟨⟨_, rfl⟩, by simp, by simp, _, rfl⟩

theorem witness_EveryHostAccessCompletes :
    SequencerInv (idleAt [.access 0x1FFF]) ∧ (idleAt [.access 0x1FFF]).inbox = [.access 0x1FFF] :=
  ⟨inv_idleAt _, rfl⟩

theorem witness_OnlyContractBreachesAreRefused :
    (SequencerInv (sampling [.response (.ok [])]) ∧ step (sampling [.response (.ok [])]) = .refused .responseShape) ∧
    (SequencerInv (settling 114 [.delayDone]) ∧ step (settling 114 [.delayDone]) = .refused .earlyDelayDone) ∧
    (SequencerInv (settling 115 [.lateDelayDone]) ∧ step (settling 115 [.lateDelayDone]) = .refused .abandonedAnswer) :=
  ⟨⟨inv_sampling _, rfl⟩, ⟨inv_settling _ (by decide) _, rfl⟩, inv_settling _ (by decide) _, rfl⟩

theorem witness_OnlyTheFiveCommandsGoOut :
    SequencerInv (measuring [.response (.ok [])]) ∧
    ∃ t, step (measuring [.response (.ok [])]) = .next t ∧ t.req = some Request.readSample :=
  ⟨inv_measuring _, _, rfl, rfl⟩

/-- A completion, a reserved CMD byte and an enable each raise the interrupt. -/
theorem witness_InterruptRisesOnlyWithACompletionOrAnEnable :
    let a : State := { measuring [.response (.err 2)] with doneIe := true }
    let b : State := { idleAt [.access 0x1010] with doneIe := true }
    let c : State := sampled [.access 0x1201]
    (a.irq = false ∧ ∃ t, step a = .next t ∧ t.irq = true) ∧
    (b.irq = false ∧ ∃ t, step b = .next t ∧ t.irq = true) ∧
    (c.irq = false ∧ ∃ t, step c = .next t ∧ t.irq = true) :=
  ⟨⟨rfl, _, rfl, rfl⟩, ⟨rfl, _, rfl, rfl⟩, rfl, _, rfl, rfl⟩

theorem witness_InterruptRises_in_order :
    SequencerInv ({ measuring [.response (.err 2)] with doneIe := true } : State) ∧
    SequencerInv ({ idleAt [.access 0x1010] with doneIe := true } : State) :=
  ⟨⟨(inv_measuring []).busy_iff, rfl, rfl, fun _ h => (by cases h), (inv_measuring []).operation, fun _ => rfl, rfl⟩,
    ⟨(inv_idleAt []).busy_iff, rfl, rfl, fun _ h => (by cases h), (inv_idleAt []).operation, (inv_idleAt []).command, rfl⟩⟩

theorem witness_SameCycleAccessComesFirst :
    let e : Input := .response (.ok [])
    let s (w : AccessWord) : State := writingBack 0xC7 [.access w, e]
    (∀ w, SequencerInv (s w) ∧ (s w).fsm ≠ .idle ∧ Answers (s w) e) ∧
    (s (wrWord .status 0x02)).inbox = [.access (wrWord .status 0x02), e] ∧
    (s (wrWord .cmd 0x02)).inbox = [.access (wrWord .cmd 0x02), e] ∧
    (s (rdWord .cfgRd)).inbox = [.access (rdWord .cfgRd), e] :=
  ⟨fun _ => ⟨inv_writingBack _ _, by simp [writingBack, waiting], _, rfl, rfl⟩, rfl, rfl, rfl⟩

/-- The measurement's answer, a write to ARG, a read of CRC_ACC and time come between the accesses. -/
theorem witness_HostChecksumIsCrcEight :
    let gap : List Input := [.response (.ok []), .access (wrWord .arg 0x5A)]
    let fed : List (Byte × List Input) := [(0x68, [.access (rdWord .crcAcc), .elapse 3]), (0x3A, [])]
    let s := measuring (crcWithGaps gap fed ++ [])
    (measuring ((AsmLine.crc [0x68, 0x3A]).inputs ++ [])).inbox = (AsmLine.crc [0x68, 0x3A]).inputs ++ [] ∧
    s.inbox = crcWithGaps gap fed ++ [] ∧ (∀ e ∈ gap, leavesCrcUnit e) ∧ (∀ p ∈ fed, ∀ e ∈ p.2, leavesCrcUnit e) ∧
    ∃ t, core.run (crcWithGaps gap fed).length s = .next t :=
  ⟨rfl, rfl, by simp [leavesCrcUnit, wrWord], by simp [leavesCrcUnit]; decide, _, rfl⟩

/-- Each clause of the wait loop: it ends; an idle and a busy block; an answer that ends it. -/
theorem witness_PseudoInstructionsAndTheWaitLoop :
    (∃ t left, AsmLine.wait.run [[]] (idleAt []) = .done t left) ∧ (idleAt []).status.busy = false ∧
    (measuring []).status.busy = true ∧
    (SequencerInv (measuring []) ∧ (measuring []).fsm ≠ .idle ∧ Answers (measuring []) (.response (.err 0))) :=
  ⟨⟨_, _, rfl⟩, rfl, rfl, inv_measuring _, by simp [measuring, waiting], _, rfl, rfl⟩

theorem witness_WriteCfgSendsArgAsAccepted :
    let es := (AsmLine.opWriteCfg 0x83).inputs ++ [.access (wrWord .arg 0x5A), .response (.ok [])]
    SequencerInv (idleAt es) ∧ (idleAt es).fsm = .idle ∧ (idleAt es).inbox = es :=
  ⟨inv_idleAt _, rfl, rfl⟩

/-- An intact answer and, with the last bit of its checksum wrong, a corrupt one. -/
theorem witness_MeasuredTemperatureIsTheFormulaOrNothing :
    let es (c : Byte) := (AsmLine.op .measT).inputs ++ [.response (.ok []), .response (.ok [0x68, 0x3A, c])]
    (∀ c, SequencerInv (idleAt (es c)) ∧ (idleAt (es c)).fsm = .idle ∧ (idleAt (es c)).inbox = es c) ∧
    crc8 [0x68, 0x3A] = 0x7C ∧ crc8 [0x68, 0x3A] ≠ 0x7D :=
  ⟨fun _ => ⟨inv_idleAt _, rfl, rfl⟩, by decide +kernel, by decide +kernel⟩

/-- An evaluation order other than the written one: the slope first. -/
theorem witness_ConversionInExactArithmeticIsTheReference :
    IsOrderOf (.add (.mul .raw (.div (.lit (17572 / 100)) (.lit 65536))) (.lit (-(4685 / 100)))) temperatureOf ∧
    IsOrderOf (.mul (.lit (125 / 65536)) (.add .raw (.lit (-(6 * 65536 / 125))))) humidityOf := by
  constructor <;> intro raw _ <;> simp [exactNum, temperatureOf, humidityOf] <;> ring

end Sys2Proof.Tests
end

section
/-! Proofs of the statements of 00_scope.md: what a step on a host access runs, and what the host's conversions give in
exact arithmetic. -/

namespace Sys2Proof.Machine

/-! ### The step on a host access -/

/-- The word is decoded under the BUSY of before the event: taking the event leaves STATUS alone. -/
theorem step_access {s : State} {w : AccessWord} {rest : List Input} (h : s.inbox = .access w :: rest) :
    step s = exec (decodeAccess s.status.busy w) (takeEvent rest s) := by
  rw [step_cons h, event, takeEvent_status]

/-- Settles O30: `step_access`, with the taking of the event written out. -/
theorem stepRunsTheDecodedAccess : Obligations.StepRunsTheDecodedAccess :=
  fun _ _ _ h => step_access h

/-! ### Conversions in exact arithmetic -/

/-- At a count the host may convert, every order of a formula has the formula's value: the count is a 16-bit one, and
`IsOrderOf` speaks of those. -/
theorem IsOrderOf.countOf_bind {e : ConvExpr} {f : Nat → ℚ} (he : IsOrderOf e f) (kind : MeasKind)
    (last : Option Completion) (s : State) :
    (s.countOf? kind last).bind (evalConv exactNum · e) = (s.countOf? kind last).map f := by
  cases hc : s.countOf? kind last with
  | none => rfl
  | some raw => exact he raw (countOf_lt hc)

/-- A host reports a temperature exactly where the reference has one: both convert the same count. -/
theorem isSome_temperatureIn (c : ConvNum) (last : Option Completion) (s : State) :
    (s.temperatureIn c last).isSome = (s.hostTemperature? last).isSome := by
  simp only [State.temperatureIn, State.hostTemperature?, Option.isSome_map]

/-- A host reports a humidity exactly where the reference has one: both convert the same count. -/
theorem isSome_humidityIn (c : ConvNum) (last : Option Completion) (s : State) :
    (s.humidityIn c last).isSome = (s.hostHumidity? last).isSome := by
  simp only [State.humidityIn, State.hostHumidity?, Option.isSome_map]

/-- Settles O59: the written orders are orders of their formulas, and a `ConvNum` carries the proof that its own are. -/
theorem conversionInExactArithmeticIsTheReference : Obligations.ConversionInExactArithmeticIsTheReference := by
  refine ⟨temperatureExpr_isOrderOf, humidityExpr_isOrderOf, fun α n raw => ⟨?temperature, ?humidity⟩,
    fun c last s => ⟨isSome_temperatureIn c last s, isSome_humidityIn c last s,
      c.temperature_order.countOf_bind .temperature last s, c.humidity_order.countOf_bind .humidity last s⟩⟩
  case temperature => simp only [temperatureExpr, evalConv_add, evalConv_div, evalConv_mul, evalConv_lit, evalConv_raw]
  case humidity => simp only [humidityExpr, evalConv_add, evalConv_div, evalConv_mul, evalConv_lit, evalConv_raw]

end Sys2Proof.Machine
end

section
/-! Proofs of the statements of 10_state.md about one step: what keeps the sequencer in order, STATUS and the measurement
registers, and when a step is refused. Each reads off the moves of Laws/Step.lean or the effects of Laws/Framer.lean. -/

namespace Sys2Proof.Machine

/-! ### Events that leave the sequencer alone -/

/-- Nothing happened to the operation in progress or to the results between `s` and `t`; time may have passed. -/
structure Undisturbed (s t : State) : Prop where
  fsm : t.fsm = s.fsm
  req : t.req = s.req
  delay : t.delay = s.delay
  opl : t.opl = s.opl
  argl : t.argl = s.argl
  tb : t.tb = s.tb
  cmd : t.cmd = s.cmd
  busy : t.status.busy = s.status.busy
  arrival : t.arrival = s.arrival
  results : t.results = s.results
  time : s.nowMs ≤ t.nowMs

theorem Undisturbed.refl (s : State) : Undisturbed s s := ⟨rfl, rfl, rfl, rfl, rfl, rfl, rfl, rfl, rfl, rfl, Nat.le_refl _⟩

theorem Undisturbed.of_takeEvent {s t : State} {rest : List Input} (h : Undisturbed (takeEvent rest s) t) :
    Undisturbed s t :=
  ⟨h.fsm, h.req, h.delay, h.opl, h.argl, h.tb, h.cmd, h.busy, h.arrival, h.results, h.time⟩

theorem undisturbed_elapse (ms : Nat) (s : State) : Undisturbed s (elapse ms s) :=
  ⟨rfl, rfl, rfl, rfl, rfl, rfl, rfl, rfl, rfl, rfl, Nat.le_add_right _ _⟩

/-- Of all accesses only an accepted CMD write reaches the sequencer (43_host_access.md R185). -/
theorem Moves.undisturbed_of_access {s t : State} {w : AccessWord} (m : Moves s (.access w) t)
    (hb : accessWe w = true → Reg.ofAddr (accessAddr w) = .cmd → s.status.busy = true) : Undisturbed s t := by
  cases m with
  | started _ op hw hr hidle | illegal _ hw hr hidle => exact absurd (hb hw hr) (by simp [hidle])
  | stray _ _ hne => exact absurd rfl (hne w)
  | readOnly => exact .refl s
  | read | rejected | wrStatus | wrIrqen | wrArg | wrCrc | wrCodec =>
    exact ⟨rfl, rfl, rfl, rfl, rfl, rfl, rfl, rfl, rfl, rfl, Nat.le_refl _⟩

/-- How event `e` breaks the environment's contract where it is refused in `s` (10_state.md R23, R24,
70_reset_and_hazards.md R246). -/
def BreachesContract (s : State) (e : Input) : Refusal → Prop
  | .responseShape => ∃ q bytes, s.req = some q ∧ e = .response (.ok bytes) ∧ bytes.length ≠ q.rlen
  | .earlyDelayDone => e = .delayDone ∧ ∃ d, s.delay = some d ∧ s.nowMs < d.since + d.ms
  | .abandonedAnswer => (∃ r, e = .lateResponse r ∧ s.req ≠ none) ∨ (e = .lateDelayDone ∧ s.delay ≠ none)
  | .notModelled _ => False

/-- An event that is no access, no block reset and no answer to what is outstanding is ignored, lets time pass, or breaks
the environment's contract; in any state. -/
theorem event_of_not_answers {s : State} {e : Input} (ha : ¬ Answers s e) (hacc : ∀ w, e ≠ .access w)
    (hr : e ≠ .blockReset) :
    (∃ t, event e s = .next t ∧ Undisturbed s t) ∨ ∃ why, event e s = .refused why ∧ BreachesContract s e why := by
  have ignored {p : Presented} (hp : p = .ignored) : ∃ t, resume s p = .next t ∧ Undisturbed s t :=
    ⟨s, by rw [hp, resume], .refl s⟩
  cases e with
  | access w => exact absurd rfl (hacc w)
  | blockReset => exact absurd rfl hr
  | elapse ms => exact .inl ⟨_, rfl, undisturbed_elapse ms s⟩
  | secondResponse r => exact .inl (ignored rfl)
  | response r =>
    rcases presentResponse_cases r s with ⟨-, hp⟩ | ⟨q, hq, hok, -⟩ | ⟨q, hq, hbad, hp⟩
    · exact .inl (ignored hp)
    · exact absurd ⟨q, hq, hok⟩ ha
    · refine .inr ⟨.responseShape, by simp only [event, hp, resume], ?_⟩
      cases r with
      | ok bytes => exact ⟨q, bytes, hq, rfl, by simpa [Request.accepts] using hbad⟩
      | err code => simp [Request.accepts] at hbad
  | delayDone =>
    rcases presentDelayDone_cases s with ⟨-, hp⟩ | ⟨d, hf, hd, ht, -⟩ | ⟨d, -, hd, ht, hp⟩
    · exact .inl (ignored hp)
    · exact absurd ⟨hf, d, hd, ht⟩ ha
    · exact .inr ⟨.earlyDelayDone, by simp only [event, hp, resume], rfl, d, hd, ht⟩
  | lateResponse r =>
    cases hq : s.req with
    | none => exact .inl (ignored (by simp [presentLateResponse, hq]))
    | some q =>
      exact .inr ⟨.abandonedAnswer, by simp [event, presentLateResponse, hq, resume], .inl ⟨r, rfl, by simp [hq]⟩⟩
  | lateDelayDone =>
    cases hd : s.delay with
    | none => exact .inl (ignored (by simp [presentLateDelayDone, hd]))
    | some d =>
      exact .inr ⟨.abandonedAnswer, by simp [event, presentLateDelayDone, hd, resume], .inr ⟨rfl, by simp [hd]⟩⟩

/-- While an operation is in progress only an answer or block reset disturbs it: no access is then an accepted CMD
write. -/
theorem event_undisturbed {s t : State} {e : Input} (hs : SequencerInv s) (hf : s.fsm ≠ .idle) (ha : ¬ Answers s e)
    (hr : e ≠ .blockReset) (h : event e s = .next t) : Undisturbed s t := by
  by_cases hacc : ∃ w, e = .access w
  · obtain ⟨w, rfl⟩ := hacc
    exact (event_moves hs h).undisturbed_of_access fun _ _ => hs.busy_iff.mpr hf
  · rcases event_of_not_answers ha (not_exists.mp hacc) hr with ⟨u, hu, hsu⟩ | ⟨why, hw, -⟩
    · rw [h] at hu
      cases hu
      exact hsu
    · rw [h] at hw
      cases hw

/-! ### Steps -/

/-- Taking an event changes nothing that decides whether it is an answer. -/
theorem answers_takeEvent {s : State} {e : Input} {rest : List Input} : Answers (takeEvent rest s) e ↔ Answers s e := by
  cases e <;> rfl

/-- What the taking of an event and every event keep, a step keeps. -/
theorem step_keeps {P : State → Prop} (take : ∀ (rest : List Input) (s : State), P s → P (takeEvent rest s))
    (happen : ∀ (e : Input) (s t : State), P s → event e s = .next t → P t) {s t : State} (hs : P s)
    (h : step s = .next t) : P t := by
  cases hi : s.inbox with
  | nil =>
    rw [step_nil hi] at h
    cases h
    exact hs
  | cons e rest =>
    rw [step_cons hi] at h
    exact happen e _ t (take rest s hs) h

/-! ### The sequencer -/

theorem SequencerInv.of_undisturbed {s t : State} (hs : SequencerInv s) (h : Undisturbed s t) : SequencerInv t where
  busy_iff := by rw [h.busy, h.fsm]; exact hs.busy_iff
  request := by
    have hx : expectedRequest t = expectedRequest s := by
      simp only [expectedRequest, payloadInFlight, h.fsm, h.opl, h.argl, h.tb]
    rw [h.req, hx]
    exact hs.request
  delay_ms := by rw [h.delay, h.fsm]; exact hs.delay_ms
  delay_since d hd := (hs.delay_since d (h.delay ▸ hd)).trans h.time
  operation hf := by rw [h.opl, h.fsm]; exact hs.operation (h.fsm ▸ hf)
  command hf := by rw [h.cmd, h.opl]; exact hs.command (h.fsm ▸ hf)
  arrival := by rw [h.arrival]; exact hs.arrival

/-- The reset state is in order, whatever the time and the events still to come. -/
theorem sequencerInv_blockReset (s : State) : SequencerInv (blockReset s) where
  busy_iff := by simp [blockReset, State.reset]
  request := rfl
  delay_ms := rfl
  delay_since _ hd := by cases hd
  operation hf := absurd rfl hf
  command hf := absurd rfl hf
  arrival := rfl

/-- A completion with nothing outstanding leaves the sequencer in order. -/
theorem sequencerInv_complete {u : State} (err : ErrCode) (txerr : BitVec 2) (hq : u.req = none) (hd : u.delay = none) :
    SequencerInv (complete err txerr u) where
  busy_iff := by simp [Status.completed]
  request := hq
  delay_ms := by simp [hd]
  delay_since _ h := by simp [hd] at h
  operation hf := absurd rfl hf
  command hf := absurd rfl hf
  arrival := rfl

/-- Issuing the request of the new place in an operation leaves the sequencer in order. -/
theorem sequencerInv_issue {u : State} {f : Fsm} {q : Request} (hb : u.status.busy = true) (hd : u.delay = none)
    (hf : f ≠ .rstD) (ho : u.opl ∈ operationsOf f) (hc : u.cmd = u.opl) (hq : some q = expectedRequest (issue f q u)) :
    SequencerInv (issue f q u) where
  busy_iff := by
    have hidle : f ≠ .idle := by rintro rfl; cases ho
    simp [hb, hidle]
  request := hq
  delay_ms := by simp [hd, hf]
  delay_since _ h := by simp [hd] at h
  operation _ := ho
  command _ := hc
  arrival := rfl

/-- Issuing the delay of a soft reset leaves the sequencer in order. -/
theorem sequencerInv_issueDelay {u : State} (hb : u.status.busy = true) (hq : u.req = none)
    (ho : u.opl = HostOp.softReset.code) (hc : u.cmd = u.opl) : SequencerInv (issueDelay u) where
  busy_iff := by simp [hb]
  request := hq
  delay_ms := rfl
  delay_since _ h := by cases h; exact Nat.le_refl _
  operation _ := by simp [ho, operationsOf]
  command _ := hc
  arrival := rfl

/-- An operation begins at a place of its own, with that place's request (42_framer_ops.md R166). -/
theorem sequencerInv_started {s : State} (op : HostOp) (hd : s.delay = none) :
    SequencerInv (issue (firstRequest op s.arg).1 (firstRequest op s.arg).2 (setBusy (accept op.code s))) := by
  refine sequencerInv_issue rfl hd ?place ?operation rfl ?request
  case place => cases op <;> simp [firstRequest]
  case operation => cases op <;> simp [firstRequest, operationsOf]
  case request => cases op <;> rfl

/-- Every move keeps the sequencer in order. -/
theorem Moves.sequencerInv {s t : State} {e : Input} (hs : SequencerInv s) (m : Moves s e t) : SequencerInv t := by
  have busy {f : Fsm} (hf : s.fsm = f) (h : f ≠ .idle) : s.status.busy = true := hs.busy_iff.mpr (hf ▸ h)
  have named {f : Fsm} (hf : s.fsm = f) (h : f ≠ .idle) : s.cmd = s.opl := hs.command (hf ▸ h)
  cases m with
  | readOnly | stray => exact hs
  | read | rejected | wrStatus | wrIrqen | wrArg | wrCrc | wrCodec =>
    exact hs.of_undisturbed ⟨rfl, rfl, rfl, rfl, rfl, rfl, rfl, rfl, rfl, rfl, Nat.le_refl _⟩
  | elapsed ms => exact hs.of_undisturbed (undisturbed_elapse ms s)
  | reset => exact sequencerInv_blockReset s
  | started _ op _ _ hb => exact sequencerInv_started op (hs.idle_of_not_busy hb).2.2
  | illegal _ _ _ hb => exact sequencerInv_complete _ _ (hs.idle_of_not_busy hb).2.1 (hs.idle_of_not_busy hb).2.2
  | settle _ hf ho =>
    exact sequencerInv_issueDelay (busy hf (by simp)) rfl ho (named hf (by simp))
  | resetDone _ hf =>
    exact sequencerInv_complete _ _ (hs.request.trans (by simp [expectedRequest, hf])) rfl
  | commanded hf ho =>
    exact sequencerInv_issue (busy hf (by simp)) (hs.delay_none (by simp [hf])) (by simp) ho (named hf (by simp)) rfl
  | modified b p hf hp =>
    refine sequencerInv_issue (busy hf (by simp)) (hs.delay_none (by simp [hf])) (by simp) ?operation
      (named hf (by simp)) ?request
    case operation => rcases hp with ⟨ho, -⟩ | ⟨ho, -⟩ <;> simp [ho, operationsOf]
    case request =>
      rcases hp with ⟨ho, rfl⟩ | ⟨ho, rfl⟩ <;>
        simp [expectedRequest, payloadInFlight, ho, Request.writeOf, wireWriteCfg, HostOp.code]
  | failed _ hf =>
    exact sequencerInv_complete _ _ rfl (hs.delay_none (by intro h; simp [h] at hf))
  | sampled _ _ _ hf | corrupt _ _ _ hf | readDone _ hf | written hf | heaterDone _ hf =>
    exact sequencerInv_complete _ _ rfl (hs.delay_none (by simp [hf]))

theorem step_keeps_sequencerInv {s t : State} (hs : SequencerInv s) (h : step s = .next t) : SequencerInv t :=
  step_keeps (fun rest _ => sequencerInv_takeEvent rest) (fun _ _ _ hu he => (event_moves hu he).sequencerInv hu) hs h

/-- Settles O36: every event is one of the moves (`event_moves`), and every move keeps the sequencer in order. -/
theorem stepKeepsSequencerInv : Obligations.StepKeepsSequencerInv := fun _ _ => step_keeps_sequencerInv

/-! ### The results -/

/-- A move other than block reset leaves the results, or ends an operation with ERR = NONE. -/
theorem Moves.results_eq_or_succeeded {s t : State} {e : Input} (m : Moves s e t) (he : e ≠ .blockReset) :
    t.results = s.results ∨ (s.fsm ≠ .idle ∧ t.fsm = .idle ∧ t.status.done = true ∧ t.status.err = .none) := by
  cases m with
  | reset => exact absurd rfl he
  | resetDone _ hf | sampled _ _ _ hf | readDone _ hf | written hf | heaterDone _ hf =>
    exact .inr ⟨by simp [hf], rfl, rfl, rfl⟩
  | read | rejected | started | illegal | wrStatus | wrIrqen | wrArg | wrCrc | wrCodec | readOnly | stray | elapsed
  | settle | failed | commanded | corrupt | modified => exact .inl rfl

/-- Settles O39, by the moves: only those that complete with NONE write a result register. -/
theorem resultsChangeOnlyInASuccessfulCompletion : Obligations.ResultsChangeOnlyInASuccessfulCompletion := by
  intro s t hs h hreset hchanged
  rcases step_moves hs h with ⟨-, rfl⟩ | ⟨e, rest, hi, m⟩
  · exact absurd rfl hchanged
  · have he : e ≠ .blockReset := by simpa [hi] using hreset
    exact (m.results_eq_or_succeeded he).resolve_left hchanged

/-! ### What does not move an operation in progress -/

/-- Settles O43: a step takes an event that leaves the operation undisturbed (`event_undisturbed`), or none. -/
theorem onlyAnswersAndResetMoveTheSequencer : Obligations.OnlyAnswersAndResetMoveTheSequencer := by
  intro s t hs hf h hreset hanswer
  suffices hu : Undisturbed s t from
    ⟨hu.fsm, hu.req, hu.delay, hu.opl, hu.argl, hu.tb, hu.cmd, hu.results, hu.busy.trans (hs.busy_iff.mpr hf)⟩
  cases hi : s.inbox with
  | nil =>
    rw [step_nil hi] at h
    cases h
    exact .refl s
  | cons e rest =>
    rw [step_cons hi] at h
    have hna : ¬ Answers s e := hanswer e (by simp [hi])
    have hne : e ≠ .blockReset := by simpa [hi] using hreset
    exact (event_undisturbed (sequencerInv_takeEvent rest hs) hf (hna ∘ answers_takeEvent.mp) hne h).of_takeEvent

/-! ### Host accesses and refusals -/

/-- An access drives `h_rdata` exactly when it is a read (10_state.md R22; log 9), and takes nothing from the inbox. -/
theorem Moves.port_of_access {s t : State} {w : AccessWord} (m : Moves s (.access w) t) (hp : s.hRdata = none) :
    t.inbox = s.inbox ∧ (t.hRdata = none ↔ accessWe w = true) := by
  cases m with
  | read _ hw => exact ⟨rfl, by simp [hw]⟩
  | stray _ _ hne => exact absurd rfl (hne w)
  | rejected _ hw | started _ _ hw | illegal _ hw | wrStatus _ hw | wrIrqen _ hw | wrArg _ hw | wrCrc _ _ hw
  | wrCodec _ _ hw | readOnly _ hw => exact ⟨rfl, iff_of_true hp hw⟩

/-- Settles O49: an access has a next state (`event_access`), and each access move is a read or a write. -/
theorem everyHostAccessCompletes : Obligations.EveryHostAccessCompletes := by
  intro s w rest hs hi
  obtain ⟨t, ht, m⟩ := event_access (sequencerInv_takeEvent rest hs) w
  exact ⟨t, (step_cons hi).trans ht, m.port_of_access rfl⟩

/-- In a state in order an event is refused only for a breach of the environment's contract. -/
theorem breachesContract_of_refused {s : State} {e : Input} {why : Refusal} (hs : SequencerInv s)
    (h : event e s = .refused why) : BreachesContract s e why := by
  have not_next {t : State} (ht : event e s = .next t) : False := by rw [h] at ht; cases ht
  by_cases ha : Answers s e
  · obtain ⟨t, ht, -⟩ := event_of_answers hs ha
    exact (not_next ht).elim
  · by_cases hacc : ∃ w, e = .access w
    · obtain ⟨w, rfl⟩ := hacc
      obtain ⟨t, ht, -⟩ := event_access hs w
      exact (not_next ht).elim
    · have hr : e ≠ .blockReset := by rintro rfl; cases h
      rcases event_of_not_answers ha (not_exists.mp hacc) hr with ⟨t, ht, -⟩ | ⟨why', hw, hbreach⟩
      · exact (not_next ht).elim
      · rw [h] at hw
        cases hw
        exact hbreach

/-- Settles O50: an access and an answer to what is outstanding have a next state, so what is refused is a breach. -/
theorem onlyContractBreachesAreRefused : Obligations.OnlyContractBreachesAreRefused := by
  intro s why hs h
  cases hi : s.inbox with
  | nil => rw [step_nil hi] at h; cases h
  | cons e rest =>
    rw [step_cons hi] at h
    have hbreach := breachesContract_of_refused (sequencerInv_takeEvent rest hs) h
    cases why with
    | notModelled => exact hbreach.elim
    | responseShape =>
      obtain ⟨q, bytes, hq, rfl, hl⟩ := hbreach
      exact .inl ⟨rfl, q, bytes, hq, rfl, hl⟩
    | earlyDelayDone =>
      obtain ⟨rfl, d, hd, ht⟩ := hbreach
      exact .inr (.inl ⟨rfl, rfl, d, hd, ht⟩)
    | abandonedAnswer =>
      rcases hbreach with ⟨r, rfl, hq⟩ | ⟨rfl, hd⟩
      · exact .inr (.inr ⟨rfl, .inl ⟨r, rfl, hq⟩⟩)
      · exact .inr (.inr ⟨rfl, .inr ⟨rfl, hd⟩⟩)

end Sys2Proof.Machine
end

section
/-! Proofs of the statements of 10_state.md about STATUS and the measurement registers: they hold from any state whatever,
so they rest on the effects of Laws/Framer.lean and not on the moves of a state in order. -/

namespace Sys2Proof.Machine

/-! ### What an access does to STATUS and the sample, from any state -/

/-- A CMD access runs `writeCommand`, under either of its rows (log 5). -/
theorem exec_writeOf_cmd (busy : Bool) (v : Byte) (s : State) : exec (writeOf busy .cmd v) s = writeCommand v s := by
  cases busy <;> rfl

/-- A CMD write is rejected, or has an operation's effects on the state after the acceptance. -/
theorem writeCommand_effect {v : Byte} {s t : State} (h : writeCommand v s = .next t) :
    t = reject s ∨ OpEffect (setBusy (accept v s)) t ∨ OpEffect (accept v s) t := by
  unfold writeCommand at h
  split at h
  · cases h; exact .inl rfl
  · unfold acceptCommand at h
    split at h
    · exact .inr (.inl (runOp_effect h))
    · exact .inr (.inr (execIllegal_effect h))

/-- STATUS after an access: as before, with OVR set, with flags cleared, or after an operation's event that began with an
acceptance. -/
inductive AccessStatus (a : Status) : Status → Prop where
  | kept : AccessStatus a a
  | rejected : AccessStatus a a.rejected
  | cleared (v : Byte) : AccessStatus a (a.cleared v)
  | started {b : Status} : StatusEffect a.accepted.started b → AccessStatus a b
  | illegal {b : Status} : StatusEffect a.accepted b → AccessStatus a b

theorem event_access_effect {s t : State} {w : AccessWord} (h : event (.access w) s = .next t) :
    AccessStatus s.status t.status ∧ SampleEffect s t := by
  have h : exec (decodeAccess s.status.busy w) s = .next t := h
  have same : SampleEffect s s := .inl ⟨rfl, rfl⟩
  by_cases hw : accessWe w = true
  · simp only [decodeAccess, hw, if_true] at h
    cases hr : Reg.ofAddr (accessAddr w) with
    | cmd =>
      rw [hr, exec_writeOf_cmd] at h
      rcases writeCommand_effect h with rfl | ho | ho
      · exact ⟨.rejected, same⟩
      · exact ⟨.started ho.status, ho.sample⟩
      · exact ⟨.illegal ho.status, ho.sample⟩
    | status =>
      rw [hr] at h
      cases h
      exact ⟨.cleared _, same⟩
    | irqen | arg | crcAcc | crcDin | codecByte | codecFields | rawh | rawl | mstat | mcrc | cfgRd | cfgWr | cfgFields
    | valid =>
      rw [hr] at h
      cases h
      exact ⟨.kept, same⟩
  · simp only [decodeAccess, hw] at h
    cases hr : Reg.ofAddr (accessAddr w) <;> rw [hr] at h <;> cases h <;> exact ⟨.kept, same⟩

/-! ### STATUS -/

theorem StatusInv.of_eq {s t : State} (hs : StatusInv s) (h : t.status = s.status) : StatusInv t where
  quiet_while_busy := by rw [h]; exact hs.quiet_while_busy
  txerr_only_transport := by rw [h]; exact hs.txerr_only_transport
  never_decode := by rw [h]; exact hs.never_decode

/-- Where STATUS shows no outcome it is in order. -/
theorem statusInv_of_no_outcome {t : State} (hd : t.status.done = false) (he : t.status.err = .none)
    (hx : t.status.txerr = 0) : StatusInv t where
  quiet_while_busy _ := ⟨hd, he, hx⟩
  txerr_only_transport h := absurd hx h
  never_decode := by simp [he]

/-- An acceptance clears the outcome before (43_host_access.md R185). -/
theorem statusInv_accept (v : Byte) (s : State) : StatusInv (accept v s) := statusInv_of_no_outcome rfl rfl rfl

theorem statusInv_setBusy_accept (v : Byte) (s : State) : StatusInv (setBusy (accept v s)) :=
  statusInv_of_no_outcome rfl rfl rfl

/-- A completion, but with DECODE, puts STATUS in order, whatever it was. -/
theorem statusInv_of_completed {t : State} {a : Status} {e : ErrCode} {x : BitVec 2} (he : e ≠ .decode)
    (h : t.status = a.completed e x) : StatusInv t where
  quiet_while_busy hb := by rw [h] at hb; cases hb
  txerr_only_transport hx := by
    rw [h] at hx ⊢
    by_contra hne
    exact hx (if_neg hne)
  never_decode := by rw [h]; exact he

/-- An operation's event keeps STATUS in order. -/
theorem StatusInv.of_effect {s t : State} (hs : StatusInv s) (h : StatusEffect s.status t.status) : StatusInv t := by
  rcases h with h | ⟨e, x, he, h⟩
  · exact hs.of_eq h
  · exact statusInv_of_completed he h

/-- An access keeps STATUS in order. -/
theorem StatusInv.of_access {s t : State} (hs : StatusInv s) (h : AccessStatus s.status t.status) : StatusInv t := by
  generalize ht : t.status = b at h
  cases h with
  | kept => exact hs.of_eq ht
  | rejected => exact ⟨by rw [ht]; exact hs.quiet_while_busy, by rw [ht]; exact hs.txerr_only_transport,
      by rw [ht]; exact hs.never_decode⟩
  | cleared v =>
    refine ⟨fun hb => ?_, by rw [ht]; exact hs.txerr_only_transport, by rw [ht]; exact hs.never_decode⟩
    rw [ht] at hb ⊢
    obtain ⟨hd, he, hx⟩ := hs.quiet_while_busy hb
    exact ⟨by simp [Status.cleared, hd], he, hx⟩
  | started hb => exact (statusInv_setBusy_accept s.cmd s).of_effect (ht ▸ hb)
  | illegal hb => exact (statusInv_accept s.cmd s).of_effect (ht ▸ hb)

theorem statusInv_blockReset (s : State) : StatusInv (blockReset s) := statusInv_of_no_outcome rfl rfl rfl

/-- An event keeps STATUS in order. -/
theorem event_keeps_statusInv {s t : State} {e : Input} (hs : StatusInv s) (h : event e s = .next t) : StatusInv t := by
  cases e with
  | access w => exact hs.of_access (event_access_effect h).1
  | blockReset => cases h; exact statusInv_blockReset s
  | response | secondResponse | delayDone | lateResponse | lateDelayDone | elapse =>
    exact hs.of_effect (event_answer_effect (by simp) (by simp) h).1

/-- Settles O37: an event keeps STATUS in order, and taking it from the inbox leaves STATUS alone. -/
theorem stepKeepsStatusInv : Obligations.StepKeepsStatusInv := fun _ _ =>
  step_keeps (fun _ _ hs => hs.of_eq rfl) fun _ _ _ => event_keeps_statusInv

/-! ### The measurement registers -/

theorem maskedLow_and_three (d : Byte) : maskedLow d &&& 0x03 = 0 := by revert d; decide

/-- The two stored parts of the low byte together are the byte as received (10_state.md R32, R33). -/
theorem maskedLow_or_statusBits (d : Byte) : maskedLow d ||| (statusBits d).setWidth 8 = d := by revert d; decide

/-- An operation's event keeps the registers one intact sample or none. -/
theorem SampleInv.of_effect {s t : State} (hs : SampleInv s) (h : SampleEffect s t) : SampleInv t := by
  rcases h with ⟨hsample, hv⟩ | ⟨kind, d0, d1, c, hc, hsample, hv⟩ <;>
    simp only [State.sample, Prod.mk.injEq] at hsample <;> obtain ⟨hrawh, hrawl, hmstat, hmcrc⟩ := hsample
  · exact ⟨by rw [hrawl]; exact hs.rawl_masked, by rw [hv, hrawh, hrawl, hmstat, hmcrc]; exact hs.checksum,
      by rw [hv, hrawh, hrawl, hmstat, hmcrc]; exact hs.before_first⟩
  · refine ⟨by rw [hrawl]; exact maskedLow_and_three d1, fun _ => ?_, fun h => by simp [hv] at h⟩
    rw [hrawh, hrawl, hmstat, hmcrc, maskedLow_or_statusBits, hc]

theorem sampleInv_blockReset (s : State) : SampleInv (blockReset s) where
  rawl_masked := (by decide : State.reset.rawl &&& 0x03 = 0)
  checksum h := by cases h
  before_first _ := ⟨rfl, rfl, (by decide : State.reset.mstat.toByte = 0), rfl⟩

/-- An event keeps the registers one intact sample or none. -/
theorem event_keeps_sampleInv {s t : State} {e : Input} (hs : SampleInv s) (h : event e s = .next t) : SampleInv t := by
  cases e with
  | access w => exact hs.of_effect (event_access_effect h).2
  | blockReset => cases h; exact sampleInv_blockReset s
  | response | secondResponse | delayDone | lateResponse | lateDelayDone | elapse =>
    exact hs.of_effect (event_answer_effect (by simp) (by simp) h).2.1

/-- Settles O38: an event keeps the registers, and taking it from the inbox leaves them alone. -/
theorem stepKeepsSampleInv : Obligations.StepKeepsSampleInv := fun _ _ =>
  step_keeps (fun _ _ hs => hs.of_effect (.inl ⟨rfl, rfl⟩)) fun _ _ _ => event_keeps_sampleInv

/-- Settles O35: block reset in the reset state itself gives the reset state. -/
theorem invariantsHoldAtReset : Obligations.InvariantsHoldAtReset :=
  ⟨sequencerInv_blockReset State.reset, statusInv_blockReset State.reset, sampleInv_blockReset State.reset⟩

end Sys2Proof.Machine
end

section
/-! Proof of the statement of 10_state.md that the latches do not matter in IDLE: two runs are compared state by state.
While the block is idle they may differ in all three latches, after an acceptance in TB only, and not in TB where the
operation in progress reads it. -/

namespace Sys2Proof.Machine

/-! ### States alike but for latches that are not read -/

/-- `s` with another TB. -/
def State.withTb (s : State) (v : Byte) : State := { s with tb := v }

/-- TB is read only where a heater operation awaits its Write (42_framer_ops.md R163, R164). -/
def State.readsTb (s : State) : Prop := s.fsm = .cfgwW ∧ (s.opl = HostOp.heaterOn.code ∨ s.opl = HostOp.heaterOff.code)

theorem State.readsTb.op {s : State} (h : s.readsTb) :
    HostOp.ofByte? s.opl = some .heaterOn ∨ HostOp.ofByte? s.opl = some .heaterOff := by
  rcases h.2 with ho | ho <;> simp [ho]

/-- The latches of `s` may as well hold `o`, `a` and `b`: where they differ, nothing reads them before writing them. -/
structure LatchesMayBe (s : State) (o a b : Byte) : Prop where
  opl : s.fsm ≠ .idle → o = s.opl
  argl : s.fsm ≠ .idle → a = s.argl
  tb : s.readsTb → b = s.tb

theorem latchesMayBe_own {s : State} {v : Byte} (h : s.readsTb → v = s.tb) : LatchesMayBe s s.opl s.argl v :=
  ⟨fun _ => rfl, fun _ => rfl, h⟩

theorem latchesMayBe_idle {s : State} (hf : s.fsm = .idle) (o a b : Byte) : LatchesMayBe s o a b :=
  ⟨fun h => absurd hf h, fun h => absurd hf h, fun h => absurd (hf.symm.trans h.1) (by simp)⟩

/-- The second state is the first but for latches that nothing reads before writing them. -/
inductive Alike (s : State) : State → Prop where
  | mk {o a b : Byte} : LatchesMayBe s o a b → Alike s (s.withLatches o a b)

theorem Alike.refl (s : State) : Alike s s := .mk (latchesMayBe_own fun _ => rfl)

theorem alike_withTb {s : State} {v : Byte} (h : s.readsTb → v = s.tb) : Alike s (s.withTb v) := .mk (latchesMayBe_own h)

/-- Results that are alike: alike next states, or the same refusal. -/
inductive ResultsAlike : Result → Result → Prop where
  | next {s t : State} : Alike s t → ResultsAlike (.next s) (.next t)
  | refused (why : Refusal) : ResultsAlike (.refused why) (.refused why)

theorem ResultsAlike.refl (r : Result) : ResultsAlike r r := by
  cases r with
  | next s => exact .next (.refl s)
  | fault f => cases f
  | refused why => exact .refused why

/-- Another TB in the next state, where the next state does not read it. -/
theorem resultsAlike_withTb {r : Result} (v : Byte) (h : ∀ t, r = .next t → ¬ t.readsTb) :
    ResultsAlike r (mapNext (·.withTb v) r) := by
  cases r with
  | next s => exact .next (alike_withTb fun hr => absurd hr (h s rfl))
  | fault f => cases f
  | refused why => exact .refused why

/-- Alike results are the same but for the latches. -/
theorem ResultsAlike.mapNext_eq {r q : Result} (h : ResultsAlike r q) (o a b : Byte) :
    mapNext (·.withLatches o a b) q = mapNext (·.withLatches o a b) r := by
  cases h with
  | next hst => cases hst; rfl
  | refused => rfl

/-! ### Operations that do not use TB -/

section
variable {s : State} {v : Byte}

theorem send_withTb (f : Fsm) (q : Request) : send f q (s.withTb v) = (send f q s).withTb v := by
  unfold send
  rw [show (s.withTb v).pending = s.pending from rfl]
  split <;> rfl

theorem measureFrames_withTb (c : Byte) : measureFrames c (s.withTb v) = (measureFrames c s).withTb v := by
  unfold measureFrames
  rw [show (s.withTb v).fsm = s.fsm from rfl, show (s.withTb v).arrival = s.arrival from rfl]
  split
  · exact send_withTb _ _
  · rfl
  · exact send_withTb _ _

theorem awaitOk_withTb {k k' : List Byte → Result} (hk : ∀ bytes, k' bytes = mapNext (·.withTb v) (k bytes)) :
    awaitOk (s.withTb v) k' = mapNext (·.withTb v) (awaitOk s k) := by
  unfold awaitOk
  rw [show (s.withTb v).arrival = s.arrival from rfl]
  split
  · exact hk _
  · rfl
  · rfl
  · rfl

theorem readCfgThen_withTb {k k' : Byte → Result} (hk : ∀ b, k' b = mapNext (·.withTb v) (k b)) :
    readCfgThen (s.withTb v) k' = mapNext (·.withTb v) (readCfgThen s k) := by
  refine awaitOk_withTb fun bytes => ?_
  split
  · rw [cfgDecode_eq]; exact hk _
  · rfl

theorem writeDoneThen_withTb {k k' : Result} (hk : k' = mapNext (·.withTb v) k) :
    writeDoneThen (s.withTb v) k' = mapNext (·.withTb v) (writeDoneThen s k) := by
  refine awaitOk_withTb fun bytes => ?_
  split
  · exact hk
  · rfl

theorem execSoftReset_withTb : execSoftReset (s.withTb v) = mapNext (·.withTb v) (execSoftReset s) := by
  unfold execSoftReset
  rw [show (s.withTb v).fsm = s.fsm from rfl, show (s.withTb v).arrival = s.arrival from rfl]
  split
  · exact congrArg Host.Outcome.next (send_withTb _ _)
  · split <;> rfl
  · split <;> rfl
  all_goals rfl

theorem measureRun_withTb {wire : State → Result} {kind : MeasKind}
    (hw : wire (s.withTb v) = mapNext (·.withTb v) (wire s)) :
    measureRun wire kind (s.withTb v) = mapNext (·.withTb v) (measureRun wire kind s) := by
  unfold measureRun
  rw [show (s.withTb v).fsm = s.fsm from rfl]
  split
  · exact hw
  · refine awaitOk_withTb fun bytes => ?_
    split
    · exact hw
    · rfl
  · refine awaitOk_withTb fun bytes => ?_
    split
    · split <;> rfl
    · rfl
  all_goals rfl

theorem readConfiguration_withTb : readConfiguration (s.withTb v) = mapNext (·.withTb v) (readConfiguration s) := by
  unfold readConfiguration
  rw [show (s.withTb v).fsm = s.fsm from rfl]
  split
  · exact congrArg Host.Outcome.next (send_withTb _ _)
  · exact readCfgThen_withTb fun _ => rfl
  all_goals rfl

theorem execWriteCfg_withTb : execWriteCfg (s.withTb v) = mapNext (·.withTb v) (execWriteCfg s) := by
  unfold execWriteCfg
  rw [show (s.withTb v).fsm = s.fsm from rfl]
  split
  · exact congrArg Host.Outcome.next (send_withTb _ _)
  · exact writeDoneThen_withTb rfl
  all_goals rfl

theorem execIllegal_withTb (b : Byte) : execIllegal b (s.withTb v) = mapNext (·.withTb v) (execIllegal b s) := by
  unfold execIllegal
  rw [show (s.withTb v).fsm = s.fsm from rfl]
  split <;> rfl

/-- Only the heater operations use TB (10_state.md R46). -/
theorem runOp_withTb {op : HostOp} (hon : op ≠ .heaterOn) (hoff : op ≠ .heaterOff) :
    runOp op (s.withTb v) = mapNext (·.withTb v) (runOp op s) := by
  cases op with
  | softReset => exact execSoftReset_withTb
  | measT | measRh => exact measureRun_withTb (congrArg Host.Outcome.next (measureFrames_withTb _))
  | readCfg | readEob => exact readConfiguration_withTb
  | writeCfg => exact execWriteCfg_withTb
  | heaterOn => exact absurd rfl hon
  | heaterOff => exact absurd rfl hoff

end

/-! ### The heater operations -/

theorem send_fsm (f : Fsm) (q : Request) (s : State) : (send f q s).fsm = f ∨ (send f q s).fsm = s.fsm := by
  rcases send_cases f q s with ⟨-, -, h⟩ | ⟨-, h⟩ <;> rw [h]
  · exact .inl rfl
  · exact .inr rfl

/-- A heater operation writes TB with the byte it reads, and reads it only where it awaits its Write. -/
theorem heater_alike {s : State} {v : Byte} (h : BitVec 1) (htb : s.fsm = .cfgwW → v = s.tb) :
    ResultsAlike (heater h s) (heater h (s.withTb v)) := by
  have elsewhere {t : State} (hf : t.fsm ≠ .cfgwW) : Alike t (t.withTb v) := alike_withTb fun hr => absurd hr.1 hf
  cases hf : s.fsm with
  | cfgwW =>
    rw [htb hf]
    exact .refl _
  | cfgrW =>
    have hf' : (s.withTb v).fsm = .cfgrW := hf
    simp only [heater, hf, hf', readCfgThen]
    rcases ha : s.arrival with _ | ⟨⟨bytes⟩ | ⟨code⟩⟩ | _ <;>
      simp only [awaitOk, ha, show (s.withTb v).arrival = s.arrival from rfl]
    · exact .next (elsewhere (by simp [hf]))
    · split
      · rw [cfgDecode_eq]; exact .refl _
      · exact .refused _
    · exact .next (elsewhere (by simp))
    · exact .next (elsewhere (by simp [hf]))
  | idle =>
    have hf' : (s.withTb v).fsm = .idle := hf
    simp only [heater, hf, hf', execCmdReadCfg, send_withTb]
    refine .next (elsewhere ?_)
    rcases send_fsm .cfgrW (Request.writeReadOf wireReadCfg) s with h | h <;> simp [h, hf]
  | rstW | rstD | measW | measR =>
    have hf' : (s.withTb v).fsm = s.fsm := rfl
    simp only [heater, hf', hf]
    exact .next (elsewhere (by simp [hf]))

/-! ### Answers -/

/-- The operation OPL names, in two states that differ in TB where it is not read. -/
theorem exec_opl_alike {s : State} {v : Byte} (htb : s.readsTb → v = s.tb) :
    ResultsAlike (exec (decodeOp s.opl) s) (exec (decodeOp s.opl) (s.withTb v)) := by
  unfold decodeOp
  split
  · next op hop =>
    have hcode : op.code = s.opl := HostOp.code_of_ofByte hop
    rw [exec_instr, exec_instr]
    by_cases hon : op = .heaterOn
    · subst hon
      exact heater_alike 1 fun hf => htb ⟨hf, .inl hcode.symm⟩
    · by_cases hoff : op = .heaterOff
      · subst hoff
        exact heater_alike 0 fun hf => htb ⟨hf, .inr hcode.symm⟩
      · rw [runOp_withTb hon hoff]
        refine resultsAlike_withTb v fun t ht hr => ?_
        obtain ⟨-, -, -, hopl, -⟩ := (runOp_effect ht).port
        have hheater := hr.op
        simp [hopl, hop, hon, hoff] at hheater
  · next hop =>
    show ResultsAlike (execIllegal s.opl s) (execIllegal s.opl (s.withTb v))
    rw [execIllegal_withTb]
    refine resultsAlike_withTb v fun t ht hr => ?_
    obtain ⟨-, -, -, hopl, -⟩ := (execIllegal_effect ht).port
    have hheater := hr.op
    simp [hopl, hop] at hheater

/-- What the block does with an answer, carried along a map of states. -/
def Presented.map (f : State → State) : Presented → Presented
  | .ignored => .ignored
  | .refused why => .refused why
  | .received s => .received (f s)

/-- An answer comes to the running operation, which OPL names in both states. -/
theorem resume_alike {s : State} {o a b : Byte} {p : Presented} (hl : LatchesMayBe s o a b)
    (hp : ∀ u, p = .received u → s.fsm ≠ .idle ∧ ∃ x q d, u = { s with arrival := x, req := q, delay := d }) :
    ResultsAlike (resume s p) (resume (s.withLatches o a b) (p.map (·.withLatches o a b))) := by
  cases p with
  | ignored => exact .next (.mk hl)
  | refused why => exact .refused why
  | received u =>
    obtain ⟨hf, x, q, d, rfl⟩ := hp u rfl
    rw [hl.opl hf, hl.argl hf]
    exact exec_opl_alike hl.tb

section
variable (s : State) (o a b : Byte)

theorem presentResponse_withLatches (r : Response) :
    presentResponse r (s.withLatches o a b) = (presentResponse r s).map (·.withLatches o a b) := by
  unfold presentResponse
  rw [show (s.withLatches o a b).req = s.req from rfl]
  split
  · rfl
  · split <;> rfl

theorem presentDelayDone_withLatches :
    presentDelayDone (s.withLatches o a b) = (presentDelayDone s).map (·.withLatches o a b) := by
  unfold presentDelayDone
  rw [show (s.withLatches o a b).delay = s.delay from rfl, show (s.withLatches o a b).fsm = s.fsm from rfl,
    show (s.withLatches o a b).nowMs = s.nowMs from rfl]
  split
  · rfl
  · split
    · split <;> rfl
    · rfl

theorem presentLateResponse_withLatches :
    presentLateResponse (s.withLatches o a b) = (presentLateResponse s).map (·.withLatches o a b) := by
  unfold presentLateResponse
  rw [show (s.withLatches o a b).req = s.req from rfl]
  split <;> rfl

theorem presentLateDelayDone_withLatches :
    presentLateDelayDone (s.withLatches o a b) = (presentLateDelayDone s).map (·.withLatches o a b) := by
  unfold presentLateDelayDone
  rw [show (s.withLatches o a b).delay = s.delay from rfl]
  split <;> rfl

end

/-! ### Accesses -/

/-- An access that is no accepted CMD write does the same whatever the latches hold. -/
theorem event_access_withLatches {s : State} {w : AccessWord} (o a b : Byte)
    (hb : accessWe w = true → Reg.ofAddr (accessAddr w) = .cmd → s.status.busy = true) :
    event (.access w) (s.withLatches o a b) = mapNext (·.withLatches o a b) (event (.access w) s) := by
  show exec (decodeAccess s.status.busy w) _ = mapNext _ (exec (decodeAccess s.status.busy w) s)
  unfold decodeAccess
  split
  · next hw =>
    cases hr : Reg.ofAddr (accessAddr w) with
    | cmd =>
      have hbusy := hb hw hr
      rw [exec_writeOf_cmd, exec_writeOf_cmd, writeCommand_busy _ hbusy,
        writeCommand_busy (s := s.withLatches o a b) _ hbusy]
      rfl
    | _ => rfl
  · cases Reg.ofAddr (accessAddr w) <;> rfl

/-- An accepted CMD write overwrites OPL and ARGL, and what it starts reads TB only after writing it. -/
theorem writeCommand_alike {s : State} (v o a b : Byte) (hs : SequencerInv s) (hb : s.status.busy = false) :
    ResultsAlike (writeCommand v s) (writeCommand v (s.withLatches o a b)) := by
  obtain ⟨hf, hq, hd⟩ := hs.idle_of_not_busy hb
  rw [writeCommand_idle _ hb, writeCommand_idle (s := s.withLatches o a b) _ hb]
  rcases reserved_or_code v with h | ⟨op, rfl⟩
  · rw [acceptCommand_reserved hf h, acceptCommand_reserved (s := s.withLatches o a b) hf h]
    exact .next (alike_withTb (v := b) fun hr => nomatch hr.1)
  · rw [acceptCommand_op hf hq hd, acceptCommand_op (s := s.withLatches o a b) hf hq hd]
    refine .next (alike_withTb (v := b) fun hr => ?_)
    obtain ⟨hplace, hheater⟩ := hr
    cases op <;> simp [firstRequest, HostOp.code] at hplace hheater

theorem LatchesMayBe.of_undisturbed {s t : State} {o a b : Byte} (hl : LatchesMayBe s o a b) (hu : Undisturbed s t) :
    LatchesMayBe t o a b where
  opl hf := (hl.opl (hu.fsm ▸ hf)).trans hu.opl.symm
  argl hf := (hl.argl (hu.fsm ▸ hf)).trans hu.argl.symm
  tb hr := (hl.tb (by rw [State.readsTb, ← hu.fsm, ← hu.opl]; exact hr)).trans hu.tb.symm

theorem event_access_alike {s : State} {o a b : Byte} (w : AccessWord) (hs : SequencerInv s)
    (hl : LatchesMayBe s o a b) : ResultsAlike (event (.access w) s) (event (.access w) (s.withLatches o a b)) := by
  by_cases hb : accessWe w = true → Reg.ofAddr (accessAddr w) = .cmd → s.status.busy = true
  · obtain ⟨t, ht, m⟩ := event_access hs w
    rw [event_access_withLatches o a b hb, ht]
    exact .next (.mk (hl.of_undisturbed (m.undisturbed_of_access hb)))
  · simp only [Classical.not_imp] at hb
    obtain ⟨hw, hr, hidle⟩ := hb
    have command (u : State) : event (.access w) u = writeCommand (accessData w) u := by
      simp only [event, decodeAccess, hw, if_true, hr, exec_writeOf_cmd]
    rw [command, command]
    exact writeCommand_alike _ o a b hs (by simpa using hidle)

/-! ### Events, steps and runs -/

theorem event_alike {s t : State} (e : Input) (hs : SequencerInv s) (hst : Alike s t) :
    ResultsAlike (event e s) (event e t) := by
  obtain @⟨o, a, b, hl⟩ := hst
  cases e with
  | access w => exact event_access_alike w hs hl
  | response r =>
    simp only [event, presentResponse_withLatches]
    refine resume_alike hl fun u hu => ?_
    rcases presentResponse_cases r s with ⟨-, hp⟩ | ⟨q, hq, -, hp⟩ | ⟨q, -, -, hp⟩ <;> rw [hp] at hu <;> cases hu
    refine ⟨fun hf => ?_, _, _, _, rfl⟩
    simp [hs.request, expectedRequest, hf] at hq
  | delayDone =>
    simp only [event, presentDelayDone_withLatches]
    refine resume_alike hl fun u hu => ?_
    rcases presentDelayDone_cases s with ⟨-, hp⟩ | ⟨d, hf, -, -, hp⟩ | ⟨d, -, -, -, hp⟩ <;> rw [hp] at hu <;> cases hu
    exact ⟨by simp [hf], _, _, _, rfl⟩
  | secondResponse r => exact .next (.mk hl)
  | lateResponse r =>
    simp only [event, presentLateResponse_withLatches]
    refine resume_alike hl fun u hu => ?_
    unfold presentLateResponse at hu
    split at hu <;> cases hu
  | lateDelayDone =>
    simp only [event, presentLateDelayDone_withLatches]
    refine resume_alike hl fun u hu => ?_
    unfold presentLateDelayDone at hu
    split at hu <;> cases hu
  | elapse ms => exact .next (.mk (hl.of_undisturbed (undisturbed_elapse ms s)))
  | blockReset => exact .refl (.next (blockReset s))

theorem step_alike {s t : State} (hs : SequencerInv s) (hst : Alike s t) : ResultsAlike (step s) (step t) := by
  obtain @⟨o, a, b, hl⟩ := hst
  cases hi : s.inbox with
  | nil =>
    rw [step_nil hi, step_nil (s := s.withLatches o a b) hi]
    exact .next (.mk hl)
  | cons e rest =>
    rw [step_cons hi, step_cons (s := s.withLatches o a b) hi]
    exact event_alike e (sequencerInv_takeEvent rest hs) (.mk (s := takeEvent rest s) ⟨hl.opl, hl.argl, hl.tb⟩)

theorem run_refused {s : State} {why : Refusal} (n : Nat) (h : step s = .refused why) :
    core.run (n + 1) s = .refused why := by
  have h' : core.step s = .refused why := h
  simp only [Host.Core.run, h']

theorem run_alike (n : Nat) {s t : State} (hs : SequencerInv s) (hst : Alike s t) :
    ResultsAlike (core.run n s) (core.run n t) := by
  induction n generalizing s t with
  | zero => exact .next hst
  | succ n ih =>
    have h := step_alike hs hst
    generalize hr : step s = r, hq : step t = q at h
    cases h with
    | next hst' =>
      rw [run_next n hr, run_next n hq]
      exact ih (step_keeps_sequencerInv hs hr) hst'
    | refused why =>
      rw [run_refused n hr, run_refused n hq]
      exact .refused why

/-- Settles O46: in IDLE the latches may hold anything, and runs from alike states stay alike, by induction on their
length. -/
theorem latchesInIdleDoNotMatter : Obligations.LatchesInIdleDoNotMatter := fun _ opl argl tb n hs hf =>
  (run_alike n hs (.mk (latchesMayBe_idle hf opl argl tb))).mapNext_eq 0 0 0

end Sys2Proof.Machine
end

section
/-! Proofs of the statements of 10_state.md about single words, wire commands, answers and whole operations. -/

namespace Sys2Proof.Machine

/-! ### Encodings -/

/-- Settles O1: the decoder computes on fixed words. -/
theorem specWordsDecode : Obligations.SpecWordsDecode := by
  refine ⟨?reads, ?writes, ?codes, ?others⟩ <;> decide

/-! ### Wire commands -/

/-- With something outstanding a measurement command sends neither of its transactions. -/
theorem measureFrames_pending {s : State} (c : Byte) (h : s.pending = true) : measureFrames c s = s := by
  unfold measureFrames
  split
  · exact send_pending _ _ h
  · rfl
  · exact send_pending _ _ h

/-- Settles O29: the five commands send through `send`, which does nothing while something is outstanding. -/
theorem nothingIsSentWhileOneIsOutstanding : Obligations.NothingIsSentWhileOneIsOutstanding := by
  intro s i hout hi
  have hp : s.pending = true := by
    simpa [State.pending, Option.isSome_iff_ne_none] using hout
  rcases hi with rfl | rfl | rfl | ⟨b, rfl⟩ | rfl
  · exact congrArg Host.Outcome.next (send_pending _ _ hp)
  · exact congrArg Host.Outcome.next (measureFrames_pending _ hp)
  · exact congrArg Host.Outcome.next (measureFrames_pending _ hp)
  · exact congrArg Host.Outcome.next (send_pending _ _ hp)
  · exact congrArg Host.Outcome.next (send_pending _ _ hp)

/-! ### Answers -/

/-- `delay_done` in time resumes the operation OPL names. -/
theorem step_delayDone {s : State} {d : DelayRequest} {rest : List Input} (h : s.inbox = .delayDone :: rest)
    (hf : s.fsm = .rstD) (hd : s.delay = some d) (ht : d.since + d.ms ≤ s.nowMs) :
    step s = exec (decodeOp s.opl) { takeEvent rest s with delay := none, arrival := some .delayDone } := by
  rw [step_cons h]
  simp only [event, presentDelayDone_ready (s := takeEvent rest s) hf hd ht, resume]
  rfl

/-- Settles O31: `step_response` and `step_delayDone`, with the taking of the event written out. -/
theorem stepResumesTheOperationOplNames : Obligations.StepResumesTheOperationOplNames :=
  fun _ _ => ⟨fun _ _ h hq hr => step_response h hq hr, fun _ h hf hd ht => step_delayDone h hf hd ht⟩

/-! ### Reset -/

/-- Settles O32, register by register. -/
theorem resetStateIsQuiet : Obligations.ResetStateIsQuiet :=
  ⟨fun r => by cases r <;> decide, rfl, rfl, rfl, rfl⟩

/-! ### WRITE_CFG and its operand -/

/-- The Write of WRITE_CFG is answered: the operation completes with the latched byte in CFG_WR (42_framer_ops.md R162). -/
theorem step_written {s : State} {rest : List Input} (h : s.inbox = .response (.ok []) :: rest)
    (hf : s.fsm = .cfgwW) (ho : s.opl = HostOp.writeCfg.code) {bytes : List Byte}
    (hq : s.req = some (Request.writeOf bytes)) :
    step s = .next (complete .none 0 (publishWritten s.argl
      { takeEvent rest s with req := none, arrival := some (.response (.ok [])) })) := by
  rw [step_response h hq rfl, ho, decodeOp_code]
  simp [HostOp.instr, exec, execWriteCfg, hf, writeDoneThen]

/-- A write of ARG, whatever the state (43_host_access.md R193). -/
theorem step_writeArg {s : State} {v : Byte} {rest : List Input} (h : s.inbox = .access (wrWord .arg v) :: rest) :
    step s = .next { takeEvent rest s with arg := v } :=
  step_write h

theorem SequencerInv.not_busy_of_idle {s : State} (hs : SequencerInv s) (hf : s.fsm = .idle) :
    s.status.busy = false := by
  rw [← Bool.not_eq_true]
  exact fun hb => hs.busy_iff.mp hb hf

/-- The two accesses of `op WRITE_CFG` (30_encoding.md R108) leave the byte latched in ARGL and in the frame sent. -/
theorem run_opWriteCfg {s : State} {a : Byte} {rest : List Input} (hs : SequencerInv s) (hf : s.fsm = .idle)
    (hi : s.inbox = (AsmLine.opWriteCfg a).inputs ++ rest) (n : Nat) :
    core.run (n + 2) s = core.run n (issue .cfgwW (Request.writeOf [wireWriteCfg, a])
      (setBusy (accept HostOp.writeCfg.code { takeEvent rest s with arg := a }))) := by
  have hb := hs.not_busy_of_idle hf
  obtain ⟨-, hq, hd⟩ := hs.idle_of_not_busy hb
  exact (run_next (n + 1) (step_writeArg hi)).trans (run_next n (step_op rfl hb hf hq hd))

/-- Settles O56, event by event after the acceptance: the later write of ARG reaches neither the frame outstanding nor
the latch, which is what the answer publishes. -/
theorem writeCfgSendsArgAsAccepted : Obligations.WriteCfgSendsArgAsAccepted := by
  intro s a later rest hs hf hi
  constructor
  · have sent := (run_opWriteCfg hs hf hi 1).trans (run_next 0 (step_writeArg rfl))
    exact ⟨_, sent, rfl, rfl⟩
  · have published := (run_opWriteCfg hs hf hi 2).trans
      ((run_next 1 (step_writeArg rfl)).trans (run_next 0 (step_written rfl rfl rfl rfl)))
    exact ⟨_, published, rfl, rfl, rfl, rfl⟩

end Sys2Proof.Machine
end

section
/-! Proofs of the statements of 20_memory.md: which events change the measurement registers and the registers of the host,
that no read has a side effect, and what goes out to the sensor. -/

namespace Sys2Proof.Machine

/-! ### The measurement registers -/

/-- A move other than block reset leaves the measurement registers, or is an intact answer to the sample's Read. -/
theorem Moves.sample_eq_or_intact {s t : State} {e : Input} (m : Moves s e t) (he : e ≠ .blockReset) :
    t.sample = s.sample ∨ ∃ d0 d1 c, e = .response (.ok [d0, d1, c]) ∧ s.fsm = .measR ∧ crc8 [d0, d1] = c ∧
      t.sample = (d0, maskedLow d1, ⟨kindOf s.opl, statusBits d1⟩, c) := by
  cases m with
  | reset => exact absurd rfl he
  | sampled d0 d1 c hf _ hc => exact .inr ⟨d0, d1, c, rfl, hf, hc, rfl⟩
  | read | rejected | started | illegal | wrStatus | wrIrqen | wrArg | wrCrc | wrCodec | readOnly | stray | elapsed
  | settle | resetDone | failed | commanded | corrupt | readDone | modified | written | heaterDone => exact .inl rfl

/-- Settles O40, by the moves: only the one that publishes an intact sample writes these registers, all four at once. -/
theorem sampleChangesAsOne : Obligations.SampleChangesAsOne := by
  intro s t hs h hreset hchanged
  rcases step_moves hs h with ⟨-, rfl⟩ | ⟨e, rest, hi, m⟩
  · exact absurd rfl hchanged
  · have he : e ≠ .blockReset := by simpa [hi] using hreset
    obtain ⟨d0, d1, c, rfl, hf, hc, hsample⟩ := (m.sample_eq_or_intact he).resolve_left hchanged
    exact ⟨d0, d1, c, by rw [hi, List.head?_cons], hf, hc, hsample⟩

/-! ### Host reads -/

/-- Executing a read drives its register; the data bits of the word are ignored (30_encoding.md R91). -/
theorem exec_readOf (r : Reg) (d : Byte) (s : State) : exec (readOf r d) s = .next (drive r s) := by
  cases r <;> rfl

/-- A read word decodes to the read of its register, under either BUSY. -/
theorem decodeAccess_of_read (busy : Bool) {w : AccessWord} (h : accessWe w = false) :
    decodeAccess busy w = readOf (Reg.ofAddr (accessAddr w)) (accessData w) := by
  simp only [decodeAccess, h, Bool.false_eq_true, if_false]

/-- Settles O15: the step drives the register, which reads as before the event was taken. -/
theorem stepOnAReadChangesNothingElse : Obligations.StepOnAReadChangesNothingElse := by
  intro s w rest hi hw
  calc step s = exec (decodeAccess s.status.busy w) (takeEvent rest s) := step_access hi
    _ = exec (readOf (Reg.ofAddr (accessAddr w)) (accessData w)) (takeEvent rest s) := by rw [decodeAccess_of_read _ hw]
    _ = .next (drive (Reg.ofAddr (accessAddr w)) (takeEvent rest s)) := exec_readOf _ _ _

/-! ### The registers that only the host writes -/

/-- Settles O48: whatever the state, an answer or the passing of time has none of the host's registers among its effects
(`event_answer_effect`), and taking the event leaves them alone. -/
theorem sequencerNeverWritesHostRegisters : Obligations.SequencerNeverWritesHostRegisters := by
  intro s t e rest hi hacc hreset h
  rw [step_cons hi] at h
  obtain ⟨-, -, hhost, -⟩ := event_answer_effect hacc hreset h
  exact hhost

/-! ### The transactions -/

/-- Settles O51: the state after the step is in order too, so its request is the one its sequencer state expects. -/
theorem onlyTheFiveCommandsGoOut : Obligations.OnlyTheFiveCommandsGoOut := by
  intro s t q hs h hq
  rw [(step_keeps_sequencerInv hs h).request, expectedRequest] at hq
  cases hf : t.fsm with (rw [hf] at hq; cases hq)
  | rstW => exact ⟨rfl, .inl ⟨rfl, rfl, .inl rfl⟩⟩
  | measW =>
    refine ⟨rfl, .inl ⟨rfl, rfl, ?_⟩⟩
    split
    case isTrue => exact .inr (.inr (.inl rfl))
    case isFalse => exact .inr (.inl rfl)
  | measR => exact ⟨rfl, .inr (.inl ⟨rfl, rfl, rfl⟩)⟩
  | cfgrW => exact ⟨rfl, .inr (.inr ⟨rfl, rfl, rfl⟩)⟩
  | cfgwW => exact ⟨rfl, .inl ⟨rfl, rfl, .inr (.inr (.inr ⟨_, rfl⟩))⟩⟩

end Sys2Proof.Machine
end

section
/-! Proofs of the statements of 30_encoding.md: the decoder against the encoder, the transactions of the wire commands,
the pseudo-instructions and the wait loop. -/

namespace Sys2Proof.Machine

/-! ### Decoding the words of an instruction -/

/-- Settles O2, row by row: each row of the opcode table has its round trip in Laws/PerInstr.lean. -/
theorem decodeOfEncodeIsTheInstruction : Obligations.DecodeOfEncodeIsTheInstruction := by
  intro i
  cases i with
  | softReset => exact Laws.RoundTrip.softReset
  | measT => exact Laws.RoundTrip.measT
  | measRh => exact Laws.RoundTrip.measRh
  | readCfg => exact Laws.RoundTrip.readCfg
  | writeCfg => exact Laws.RoundTrip.writeCfg
  | heaterOn => exact Laws.RoundTrip.heaterOn
  | heaterOff => exact Laws.RoundTrip.heaterOff
  | readEob => exact Laws.RoundTrip.readEob
  | illegal b => exact Laws.RoundTrip.illegal b
  | rdCmd d => exact Laws.RoundTrip.rdCmd d
  | rdStatus d => exact Laws.RoundTrip.rdStatus d
  | rdIrqen d => exact Laws.RoundTrip.rdIrqen d
  | rdArg d => exact Laws.RoundTrip.rdArg d
  | rdRawh d => exact Laws.RoundTrip.rdRawh d
  | rdRawl d => exact Laws.RoundTrip.rdRawl d
  | rdMstat d => exact Laws.RoundTrip.rdMstat d
  | rdMcrc d => exact Laws.RoundTrip.rdMcrc d
  | rdCfgRd d => exact Laws.RoundTrip.rdCfgRd d
  | rdCfgWr d => exact Laws.RoundTrip.rdCfgWr d
  | rdCfgFields d => exact Laws.RoundTrip.rdCfgFields d
  | rdCrcAcc d => exact Laws.RoundTrip.rdCrcAcc d
  | rdCrcDin d => exact Laws.RoundTrip.rdCrcDin d
  | rdCodecByte d => exact Laws.RoundTrip.rdCodecByte d
  | rdCodecFields d => exact Laws.RoundTrip.rdCodecFields d
  | rdValid d => exact Laws.RoundTrip.rdValid d
  | wrCmd v => exact Laws.RoundTrip.wrCmd v
  | wrCmdRejected v => exact Laws.RoundTrip.wrCmdRejected v
  | wrStatus v => exact Laws.RoundTrip.wrStatus v
  | wrIrqen v => exact Laws.RoundTrip.wrIrqen v
  | wrArg v => exact Laws.RoundTrip.wrArg v
  | wrRoRawh v => exact Laws.RoundTrip.wrRoRawh v
  | wrRoRawl v => exact Laws.RoundTrip.wrRoRawl v
  | wrRoMstat v => exact Laws.RoundTrip.wrRoMstat v
  | wrRoMcrc v => exact Laws.RoundTrip.wrRoMcrc v
  | wrRoCfgRd v => exact Laws.RoundTrip.wrRoCfgRd v
  | wrRoCfgWr v => exact Laws.RoundTrip.wrRoCfgWr v
  | wrRoCfgFields v => exact Laws.RoundTrip.wrRoCfgFields v
  | wrCrcAcc v => exact Laws.RoundTrip.wrCrcAcc v
  | wrCrcDin v => exact Laws.RoundTrip.wrCrcDin v
  | wrCodecByte v => exact Laws.RoundTrip.wrCodecByte v
  | wrCodecFields v => exact Laws.RoundTrip.wrCodecFields v
  | wrRoValid v => exact Laws.RoundTrip.wrRoValid v
  | cmdSoftReset => exact Laws.RoundTrip.cmdSoftReset
  | cmdMeasTHold => exact Laws.RoundTrip.cmdMeasTHold
  | cmdMeasRhHold => exact Laws.RoundTrip.cmdMeasRhHold
  | cmdWriteCfg b => exact Laws.RoundTrip.cmdWriteCfg b
  | cmdReadCfg => exact Laws.RoundTrip.cmdReadCfg

/-! ### Encoding the instruction of an access word -/

theorem encode_readOf (r : Reg) (d : Byte) : encode (readOf r d) = .access (accessWord false r d) := by
  cases r <;> rfl

theorem encode_writeOf (busy : Bool) (r : Reg) (v : Byte) :
    encode (writeOf busy r v) = .access (accessWord true r v) := by
  cases r with
  | cmd => cases busy <;> rfl
  | _ => rfl

/-- Every register's read is well-formed and asks nothing of BUSY. -/
theorem readOf_legal (busy : Bool) (r : Reg) (d : Byte) :
    (readOf r d).wellFormed = true ∧ (readOf r d).admitsBusy busy = true := by
  cases r <;> exact ⟨rfl, rfl⟩

/-- Every register's write is well-formed, and CMD's is the row that asks for the present BUSY (43_host_access.md R185,
R186). -/
theorem writeOf_legal (busy : Bool) (r : Reg) (v : Byte) :
    (writeOf busy r v).wellFormed = true ∧ (writeOf busy r v).admitsBusy busy = true := by
  cases r with
  | cmd => cases busy <;> exact ⟨rfl, rfl⟩
  | _ => exact ⟨rfl, rfl⟩

/-- Settles O3: a word is its three fields (`accessWord_fields`), and WE says whether it is a read or a write of the
addressed register. -/
theorem everyAccessWordIsOneInstruction : Obligations.EveryAccessWordIsOneInstruction := by
  intro busy w
  rw [← accessWord_fields w]
  cases accessWe w with
  | false =>
    rw [decodeAccess_read]
    obtain ⟨hwf, hbusy⟩ := readOf_legal busy (Reg.ofAddr (accessAddr w)) (accessData w)
    exact ⟨hwf, hbusy, encode_readOf _ _⟩
  | true =>
    rw [decodeAccess_write]
    obtain ⟨hwf, hbusy⟩ := writeOf_legal busy (Reg.ofAddr (accessAddr w)) (accessData w)
    exact ⟨hwf, hbusy, encode_writeOf _ _ _⟩

/-! ### CMD bytes -/

/-- The codes of the eight operations are the bytes 0x01 to 0x08 (30_encoding.md R94). -/
theorem exists_code_iff_mem (b : Byte) :
    (∃ op : HostOp, b = op.code) ↔ b ∈ ([0x01, 0x02, 0x03, 0x04, 0x05, 0x06, 0x07, 0x08] : List Byte) := by
  constructor
  · rintro ⟨op, rfl⟩
    cases op <;> decide
  · intro h
    simp only [List.mem_cons, List.not_mem_nil, or_false] at h
    rcases h with rfl | rfl | rfl | rfl | rfl | rfl | rfl | rfl
    exacts [⟨.softReset, rfl⟩, ⟨.measT, rfl⟩, ⟨.measRh, rfl⟩, ⟨.readCfg, rfl⟩, ⟨.writeCfg, rfl⟩,
      ⟨.heaterOn, rfl⟩, ⟨.heaterOff, rfl⟩, ⟨.readEob, rfl⟩]

theorem instr_ne_illegal (op : HostOp) (b : Byte) : op.instr ≠ .illegal b := by
  cases op <;> simp [HostOp.instr]

/-- A byte decodes to an operation only where it is an operation's code: a reserved one is ILLEGAL. -/
theorem exists_decodeOp_instr_iff (b : Byte) :
    (∃ op : HostOp, decodeOp b = op.instr) ↔ ∃ op : HostOp, b = op.code := by
  constructor
  · rintro ⟨op, h⟩
    rcases reserved_or_code b with hb | hb
    · rw [decodeOp_reserved hb] at h
      exact absurd h.symm (instr_ne_illegal op b)
    · exact hb
  · rintro ⟨op, rfl⟩
    exact ⟨op, decodeOp_code op⟩

/-- Settles O4: a byte is reserved, and then ILLEGAL, or one of the eight codes, whose high bits are 0. -/
theorem cmdByteNamesAnOperationExactly : Obligations.CmdByteNamesAnOperationExactly := by
  intro b
  rw [exists_decodeOp_instr_iff, ← exists_code_iff_mem]
  refine ⟨.rfl, fun hnone => ?reserved, ?highBits⟩
  case reserved => exact decodeOp_reserved ((reserved_or_code b).resolve_right hnone)
  case highBits =>
    rintro ⟨op, rfl⟩
    cases op <;> rfl

/-! ### The transactions of the wire commands -/

/-- Outside MEAS_W a measurement command sends its Write (30_encoding.md R100). -/
theorem measureFrames_write {s : State} (c : Byte) (hf : s.fsm ≠ .measW) (hr : s.req = none) (hd : s.delay = none) :
    measureFrames c s = issue .measW (Request.writeOf [c]) s := by
  rw [← send_quiet .measW _ hr hd, measureFrames]
  split
  · next h _ => exact absurd h hf
  · next h _ => exact absurd h hf
  · rfl

/-- In MEAS_W, with the Write's `Ok`, it sends the Read of the sample, whichever command it is. -/
theorem measureFrames_read {s : State} {bytes : List Byte} (c : Byte) (hf : s.fsm = .measW)
    (ha : s.arrival = some (.response (.ok bytes))) (hr : s.req = none) (hd : s.delay = none) :
    measureFrames c s = issue .measR Request.readSample s := by
  simp only [measureFrames, hf, ha, send_quiet _ _ hr hd]

/-- Settles O28: with nothing outstanding, to send is to issue (`send_quiet`). -/
theorem wireCommandsSendTheirTransactions : Obligations.WireCommandsSendTheirTransactions := by
  intro s hr hd
  have sent (f : Fsm) (q : Request) : Host.Outcome.next (send f q s) = (.next (issue f q s) : Result) :=
    congrArg _ (send_quiet f q hr hd)
  exact ⟨sent _ _, fun hf => congrArg _ (measureFrames_write _ hf hr hd),
    fun hf => congrArg _ (measureFrames_write _ hf hr hd),
    fun _ hf ha => ⟨congrArg _ (measureFrames_read _ hf ha hr hd), congrArg _ (measureFrames_read _ hf ha hr hd)⟩,
    fun _ => sent _ _, sent _ _⟩

/-! ### The words of the pseudo-instructions -/

/-- What is appended fills the low bits, over zeros. -/
theorem append_eq_zeros_or {n m : Nat} (x : BitVec n) (v : BitVec m) : x ++ v = x ++ 0#m ||| v.setWidth (n + m) := by
  ext i hi
  rw [BitVec.getElem_or, BitVec.getElem_append, BitVec.getElem_append, BitVec.getElem_setWidth]
  split
  · next h => simp [BitVec.getLsbD_eq_getElem h]
  · next h => simp [BitVec.getLsbD_of_ge v i (Nat.le_of_not_lt h)]

/-- The data of a write fill bits 7:0, over the word that writes 0x00 (30_encoding.md R91). -/
theorem wrWord_eq_or (r : Reg) (v : Byte) : wrWord r v = wrWord r 0x00 ||| v.setWidth 13 := append_eq_zeros_or _ v

/-! ### Events in a row that are refused -/

/-- Events after a refused one do not happen. -/
theorem runEvents_append_refused {es : List Input} {s : State} {why : Refusal} (fs : List Input)
    (h : runEvents es s = .refused why) : runEvents (es ++ fs) s = .refused why := by
  induction es generalizing s with
  | nil => cases h
  | cons e es ih =>
    simp only [runEvents, List.cons_append] at h ⊢
    split at h
    · exact ih h
    · cases h
    · exact h

theorem runWait_refused {turn : List Input} {s : State} {why : Refusal} (turns : List (List Input))
    (h : runEvents turn s = .refused why) : runWait (turn :: turns) s = .stopped why := by
  simp only [runWait, runEvents_append_refused _ h, RunEnd.after]

/-! ### The wait loop -/

/-- Where `wait` ends, its last read was of STATUS with BUSY = 0, and changed nothing else. -/
theorem eq_of_runWait_done {turns left : List (List Input)} {s t : State} (h : runWait turns s = .done t left) :
    ∃ u : State, u.status.busy = false ∧ t = { u with hRdata := some (u.readReg .status) } := by
  induction turns generalizing s with
  | nil =>
    rw [runWait_last] at h
    split at h
    · cases h
    · next hb =>
      cases h
      exact ⟨s, by simpa using hb, rfl⟩
  | cons turn turns ih =>
    cases hu : runEvents turn s with
    | next u =>
      rw [runWait_turn turns hu] at h
      split at h
      · exact ih h
      · next hb =>
        cases h
        exact ⟨u, by simpa using hb, rfl⟩
    | fault f => exact nomatch f
    | refused why =>
      rw [runWait_refused turns hu] at h
      cases h

/-- An operation in progress still needs an answer. -/
theorem answersLeft_pos {s : State} (hf : s.fsm ≠ .idle) : 0 < answersLeft s := by
  unfold answersLeft
  cases h : s.fsm with
  | idle => exact absurd h hf
  | cfgrW => dsimp only; split <;> decide
  | rstW | rstD | measW | measR | cfgwW => exact Nat.succ_pos _

/-- Every answer to what is outstanding brings the operation nearer to its end (70_reset_and_hazards.md R259). -/
theorem Moves.answersLeft_lt {s t : State} {e : Input} (ha : Answers s e) (m : Moves s e t) :
    answersLeft t < answersLeft s := by
  cases m with
  | stray _ hna => exact absurd ha hna
  | read | rejected | started | illegal | wrStatus | wrIrqen | wrArg | wrCrc | wrCodec | readOnly | elapsed | reset =>
    exact ha.elim
  | settle _ hf | commanded hf => simp [answersLeft, hf]
  | modified _ _ hf hp =>
    have ho : s.opl = HostOp.heaterOn.code ∨ s.opl = HostOp.heaterOff.code := hp.imp And.left And.left
    simp [answersLeft, hf, ho]
  | failed _ hf => exact answersLeft_pos (by rintro h; simp [h] at hf)
  | resetDone _ hf | sampled _ _ _ hf | corrupt _ _ _ hf | readDone _ hf | written hf | heaterDone _ hf =>
    exact answersLeft_pos (by simp [hf])

/-- A turn with one answer to what is outstanding: the operation moves on by it, and the loop ends if it is over. -/
theorem runWait_answer {s : State} {e : Input} (turns : List (List Input)) (hs : SequencerInv s) (ha : Answers s e) :
    ∃ t, SequencerInv t ∧ answersLeft t < answersLeft s ∧
      runWait ([e] :: turns) s = if t.fsm = .idle then .done t turns else runWait turns t := by
  obtain ⟨u, hu, m⟩ := event_of_answers (sequencerInv_takeEvent s.inbox hs) (answers_takeEvent.mpr ha)
  have hsu : SequencerInv u := m.sequencerInv (sequencerInv_takeEvent s.inbox hs)
  have happened : runEvents [e] s = .next u := runEvents_cons [] hu
  have nearer : answersLeft u < answersLeft (takeEvent s.inbox s) := m.answersLeft_lt (answers_takeEvent.mpr ha)
  refine ⟨drive .status u, ?inOrder, nearer, ?turn⟩
  case inOrder => exact hsu.of_undisturbed ⟨rfl, rfl, rfl, rfl, rfl, rfl, rfl, rfl, rfl, rfl, Nat.le_refl _⟩
  case turn =>
    rw [runWait_turn turns happened]
    by_cases hf : u.fsm = .idle
    · simp [hsu.not_busy_of_idle hf, hf, drive]
    · simp [hsu.busy_iff.mpr hf, hf, drive]

/-- Settles O55: the words by `wrWord_eq_or`, the loop by its turns. -/
theorem pseudoInstructionsAndTheWaitLoop : Obligations.PseudoInstructionsAndTheWaitLoop := by
  refine ⟨fun op => ⟨op.code, ?op, decodeOp_code op⟩, fun v => ?opWriteCfg, rfl, rfl, fun bytes => ?crc,
    fun v => ?fields, fun s t turns left h => ?ends, fun s turns hb => ?idle, fun s turns hb => ?busy,
    fun s e turns hs _ ha => runWait_answer turns hs ha⟩
  case op => exact congrArg (· :: []) (wrWord_eq_or .cmd op.code)
  case opWriteCfg => exact congrArg (· :: _) (wrWord_eq_or .arg v)
  case crc => exact congrArg (fun f => _ :: (bytes.map f ++ _)) (funext (wrWord_eq_or .crcDin))
  case fields => exact congrArg (· :: []) (wrWord_eq_or .codecFields v)
  case ends =>
    obtain ⟨u, hb, rfl⟩ := eq_of_runWait_done h
    exact ⟨hb, _, rfl, (status_bit_zero u.status).trans hb⟩
  case idle =>
    exact (runWait_turn turns (runEvents_nil s)).trans (if_neg (by simp [hb]))
  case busy =>
    exact ⟨(runWait_turn turns (runEvents_nil s)).trans (if_pos hb), (runWait_last s).trans (if_pos hb)⟩

end Sys2Proof.Machine
end

section
/-! Proofs of the statements of 40_codec.md: the selector, the codec with the fields side by side in the byte, and the
two views, which compose the codec with the packing. Where a concatenation is taken apart, `simp` leaves widths as the
sums they are written as (`-Nat.reduceAdd`) and bits as `getLsbD`: the library's rules for `++` match on these. -/

namespace Sys2Proof.Machine

/-! ### The resolution selector -/

/-- `res_decode` is the partial inverse of `res_encode` (40_codec.md R121, R122). -/
theorem resDecode_eq_some_iff {v : Byte} {r : Resolution} : resDecode v = some r ↔ v = resEncode r := by
  constructor
  case mp =>
    intro h
    unfold resDecode at h
    split_ifs at h <;> cases h <;> assumption
  case mpr =>
    rintro rfl
    cases r <;> rfl

theorem resDecode_eq_none {v : Byte} (h : v ∉ ([0x00, 0x01, 0x80, 0x81] : List Byte)) : resDecode v = none := by
  refine Option.eq_none_iff_forall_ne_some.mpr fun r hr => h ?_
  rw [resDecode_eq_some_iff.mp hr]
  cases r <;> decide

/-- Settles O5: what `res_decode` accepts is what `res_encode` gives, and a masked byte is accepted. -/
theorem resDecodeAcceptsFourBytesOnly : Obligations.ResDecodeAcceptsFourBytesOnly := by
  refine ⟨rfl, rfl, rfl, rfl, fun _ => resDecode_eq_none, fun b => ?masked⟩
  case masked =>
    obtain ⟨r, hr⟩ := resDecode_masked b
    rw [hr]
    exact Option.some_ne_none r

/-- A selector byte has no bit outside 0x81 (40_codec.md R121). -/
theorem resEncode_and_selector (r : Resolution) : resEncode r &&& 0x81 = resEncode r := by
  cases r <;> rfl

theorem resEncode_getLsbD_between {i : Nat} (r : Resolution) (h₀ : 0 < i) (h₇ : i < 7) :
    (resEncode r).getLsbD i = false := by
  have mask : (0x81 : Byte).getLsbD i = false := by interval_cases i <;> rfl
  rw [← resEncode_and_selector, BitVec.getLsbD_and, mask, Bool.and_false]

/-! ### Decoding and encoding -/

/-- Decoding cuts the byte into its fields (40_codec.md R124). -/
theorem fieldsOf_of_selector {b : Byte} {r : Resolution} (h : b &&& 0x81 = resEncode r) :
    fieldsOf b = { res := r, eob := b.extractLsb' 6 1, rsvd := b.extractLsb' 3 3, heater := b.extractLsb' 2 1,
                   otpd := b.extractLsb' 1 1 } := by
  simp only [fieldsOf, cfgDecode, resDecode_eq_some_iff.mpr h]

theorem fieldsOf_eq_of_cfgDecode {b : Byte} {f : CfgFields} (h : cfgDecode b = some f) : fieldsOf b = f :=
  Option.some_injective _ ((cfgDecode_eq b).symm.trans h)

/-- The selector is the only part of the encoded byte that meets 0x81. -/
theorem cfgEncode_and_selector (f : CfgFields) : cfgEncode f &&& 0x81 = resEncode f.res := by
  have flag : ∀ x : BitVec 1, x.setWidth 8 <<< 1 &&& 0x81 = 0#8 ∧ x.setWidth 8 <<< 2 &&& 0x81 = 0#8 ∧
      x.setWidth 8 <<< 6 &&& 0x81 = 0#8 := by decide
  have reserved : ∀ x : BitVec 3, x.setWidth 8 <<< 3 &&& 0x81 = 0#8 := by decide
  simp only [cfgEncode, BitVec.and_or_distrib_right, resEncode_and_selector, flag, reserved, BitVec.or_zero]

/-- The fields occupy disjoint bits, so their OR sets them side by side (40_codec.md R125). -/
theorem cfgEncode_eq_append (f : CfgFields) : cfgEncode f =
    (resEncode f.res).extractLsb' 7 1 ++ f.eob ++ f.rsvd ++ f.heater ++ f.otpd ++
      (resEncode f.res).extractLsb' 0 1 := by
  refine BitVec.eq_of_getLsbD_eq fun i hi => ?_
  rw [cfgEncode]
  interval_cases i <;>
    simp [resEncode_getLsbD_between, BitVec.getLsbD_append, -Nat.reduceAdd, -BitVec.getLsbD_eq_getElem]

/-- The re-encoded byte is WRITE_CFG's payload, which "equals ARGL" (`writePayload_eq`). -/
@[simp] theorem cfgEncode_fieldsOf (b : Byte) : cfgEncode (fieldsOf b) = b := writePayload_eq b

@[simp] theorem fieldsOf_cfgEncode (f : CfgFields) : fieldsOf (cfgEncode f) = f := by
  rw [fieldsOf_of_selector (cfgEncode_and_selector f)]
  simp [cfgEncode_eq_append, BitVec.extractLsb'_append_eq_of_add_le, BitVec.extractLsb'_append_eq_of_le, -Nat.reduceAdd]

/-- Settles O6: `cfg_decode` gives what `fieldsOf` names, and `fieldsOf` and `cfg_encode` undo each other. -/
theorem codecIsABijection : Obligations.CodecIsABijection := by
  refine ⟨fun b => ⟨fieldsOf b, cfgDecode_eq b, cfgEncode_fieldsOf b⟩, fun f => ?record⟩
  case record => rw [cfgDecode_eq, fieldsOf_cfgEncode]

/-- Settles O9: the second half is `setHeater_eq` at each heater value. -/
theorem setHeaterChangesBitTwoOnly : Obligations.SetHeaterChangesBitTwoOnly := by
  refine ⟨fun b h f hf => ?reencoded, fun b => ⟨setHeater_eq b 1, setHeater_eq b 0⟩⟩
  case reencoded => rw [setHeater, fieldsOf_eq_of_cfgDecode hf]

/-! ### Packing and unpacking -/

/-- The bits of a RESC code are the selector's bits 7 and 0 (40_codec.md R120). -/
theorem extractLsb'_resEncode_resOfCode (c : BitVec 2) :
    (resEncode (resOfCode c)).extractLsb' 7 1 = c.extractLsb' 1 1 ∧
    (resEncode (resOfCode c)).extractLsb' 0 1 = c.extractLsb' 0 1 := by
  revert c
  decide

theorem resCode_resOfCode (c : BitVec 2) : resCode (resOfCode c) = c := by
  obtain ⟨high, low⟩ := extractLsb'_resEncode_resOfCode c
  rw [resCode, high, low, BitVec.extractLsb'_append_extractLsb']

theorem resOfCode_resCode (r : Resolution) : resOfCode (resCode r) = r := by
  cases r <;> rfl

/-- Adjacent pieces of a byte join to the byte. -/
@[simp] theorem packFields_unpackFields (v : Byte) : packFields (unpackFields v) = v := by
  simp (disch := decide) only [packFields, unpackFields, resCode_resOfCode,
    BitVec.extractLsb'_append_extractLsb'_eq_extractLsb', -Nat.reduceAdd]
  exact BitVec.extractLsb'_eq_self

@[simp] theorem unpackFields_packFields (f : CfgFields) : unpackFields (packFields f) = f := by
  simp [unpackFields, packFields, resOfCode_resCode, BitVec.extractLsb'_append_eq_of_add_le,
    BitVec.extractLsb'_append_eq_of_le, -Nat.reduceAdd]

/-! ### The two views -/

@[simp] theorem byteview_fieldview (b : Byte) : byteview (fieldview b) = b := by
  rw [byteview, fieldview, unpackFields_packFields, cfgEncode_fieldsOf]

@[simp] theorem fieldview_byteview (v : Byte) : fieldview (byteview v) = v := by
  rw [byteview, fieldview, fieldsOf_cfgEncode, packFields_unpackFields]

/-- Settles O8: the views compose the codec with the packing, and each of the two has its inverse. -/
theorem fieldPackingUndoesItself : Obligations.FieldPackingUndoesItself :=
  ⟨packFields_unpackFields, unpackFields_packFields, byteview_fieldview, fieldview_byteview⟩

theorem fieldview_eq_append (b : Byte) : fieldview b =
    b.extractLsb' 3 3 ++ b.extractLsb' 6 1 ++ b.extractLsb' 1 1 ++ b.extractLsb' 2 1 ++
      (b.extractLsb' 7 1 ++ b.extractLsb' 0 1) := by
  obtain ⟨r, hr⟩ := resDecode_masked b
  have hsel : b &&& 0x81 = resEncode r := resDecode_eq_some_iff.mp hr
  have masked_bit : ∀ x : BitVec 1, x &&& 1#1 = x := by decide
  rw [fieldview, fieldsOf_of_selector hsel, packFields, resCode, ← hsel]
  simp [BitVec.extractLsb'_and, masked_bit]

theorem byteview_eq_append (v : Byte) : byteview v =
    v.extractLsb' 1 1 ++ v.extractLsb' 4 1 ++ v.extractLsb' 5 3 ++ v.extractLsb' 2 1 ++ v.extractLsb' 3 1 ++
      v.extractLsb' 0 1 := by
  obtain ⟨high, low⟩ := extractLsb'_resEncode_resOfCode (v.extractLsb' 0 2)
  rw [BitVec.extractLsb'_extractLsb'_of_le (by decide)] at high low
  simp only [byteview, cfgEncode_eq_append, unpackFields, high, low]

/-- Settles O7: each view is a concatenation of pieces of its byte, which is read bit by bit. -/
theorem fieldViewIsABitPermutation : Obligations.FieldViewIsABitPermutation := by
  refine ⟨fun b f h => congrArg packFields (fieldsOf_eq_of_cfgDecode h), fun _ => rfl, fun b => ?fieldview,
    fun v => ?byteview, rfl, rfl, rfl, rfl⟩
  case fieldview =>
    simp [fieldview_eq_append, BitVec.getLsbD_append, -Nat.reduceAdd, -BitVec.getLsbD_eq_getElem]
  case byteview =>
    simp [byteview_eq_append, BitVec.getLsbD_append, -Nat.reduceAdd, -BitVec.getLsbD_eq_getElem]

end Sys2Proof.Machine
end

section
/-! Proofs of the statements of 41_checksum.md: the CRC as a linear map that sends only zero to zero, fixed values, and
the host CRC unit with and without other events between its accesses. -/

namespace Sys2Proof.Machine

/-! ### The CRC is linear -/

/-- One bit position without its branch: the polynomial is added where the high bit is set (41_checksum.md R141). -/
theorem crc8Bit_eq_xor (acc : Byte) : crc8Bit acc = acc <<< 1 ^^^ bif acc.getLsbD 7 then crcPoly else 0#8 := by
  unfold crc8Bit
  cases acc.getLsbD 7 <;> simp

theorem crc8Bit_xor (a b : Byte) : crc8Bit (a ^^^ b) = crc8Bit a ^^^ crc8Bit b := by
  have poly : ∀ p q : Bool, (bif p ^^ q then crcPoly else 0#8) =
      (bif p then crcPoly else 0#8) ^^^ bif q then crcPoly else 0#8 := by decide
  simp only [crc8Bit_eq_xor, BitVec.getLsbD_xor, poly, BitVec.shiftLeft_xor_distrib]
  ac_rfl

theorem crc8Bits_xor (k : Nat) (a b : Byte) : crc8Bits k (a ^^^ b) = crc8Bits k a ^^^ crc8Bits k b := by
  induction k generalizing a b with
  | zero => rfl
  | succ k ih => simp only [crc8Bits, crc8Bit_xor, ih]

theorem crc8Step_xor (a b x y : Byte) : crc8Step (a ^^^ b) (x ^^^ y) = crc8Step a x ^^^ crc8Step b y :=
  calc crc8Bits 8 ((a ^^^ b) ^^^ (x ^^^ y)) = crc8Bits 8 ((a ^^^ x) ^^^ (b ^^^ y)) := congrArg _ (by ac_rfl)
    _ = crc8Bits 8 (a ^^^ x) ^^^ crc8Bits 8 (b ^^^ y) := crc8Bits_xor 8 _ _

theorem crc8From_xor (u v : Byte) {a b : List Byte} (h : a.length = b.length) :
    crc8From (u ^^^ v) (List.zipWith (· ^^^ ·) a b) = crc8From u a ^^^ crc8From v b := by
  induction a generalizing u v b with
  | nil =>
    obtain rfl := List.length_eq_zero_iff.mp h.symm
    rfl
  | cons x a ih =>
    obtain ⟨y, b, rfl⟩ := List.exists_cons_of_length_eq_add_one h.symm
    simp only [List.zipWith_cons_cons, crc8From, crc8Step_xor]
    exact ih _ _ (Nat.succ.inj h)

theorem crc8_xor {a b : List Byte} (h : a.length = b.length) :
    crc8 (List.zipWith (· ^^^ ·) a b) = crc8 a ^^^ crc8 b :=
  crc8From_xor crcInit crcInit h

/-! ### Only zero goes to zero -/

theorem eq_zero_of_shiftLeft_eq_zero {acc : Byte} (out : acc.getLsbD 7 = false) (h : acc <<< 1 = 0#8) : acc = 0#8 := by
  refine BitVec.eq_of_getLsbD_eq fun i hi => ?_
  have shifted : i + 1 < 8 → acc.getLsbD i = false := by simpa using congrArg (·.getLsbD (i + 1)) h
  rcases Nat.lt_or_ge (i + 1) 8 with hlow | hhigh
  · exact (shifted hlow).trans BitVec.getLsbD_zero.symm
  · obtain rfl : i = 7 := by omega
    exact out

/-- The polynomial has its bit 0 set, and a shift leaves that bit clear: the bit shifted out can be read back there. -/
theorem crc8Bit_getLsbD_zero (acc : Byte) : (crc8Bit acc).getLsbD 0 = acc.getLsbD 7 := by
  rw [crc8Bit_eq_xor]
  cases acc.getLsbD 7 <;> simp [crcPoly]

theorem crc8Bit_eq_zero_iff {acc : Byte} : crc8Bit acc = 0#8 ↔ acc = 0#8 := by
  constructor
  case mp =>
    intro h
    have out : acc.getLsbD 7 = false := by rw [← crc8Bit_getLsbD_zero, h]; rfl
    refine eq_zero_of_shiftLeft_eq_zero out ?_
    rwa [crc8Bit, out] at h
  case mpr =>
    rintro rfl
    rfl

theorem crc8Bits_eq_zero_iff {k : Nat} {acc : Byte} : crc8Bits k acc = 0#8 ↔ acc = 0#8 := by
  induction k generalizing acc with
  | zero => rfl
  | succ k ih => rw [crc8Bits, ih, crc8Bit_eq_zero_iff]

theorem crc8Step_eq_zero_iff {acc x : Byte} : crc8Step acc x = 0#8 ↔ acc = x := by
  rw [crc8Step, crc8Bits_eq_zero_iff, BitVec.xor_eq_zero_iff]

theorem crc8From_append (acc : Byte) (a b : List Byte) : crc8From acc (a ++ b) = crc8From (crc8From acc a) b := by
  induction a generalizing acc with
  | nil => rfl
  | cons x a ih => exact ih _

/-- A list's checksum is the one byte that brings the checksum of both to zero (41_checksum.md R145). -/
theorem crc8_concat_eq_zero_iff {d : List Byte} {c : Byte} : crc8 (d ++ [c]) = 0#8 ↔ crc8 d = c := by
  rw [crc8, crc8From_append]
  exact crc8Step_eq_zero_iff

/-! ### The validator's verdict -/

theorem sampleIntact_iff {d0 d1 c : Byte} : sampleIntact d0 d1 c = true ↔ crc8 [d0, d1, c] = 0#8 := by
  rw [sampleIntact, beq_iff_eq]
  exact crc8_concat_eq_zero_iff.symm

/-- The verdict on an intact sample with an error added to it is the verdict on the error alone. -/
theorem sampleIntact_xor {d0 d1 c : Byte} (h : sampleIntact d0 d1 c = true) (e0 e1 e2 : Byte) :
    sampleIntact (d0 ^^^ e0) (d1 ^^^ e1) (c ^^^ e2) = sampleIntact e0 e1 e2 := by
  have sum : crc8 [d0 ^^^ e0, d1 ^^^ e1, c ^^^ e2] = crc8 [d0, d1, c] ^^^ crc8 [e0, e1, e2] :=
    crc8_xor (a := [d0, d1, c]) (b := [e0, e1, e2]) rfl
  rw [Bool.eq_iff_iff, sampleIntact_iff, sampleIntact_iff, sum, sampleIntact_iff.mp h, BitVec.zero_xor]

/-- An error in one byte alone is never intact: no step takes a nonzero accumulator to zero on a zero byte. -/
theorem sampleIntact_of_one_byte {e : Byte} (h : e ≠ 0#8) :
    sampleIntact e 0#8 0#8 = false ∧ sampleIntact 0#8 e 0#8 = false ∧ sampleIntact 0#8 0#8 e = false := by
  have step_ne {acc x : Byte} (hne : acc ≠ x) : crc8Step acc x ≠ 0#8 := mt crc8Step_eq_zero_iff.mp hne
  simp only [Bool.eq_false_iff, ne_eq, sampleIntact_iff]
  exact ⟨step_ne (step_ne (step_ne h.symm)), step_ne (step_ne h.symm), step_ne h.symm⟩

theorem one_shiftLeft_ne_zero {k : Nat} (h : k < 8) : 1#8 <<< k ≠ 0#8 := by
  rw [← BitVec.twoPow_eq]
  intro heq
  simpa [h] using congrArg (·.getLsbD k) heq

/-- Settles O11: by linearity a flipped bit changes the checksum by that of the flip alone, which is not zero. -/
theorem crcIsLinearAndCatchesSingleBitErrors : Obligations.CrcIsLinearAndCatchesSingleBitErrors := by
  refine ⟨fun _ _ => crc8_xor, fun d => crc8_concat_eq_zero_iff.mpr rfl, fun _ _ _ => sampleIntact_iff,
    fun d0 d1 c k hk h => ?flip⟩
  case flip =>
    obtain ⟨first, second, third⟩ := sampleIntact_of_one_byte (one_shiftLeft_ne_zero hk)
    refine ⟨?_, ?_, ?_⟩
    · simpa only [BitVec.xor_zero, first] using sampleIntact_xor h (1#8 <<< k) 0#8 0#8
    · simpa only [BitVec.xor_zero, second] using sampleIntact_xor h 0#8 (1#8 <<< k) 0#8
    · simpa only [BitVec.xor_zero, third] using sampleIntact_xor h 0#8 0#8 (1#8 <<< k)

/-! ### Fixed values -/

/-- Settles O10: the step's first XOR is all that its two operands enter, and the sixteen entries compute. -/
theorem crcStepIsATable : Obligations.CrcStepIsATable :=
  ⟨fun _ _ => congrArg (crc8Bits 8) BitVec.zero_xor.symm, by decide⟩

/-- Settles O12, byte by byte: the accumulators on the way to each check value. -/
theorem crcCheckValue : Obligations.CrcCheckValue := by
  have digits : crc8Step 0x00 0x31 = 0xF4 ∧ crc8Step 0xF4 0x32 = 0xE1 ∧ crc8Step 0xE1 0x33 = 0x66 ∧
      crc8Step 0x66 0x34 = 0x1C ∧ crc8Step 0x1C 0x35 = 0x0E ∧ crc8Step 0x0E 0x36 = 0x7C ∧
      crc8Step 0x7C 0x37 = 0xD7 ∧ crc8Step 0xD7 0x38 = 0xEF ∧ crc8Step 0xEF 0x39 = 0xA2 := by decide
  have vectors : crc8Step 0x00 0x68 = 0x02 ∧ crc8Step 0x02 0x3A = 0x7C ∧ crc8Step 0x00 0x7C = 0x85 ∧
      crc8Step 0x85 0x80 = 0xF5 ∧ crc8Step 0x00 0xFF = 0xAC ∧ crc8Step 0xAC 0xFF = 0x2D := by decide
  simp only [Obligations.CrcCheckValue, crc8, crcInit, crc8From, digits, vectors, and_self]

/-! ### The host CRC unit, without gaps -/

/-- A write of CRC_ACC, whatever the state (43_host_access.md R202). -/
theorem step_writeCrcAcc {s : State} {v : Byte} {rest : List Input}
    (h : s.inbox = .access (wrWord .crcAcc v) :: rest) : step s = .next { takeEvent rest s with crcAcc := v } :=
  step_write h

/-- A write of CRC_DIN, whatever the state (43_host_access.md R204). -/
theorem step_writeCrcDin {s : State} {v : Byte} {rest : List Input}
    (h : s.inbox = .access (wrWord .crcDin v) :: rest) :
    step s = .next { takeEvent rest s with crcAcc := crc8Step s.crcAcc v } :=
  step_write h

/-- Bytes written to CRC_DIN one after another go through the unit, and nothing else changes. -/
theorem run_writeCrcDin (bytes : List Byte) (rest : List Input) (n : Nat) (s : State) :
    core.run (bytes.length + n) (takeEvent ((bytes.map (wrWord .crcDin)).map .access ++ rest) s) =
      core.run n (takeEvent rest { s with crcAcc := crc8From s.crcAcc bytes }) := by
  induction bytes generalizing s with
  | nil => rw [List.length_nil, Nat.zero_add]; rfl
  | cons x bytes ih =>
    rw [List.length_cons, Nat.add_right_comm]
    exact (run_next _ (step_writeCrcDin rfl)).trans (ih { s with crcAcc := crc8Step s.crcAcc x })

theorem run_crc {s : State} {bytes : List Byte} {rest : List Input}
    (h : s.inbox = (AsmLine.crc bytes).inputs ++ rest) :
    core.run (bytes.length + 2) s =
      .next { s with inbox := rest, crcAcc := crc8 bytes, hRdata := some (crc8 bytes) } := by
  simp only [AsmLine.inputs, AsmLine.words, List.map_cons, List.map_append, List.map_nil, List.cons_append,
    List.append_assoc, List.nil_append] at h
  calc core.run (bytes.length + 2) s
    _ = core.run (bytes.length + 1) _ := run_next _ (step_writeCrcAcc h)
    _ = core.run 1 _ := run_writeCrcDin bytes (.access (rdWord .crcAcc) :: rest) 1 { s with crcAcc := 0x00 }
    _ = .next _ := run_next 0 (step_read rfl)

/-! ### The host CRC unit, beside other events -/

/-- A run that goes through can be cut anywhere. -/
theorem run_add {m n : Nat} {s t : State} (h : core.run (m + n) s = .next t) :
    ∃ u, core.run m s = .next u ∧ core.run n u = .next t := by
  induction m generalizing s with
  | zero => exact ⟨s, rfl, by rwa [Nat.zero_add] at h⟩
  | succ m ih =>
    rw [Nat.add_right_comm] at h
    cases hs : step s with
    | next u => rw [run_next _ hs] at h ⊢; exact ih h
    | fault f => exact nomatch f
    | refused why => rw [run_refused _ hs] at h; cases h

/-- Whenever the events `es` go through from CRC_ACC = `a`, they leave CRC_ACC = `b`. -/
def TakesCrcAcc (es : List Input) (a b : Byte) : Prop :=
  ∀ (s t : State) (rest : List Input), s.inbox = es ++ rest → s.crcAcc = a → core.run es.length s = .next t →
    t.inbox = rest ∧ t.crcAcc = b

theorem takesCrcAcc_nil (a : Byte) : TakesCrcAcc [] a a := by
  rintro s t rest hi ha ⟨⟩
  exact ⟨hi, ha⟩

theorem TakesCrcAcc.append {es fs : List Input} {a b c : Byte} (he : TakesCrcAcc es a b) (hf : TakesCrcAcc fs b c) :
    TakesCrcAcc (es ++ fs) a c := by
  intro s t rest hi ha h
  rw [List.length_append] at h
  obtain ⟨u, hu, ht⟩ := run_add h
  obtain ⟨hui, hub⟩ := he s u (fs ++ rest) (by rw [hi, List.append_assoc]) ha hu
  exact hf u t rest hui hub ht

theorem takesCrcAcc_one {e : Input} {a b : Byte}
    (h : ∀ s t : State, s.crcAcc = a → event e s = .next t → t.crcAcc = b ∧ t.inbox = s.inbox) :
    TakesCrcAcc [e] a b := by
  intro s t rest hi ha hrun
  cases hs : step s with
  | next u =>
    rw [List.length_singleton, run_next _ hs] at hrun
    cases hrun
    rw [step_cons hi] at hs
    exact (h (takeEvent rest s) _ ha hs).symm
  | fault f => exact nomatch f
  | refused why => rw [List.length_singleton, run_refused _ hs] at hrun; cases hrun

theorem event_write (r : Reg) (v : Byte) (s : State) :
    event (.access (wrWord r v)) s = exec (writeOf s.status.busy r v) s := by
  simp only [event, wrWord, decodeAccess_write]

theorem takesCrcAcc_writeCrcAcc (a v : Byte) : TakesCrcAcc [.access (wrWord .crcAcc v)] a v :=
  takesCrcAcc_one fun s t _ h => by
    rw [event_write] at h
    cases h
    exact ⟨rfl, rfl⟩

theorem takesCrcAcc_writeCrcDin (a x : Byte) : TakesCrcAcc [.access (wrWord .crcDin x)] a (crc8Step a x) :=
  takesCrcAcc_one fun s t ha h => by
    rw [event_write] at h
    cases h
    exact ⟨ha ▸ rfl, rfl⟩

theorem takesCrcAcc_leaves {es : List Input} (a : Byte) (h : ∀ e ∈ es, leavesCrcUnit e) : TakesCrcAcc es a a := by
  induction es with
  | nil => exact takesCrcAcc_nil a
  | cons e es ih =>
    obtain ⟨he, hes⟩ := List.forall_mem_cons.mp h
    have first : TakesCrcAcc [e] a a := takesCrcAcc_one fun s t ha ht => ha ▸ event_crcAcc he ht
    exact first.append (ih hes)

theorem takesCrcAcc_fed {fed : List (Byte × List Input)} (a : Byte) (h : ∀ p ∈ fed, ∀ e ∈ p.2, leavesCrcUnit e) :
    TakesCrcAcc (fed.flatMap fun p => .access (wrWord .crcDin p.1) :: p.2) a (crc8From a (fed.map Prod.fst)) := by
  induction fed generalizing a with
  | nil => exact takesCrcAcc_nil a
  | cons p fed ih =>
    obtain ⟨hp, hfed⟩ := List.forall_mem_cons.mp h
    exact ((takesCrcAcc_writeCrcDin a p.1).append (takesCrcAcc_leaves _ hp)).append (ih _ hfed)

theorem takesCrcAcc_crcWithGaps {gap : List Input} {fed : List (Byte × List Input)} (a : Byte)
    (hgap : ∀ e ∈ gap, leavesCrcUnit e) (hfed : ∀ p ∈ fed, ∀ e ∈ p.2, leavesCrcUnit e) :
    TakesCrcAcc (.access (wrWord .crcAcc 0x00) :: gap ++ fed.flatMap fun p => .access (wrWord .crcDin p.1) :: p.2) a
      (crc8 (fed.map Prod.fst)) :=
  ((takesCrcAcc_writeCrcAcc a 0x00).append (takesCrcAcc_leaves _ hgap)).append (takesCrcAcc_fed _ hfed)

/-- Settles O54: without gaps access by access, with them by what each event does to CRC_ACC; the last read drives the
byte that is then there. -/
theorem hostChecksumIsCrcEight : Obligations.HostChecksumIsCrcEight := by
  refine ⟨fun _ _ _ => run_crc, fun s t gap fed rest hi hgap hfed h => ?gaps⟩
  case gaps =>
    rw [crcWithGaps, List.append_assoc] at hi
    rw [crcWithGaps, List.length_append] at h
    obtain ⟨u, hu, ht⟩ := run_add h
    obtain ⟨hui, huc⟩ := takesCrcAcc_crcWithGaps s.crcAcc hgap hfed s u _ hi rfl hu
    rw [List.length_singleton, run_next 0 (step_read hui)] at ht
    cases ht
    exact ⟨rfl, congrArg some huc, huc⟩

end Sys2Proof.Machine
end

section
/-! Proof of the statement of 41_checksum.md that the validator and the host CRC unit are independent: an operation's
event commutes with a change of CRC_ACC, so it neither reads nor writes it. -/

namespace Sys2Proof.Machine

/-! ### Operations -/

section
variable {s : State} {v : Byte}

@[simp] theorem withCrcAcc_fsm : (s.withCrcAcc v).fsm = s.fsm := rfl
@[simp] theorem withCrcAcc_arrival : (s.withCrcAcc v).arrival = s.arrival := rfl
@[simp] theorem withCrcAcc_req : (s.withCrcAcc v).req = s.req := rfl
@[simp] theorem withCrcAcc_delay : (s.withCrcAcc v).delay = s.delay := rfl
@[simp] theorem withCrcAcc_nowMs : (s.withCrcAcc v).nowMs = s.nowMs := rfl

theorem send_withCrcAcc (f : Fsm) (q : Request) : send f q (s.withCrcAcc v) = (send f q s).withCrcAcc v := by
  rcases send_cases f q s with ⟨hr, hd, h⟩ | ⟨hp, h⟩ <;> rw [h]
  · exact send_quiet (s := s.withCrcAcc v) f q hr hd
  · exact send_pending (s := s.withCrcAcc v) f q hp

theorem measureFrames_withCrcAcc (c : Byte) : measureFrames c (s.withCrcAcc v) = (measureFrames c s).withCrcAcc v := by
  simp only [measureFrames, withCrcAcc_fsm, withCrcAcc_arrival, send_withCrcAcc]
  split <;> rfl

theorem awaitOk_withCrcAcc {k k' : List Byte → Result} (hk : ∀ bytes, k' bytes = mapNext (·.withCrcAcc v) (k bytes)) :
    awaitOk (s.withCrcAcc v) k' = mapNext (·.withCrcAcc v) (awaitOk s k) := by
  simp only [awaitOk, withCrcAcc_arrival, hk]
  split <;> rfl

theorem readCfgThen_withCrcAcc {k k' : Byte → Result} (hk : ∀ b, k' b = mapNext (·.withCrcAcc v) (k b)) :
    readCfgThen (s.withCrcAcc v) k' = mapNext (·.withCrcAcc v) (readCfgThen s k) :=
  awaitOk_withCrcAcc fun bytes => by
    simp only [cfgDecode_eq, hk]
    split <;> rfl

theorem writeDoneThen_withCrcAcc {k k' : Result} (hk : k' = mapNext (·.withCrcAcc v) k) :
    writeDoneThen (s.withCrcAcc v) k' = mapNext (·.withCrcAcc v) (writeDoneThen s k) :=
  awaitOk_withCrcAcc fun bytes => by
    simp only [hk]
    split <;> rfl

theorem execSoftReset_withCrcAcc : execSoftReset (s.withCrcAcc v) = mapNext (·.withCrcAcc v) (execSoftReset s) := by
  simp only [execSoftReset, withCrcAcc_fsm, withCrcAcc_arrival, execCmdSoftReset, send_withCrcAcc]
  split
  · rfl
  · split <;> rfl -- RST_W
  · split <;> rfl -- RST_D
  all_goals rfl

theorem measureRun_withCrcAcc (c : Byte) (kind : MeasKind) :
    measureRun (fun s => .next (measureFrames c s)) kind (s.withCrcAcc v) =
      mapNext (·.withCrcAcc v) (measureRun (fun s => .next (measureFrames c s)) kind s) := by
  simp only [measureRun, withCrcAcc_fsm, measureFrames_withCrcAcc]
  cases s.fsm with
  | measW =>
    refine awaitOk_withCrcAcc fun bytes => ?_
    split <;> rfl
  | measR =>
    refine awaitOk_withCrcAcc fun bytes => ?_
    split
    · split <;> rfl
    · rfl
  | idle | rstW | rstD | cfgrW | cfgwW => rfl

theorem readConfiguration_withCrcAcc :
    readConfiguration (s.withCrcAcc v) = mapNext (·.withCrcAcc v) (readConfiguration s) := by
  simp only [readConfiguration, withCrcAcc_fsm, execCmdReadCfg, send_withCrcAcc]
  cases s.fsm with
  | cfgrW => exact readCfgThen_withCrcAcc fun _ => rfl
  | idle | rstW | rstD | measW | measR | cfgwW => rfl

theorem execWriteCfg_withCrcAcc : execWriteCfg (s.withCrcAcc v) = mapNext (·.withCrcAcc v) (execWriteCfg s) := by
  simp only [execWriteCfg, withCrcAcc_fsm, execCmdWriteCfg, send_withCrcAcc]
  cases s.fsm with
  | cfgwW => exact writeDoneThen_withCrcAcc rfl
  | idle | rstW | rstD | measW | measR | cfgrW => rfl

theorem heater_withCrcAcc (h : BitVec 1) : heater h (s.withCrcAcc v) = mapNext (·.withCrcAcc v) (heater h s) := by
  simp only [heater, withCrcAcc_fsm, execCmdReadCfg, execCmdWriteCfg, send_withCrcAcc]
  split
  · rfl
  · -- CFGR_W: the byte read is latched in TB before the Write is sent
    exact readCfgThen_withCrcAcc fun b =>
      congrArg Host.Outcome.next (send_withCrcAcc (s := { s with tb := b }) .cfgwW _)
  · exact writeDoneThen_withCrcAcc rfl -- CFGW_W
  all_goals rfl

theorem execIllegal_withCrcAcc (b : Byte) :
    execIllegal b (s.withCrcAcc v) = mapNext (·.withCrcAcc v) (execIllegal b s) := by
  simp only [execIllegal, withCrcAcc_fsm]
  cases s.fsm <;> rfl

theorem runOp_withCrcAcc (op : HostOp) : runOp op (s.withCrcAcc v) = mapNext (·.withCrcAcc v) (runOp op s) := by
  cases op with
  | softReset => exact execSoftReset_withCrcAcc
  | measT | measRh => exact measureRun_withCrcAcc _ _
  | readCfg | readEob => exact readConfiguration_withCrcAcc
  | writeCfg => exact execWriteCfg_withCrcAcc
  | heaterOn | heaterOff => exact heater_withCrcAcc _

theorem exec_decodeOp_withCrcAcc (b : Byte) :
    exec (decodeOp b) (s.withCrcAcc v) = mapNext (·.withCrcAcc v) (exec (decodeOp b) s) := by
  unfold decodeOp
  split
  · rw [exec_instr, exec_instr, runOp_withCrcAcc]
  · exact execIllegal_withCrcAcc b

/-! ### Answers -/

theorem resume_withCrcAcc (p : Presented) :
    resume (s.withCrcAcc v) (p.map (·.withCrcAcc v)) = mapNext (·.withCrcAcc v) (resume s p) := by
  cases p with
  | ignored | refused => rfl
  | received t => exact exec_decodeOp_withCrcAcc t.opl

theorem presentResponse_withCrcAcc (r : Response) :
    presentResponse r (s.withCrcAcc v) = (presentResponse r s).map (·.withCrcAcc v) := by
  simp only [presentResponse, withCrcAcc_req]
  split
  · rfl
  · split <;> rfl

theorem presentDelayDone_withCrcAcc :
    presentDelayDone (s.withCrcAcc v) = (presentDelayDone s).map (·.withCrcAcc v) := by
  unfold presentDelayDone
  rw [withCrcAcc_delay, withCrcAcc_fsm, withCrcAcc_nowMs]
  split
  · rfl
  · split
    · split <;> rfl
    · rfl

theorem event_withCrcAcc {e : Input} (ha : ∀ w, e ≠ .access w) (hr : e ≠ .blockReset) :
    event e (s.withCrcAcc v) = mapNext (·.withCrcAcc v) (event e s) := by
  cases e with
  | access w => exact absurd rfl (ha w)
  | blockReset => exact absurd rfl hr
  | elapse | secondResponse => rfl
  | response r => simp only [event, presentResponse_withCrcAcc, resume_withCrcAcc]
  | delayDone => simp only [event, presentDelayDone_withCrcAcc, resume_withCrcAcc]
  | lateResponse r =>
    simp only [event, presentLateResponse, withCrcAcc_req]
    split <;> rfl
  | lateDelayDone =>
    simp only [event, presentLateDelayDone, withCrcAcc_delay]
    split <;> rfl

end

/-! ### Steps -/

theorem mapNext_withCrcAcc_withCrcAcc (v w : Byte) (r : Result) :
    mapNext (·.withCrcAcc w) (mapNext (·.withCrcAcc v) r) = mapNext (·.withCrcAcc w) r := by
  cases r <;> rfl

theorem step_withCrcAcc {s : State} {e : Input} {rest : List Input} (v : Byte) (hi : s.inbox = e :: rest)
    (ha : ∀ w, e ≠ .access w) (hr : e ≠ .blockReset) :
    step (s.withCrcAcc v) = mapNext (·.withCrcAcc v) (step s) := by
  rw [step_cons hi, step_cons (s := s.withCrcAcc v) hi]
  exact event_withCrcAcc (s := takeEvent rest s) ha hr

/-- Settles O47: an answer or the passing of time keeps CRC_ACC and does not read it; block reset clears it. -/
theorem validatorIgnoresTheHostCrcUnit : Obligations.ValidatorIgnoresTheHostCrcUnit := by
  intro s e rest hi ha
  refine ⟨fun v => ?unread, fun hr t h => ?unwritten⟩
  case unread =>
    by_cases hr : e = .blockReset
    · subst hr
      rw [step_cons hi, step_cons (s := s.withCrcAcc v) hi]
      rfl
    · rw [step_withCrcAcc v hi ha hr, mapNext_withCrcAcc_withCrcAcc]
  case unwritten =>
    have kept : t.hostOwned = s.hostOwned := sequencerNeverWritesHostRegisters s t e rest hi ha hr h
    exact congrArg (·.2.2.2.1) kept

end Sys2Proof.Machine
end

section
/-! Proofs of the statements of 42_framer_ops.md: what each operation does in each of its places, said once per shared
procedure, and a measured temperature from the CMD write to the host's conversion. -/

namespace Sys2Proof.Machine

section
variable {s : State} {b d0 d1 c : Byte} {code : BitVec 2} {wire : State → Result} {kind : MeasKind} {h : BitVec 1}

/-! ### SOFT_RESET in its places -/

/-- RST_W: either answer to the Write starts the delay (R155). -/
theorem execSoftReset_answered (hf : s.fsm = .rstW)
    (ha : s.arrival = some (.response (.ok [])) ∨ ∃ code, s.arrival = some (.response (.err code))) :
    execSoftReset s = .next (issueDelay s) := by
  rcases ha with ha | ⟨code, ha⟩ <;> simp only [execSoftReset, hf, ha]

/-- RST_D: when the delay is over the operation completes (R155). -/
theorem execSoftReset_settled (hf : s.fsm = .rstD) (ha : s.arrival = some .delayDone) :
    execSoftReset s = .next (complete .none 0 { s with valid := s.valid.afterSoftReset }) := by
  simp only [execSoftReset, hf, ha]

/-! ### A measurement in its places -/

theorem measureRun_idle (hf : s.fsm = .idle) : measureRun wire kind s = wire s := by
  simp only [measureRun, hf]

/-- MEAS_W: after the Write's `Ok` the command goes on with its Read (R156). -/
theorem measureRun_commanded (hf : s.fsm = .measW) (ha : s.arrival = some (.response (.ok []))) :
    measureRun wire kind s = wire s := by
  simp only [measureRun, hf, awaitOk_ok _ ha]

/-- MEAS_R: the sample is published if its checksum is right, and otherwise the operation fails (R156). -/
theorem measureRun_sample (hf : s.fsm = .measR) (ha : s.arrival = some (.response (.ok [d0, d1, c]))) :
    measureRun wire kind s =
      .next (if crc8 [d0, d1] = c then complete .none 0 (publishSample kind d0 d1 c s)
        else complete .integrity 0 s) := by
  simp only [measureRun, hf, awaitOk_ok _ ha, sampleIntact, beq_iff_eq]
  split <;> rfl

/-- MEAS_W and MEAS_R: an `Err` ends the measurement (R156). -/
theorem measureRun_failed (hf : s.fsm = .measW ∨ s.fsm = .measR) (ha : s.arrival = some (.response (.err code))) :
    measureRun wire kind s = .next (complete .transport code s) := by
  rcases hf with hf | hf <;> simp only [measureRun, hf, awaitOk_err _ ha]

/-! ### The configuration operations in their places -/

theorem readCfgThen_err (k : Byte → Result) (ha : s.arrival = some (.response (.err code))) :
    readCfgThen s k = .next (complete .transport code s) :=
  awaitOk_err _ ha

theorem writeDoneThen_ok (k : Result) (ha : s.arrival = some (.response (.ok []))) : writeDoneThen s k = k :=
  awaitOk_ok _ ha

theorem writeDoneThen_err (k : Result) (ha : s.arrival = some (.response (.err code))) :
    writeDoneThen s k = .next (complete .transport code s) :=
  awaitOk_err _ ha

/-- CFGR_W: the byte read is published (R160, R161). -/
theorem readConfiguration_read (hf : s.fsm = .cfgrW) (ha : s.arrival = some (.response (.ok [b]))) :
    readConfiguration s = .next (complete .none 0 (publishRead b s)) := by
  simp only [readConfiguration, hf, readCfgThen_one _ ha]

theorem readConfiguration_failed (hf : s.fsm = .cfgrW) (ha : s.arrival = some (.response (.err code))) :
    readConfiguration s = .next (complete .transport code s) := by
  simp only [readConfiguration, hf, readCfgThen_err _ ha]

/-- CFGW_W: the latched byte is published (R162). -/
theorem execWriteCfg_written (hf : s.fsm = .cfgwW) (ha : s.arrival = some (.response (.ok []))) :
    execWriteCfg s = .next (complete .none 0 (publishWritten s.argl s)) := by
  simp only [execWriteCfg, hf, writeDoneThen_ok _ ha, writePayload_eq]

theorem execWriteCfg_failed (hf : s.fsm = .cfgwW) (ha : s.arrival = some (.response (.err code))) :
    execWriteCfg s = .next (complete .transport code s) := by
  simp only [execWriteCfg, hf, writeDoneThen_err _ ha]

/-! ### The heater operations in their places -/

theorem heater_idle (hf : s.fsm = .idle) (hr : s.req = none) (hd : s.delay = none) :
    heater h s = .next (issue .cfgrW (Request.writeReadOf wireReadCfg) s) := by
  simp only [heater, hf, execCmdReadCfg, send_quiet _ _ hr hd]

/-- CFGR_W: the byte read goes to TB and, with its heater bit changed, into the Write (R163, R164). -/
theorem heater_read (hf : s.fsm = .cfgrW) (ha : s.arrival = some (.response (.ok [b]))) (hr : s.req = none)
    (hd : s.delay = none) :
    heater h s = .next (issue .cfgwW (Request.writeOf [wireWriteCfg, setHeater b h]) { s with tb := b }) := by
  simp only [heater, hf, readCfgThen_one _ ha, execCmdWriteCfg]
  exact congrArg Host.Outcome.next (send_quiet _ _ hr hd)

/-- CFGW_W: the byte read and the byte written are both published (R163, R164). -/
theorem heater_written (hf : s.fsm = .cfgwW) (ha : s.arrival = some (.response (.ok []))) :
    heater h s = .next (complete .none 0 (publishWritten (setHeater s.tb h) (publishRead s.tb s))) := by
  simp only [heater, hf, writeDoneThen_ok _ ha]

theorem heater_failed (hf : s.fsm = .cfgrW ∨ s.fsm = .cfgwW) (ha : s.arrival = some (.response (.err code))) :
    heater h s = .next (complete .transport code s) := by
  rcases hf with hf | hf
  · simp only [heater, hf, readCfgThen_err _ ha]
  · simp only [heater, hf, writeDoneThen_err _ ha]

/-! ### ILLEGAL -/

theorem execIllegal_idle (hf : s.fsm = .idle) : execIllegal b s = .next (complete .illegalOp 0 s) := by
  simp only [execIllegal, hf, raise]

end

/-! ### The operations follow their rules -/

/-- Settles O23, place by place. -/
theorem softResetFollowsItsRule : Obligations.SoftResetFollowsItsRule := fun _ hr hd =>
  ⟨fun hf => runOp_idle (op := .softReset) hf hr hd, execSoftReset_answered, execSoftReset_settled⟩

/-- Settles O24, place by place: both instructions are the one procedure `measure`, each with its command and kind. -/
theorem measurementFollowsItsRule : Obligations.MeasurementFollowsItsRule := by
  intro s i cmd kind hr hd hi ended
  have hexec : exec i s = measureRun (fun u => .next (measureFrames cmd u)) kind s := by
    rcases hi with ⟨rfl, rfl, rfl⟩ | ⟨rfl, rfl, rfl⟩ <;> rfl
  rw [hexec]
  refine ⟨fun hf => ?idle, fun hf ha => ?commanded, fun d0 d1 c hf ha hc => ?intact, fun d0 d1 c hf ha hc => ?corrupt,
    fun code => measureRun_failed⟩
  case idle =>
    rw [measureRun_idle hf, measureFrames_write cmd (by simp [hf]) hr hd]
    rfl
  case commanded =>
    rw [measureRun_commanded hf ha, measureFrames_read cmd hf ha hr hd]
    rfl
  case intact =>
    rw [measureRun_sample hf ha, if_pos hc]
    rfl
  case corrupt =>
    rw [measureRun_sample hf ha, if_neg hc]
    rfl

/-- The end-of-battery flag of the byte and of its field view (40_codec.md R129). -/
theorem fieldview_endOfBattery (b : Byte) : (fieldview b).getLsbD 4 = b.getLsbD 6 := by
  obtain ⟨-, -, hbits, -⟩ := fieldViewIsABitPermutation
  exact Option.some.inj (congrArg (·[3]?) (hbits b))

/-- Settles O25, place by place: both instructions are the one procedure of R160. -/
theorem configurationReadFollowsItsRule : Obligations.ConfigurationReadFollowsItsRule := by
  intro s i hr hd hi
  have hexec : exec i s = readConfiguration s := by rcases hi with rfl | rfl <;> rfl
  rw [hexec]
  exact ⟨fun hf => runOp_idle (op := .readCfg) hf hr hd,
    fun b hf ha => ⟨readConfiguration_read hf ha, fieldview_endOfBattery b⟩, fun _ => readConfiguration_failed⟩

/-- Settles O26, place by place; the payload is ARGL by `writePayload_eq`. -/
theorem configurationWriteFollowsItsRule : Obligations.ConfigurationWriteFollowsItsRule := fun _ hr hd =>
  ⟨fun hf => runOp_idle (op := .writeCfg) hf hr hd, execWriteCfg_written, fun _ => execWriteCfg_failed⟩

/-- Settles O27, place by place: `set_heater` changes bit 2 only (`setHeater_eq`). -/
theorem heaterFollowsItsRule : Obligations.HeaterFollowsItsRule := by
  intro s i change hr hd hi
  obtain ⟨h, hexec, rfl⟩ : ∃ h, exec i s = heater h s ∧ change = (setHeater · h) := by
    rcases hi with ⟨rfl, rfl⟩ | ⟨rfl, rfl⟩
    · exact ⟨1, rfl, funext fun b => (setHeater_eq b 1).symm⟩
    · exact ⟨0, rfl, funext fun b => (setHeater_eq b 0).symm⟩
  rw [hexec]
  exact ⟨fun hf => heater_idle hf hr hd, fun b hf ha => heater_read hf ha hr hd, heater_written,
    fun _ => heater_failed⟩

/-- Settles O20: the operation completes at once, and the CMD write runs it after the acceptance. -/
theorem reservedCommandIsIllegal : Obligations.ReservedCommandIsIllegal := by
  refine fun s b hf => ⟨(execIllegal_idle (b := b) hf).trans ?own, fun hreserved hb =>
    ⟨_, (writeCommand_idle b hb).trans (acceptCommand_reserved hf hreserved), rfl, rfl, rfl, rfl, rfl, rfl⟩⟩
  case own =>
    rw [complete, ← hf]
    rfl

/-! ### What a completion lets the host convert -/

theorem countOf_complete_error {e : ErrCode} (kind : MeasKind) (x : BitVec 2) (u : State) (he : e ≠ .none) :
    (complete e x u).countOf? kind (complete e x u).shownCompletion? = none := by
  refine if_neg fun hcount => he ?_
  obtain ⟨hmeaning, -⟩ := Bool.and_eq_true_iff.mp hcount
  obtain ⟨last, hlast, hnone, -⟩ := resultMeaningful_iff.mp hmeaning
  rw [shownCompletion_idle rfl] at hlast
  cases hlast
  exact hnone

/-- After a MEAS_T that published its sample the host has a count for the sample's own kind only
(49_host_conversion.md R219). -/
theorem countOf_complete_sample {u : State} (k kind : MeasKind) (d0 d1 c : Byte) (hc : u.cmd = HostOp.measT.code) :
    let t := complete .none 0 (publishSample k d0 d1 c u)
    t.countOf? kind t.shownCompletion? = if k = kind then some (d0 ++ maskedLow d1).toNat else none := by
  intro t
  have hmeaning : t.resultMeaningful .rawh t.shownCompletion? = true :=
    resultMeaningful_iff.mpr ⟨_, shownCompletion_idle rfl, rfl, ⟨.measT, by simp [resultWriters], hc.symm⟩, rfl⟩
  simp only [State.countOf?, hmeaning, Bool.true_and, beq_iff_eq]
  rfl

/-- Masking clears the two low bits of the low byte (10_state.md R32). -/
theorem toNat_maskedLow (d : Byte) : (maskedLow d).toNat = d.toNat - d.toNat % 4 := by revert d; decide

/-- The count the host reads of a published sample (30_encoding.md R104). -/
theorem toNat_append_maskedLow (d0 d1 : Byte) :
    (d0 ++ maskedLow d1).toNat = d0.toNat * 256 + (d1.toNat - d1.toNat % 4) := by
  rw [BitVec.toNat_append, ← Nat.shiftLeft_add_eq_or_of_lt (maskedLow d1).isLt, toNat_maskedLow, Nat.shiftLeft_eq]

/-! ### A measured temperature -/

/-- The Write of MEAS_T is answered: the Read is issued. -/
theorem step_commanded {s : State} {rest : List Input} {bytes : List Byte} (hi : s.inbox = .response (.ok []) :: rest)
    (hf : s.fsm = .measW) (ho : s.opl = HostOp.measT.code) (hq : s.req = some (Request.writeOf bytes))
    (hd : s.delay = none) :
    let received : State := { takeEvent rest s with req := none, arrival := some (.response (.ok [])) }
    step s = .next (issue .measR Request.readSample received) := by
  intro received
  rw [step_response hi hq rfl, ho, decodeOp_code]
  exact (measureRun_commanded (s := received) hf rfl).trans
    (congrArg Host.Outcome.next (measureFrames_read (s := received) _ hf rfl rfl hd))

/-- The Read of MEAS_T is answered: the sample is published, or the operation ends with INTEGRITY. -/
theorem step_sample {s : State} {rest : List Input} {d0 d1 c : Byte}
    (hi : s.inbox = .response (.ok [d0, d1, c]) :: rest) (hf : s.fsm = .measR) (ho : s.opl = HostOp.measT.code)
    (hq : s.req = some Request.readSample) :
    let received : State := { takeEvent rest s with req := none, arrival := some (.response (.ok [d0, d1, c])) }
    step s = .next (if crc8 [d0, d1] = c then complete .none 0 (publishSample .temperature d0 d1 c received)
      else complete .integrity 0 received) := by
  rw [step_response hi hq rfl, ho, decodeOp_code]
  exact measureRun_sample hf rfl

/-- Settles O57: the three events end in a completion that shows NONE with the published count, or INTEGRITY. -/
theorem measuredTemperatureIsTheFormulaOrNothing : Obligations.MeasuredTemperatureIsTheFormulaOrNothing := by
  intro s d0 d1 c rest hs hf hi
  have hb := hs.not_busy_of_idle hf
  obtain ⟨-, hq, hd⟩ := hs.idle_of_not_busy hb
  have run := ((run_next 2 (step_op (op := .measT) hi hb hf hq hd)).trans
    (run_next 1 (step_commanded rfl rfl rfl rfl hd))).trans (run_next 0 (step_sample rfl rfl rfl rfl))
  by_cases hc : crc8 [d0, d1] = c
  · rw [if_pos hc] at run ⊢
    refine ⟨_, run, rfl, ?humidity, ?temperature⟩
    case humidity => exact congrArg (Option.map humidityOf) (countOf_complete_sample _ _ d0 d1 c rfl)
    case temperature =>
      rw [← toNat_append_maskedLow]
      exact congrArg (Option.map temperatureOf) (countOf_complete_sample _ _ d0 d1 c rfl)
  · rw [if_neg hc] at run ⊢
    exact ⟨_, run, rfl, congrArg (Option.map humidityOf) (countOf_complete_error _ _ _ (by decide)),
      congrArg (Option.map temperatureOf) (countOf_complete_error _ _ _ (by decide))⟩

end Sys2Proof.Machine
end

section
/-! Proofs of the statements of 43_host_access.md: the byte views of the flag registers bit by bit, the reads and writes of
the host's registers, and the CMD write that is accepted or rejected. -/

namespace Sys2Proof.Machine

/-! ### The byte views, bit by bit

In the proofs about these bytes `-Nat.reduceAdd` keeps the width of a concatenation a sum, as the library's lemmas about
`++` have it. -/

section
variable (t : Status)

theorem Status.toByte_done : t.toByte.getLsbD 1 = t.done := by
  simp [Status.toByte, BitVec.getLsbD_append, -Nat.reduceAdd, -BitVec.getLsbD_eq_getElem]

theorem Status.toByte_err : t.toByte.extractLsb' 2 3 = t.err.code := by
  simp [Status.toByte, BitVec.extractLsb'_append_eq_of_add_le, BitVec.extractLsb'_append_eq_of_le, -Nat.reduceAdd]

theorem Status.toByte_ovr : t.toByte.getLsbD 5 = t.ovr := by
  simp [Status.toByte, BitVec.getLsbD_append, -Nat.reduceAdd, -BitVec.getLsbD_eq_getElem]

theorem Status.toByte_txerr : t.toByte.extractLsb' 6 2 = t.txerr := by
  simp [Status.toByte, BitVec.extractLsb'_append_eq_of_le, -Nat.reduceAdd]

end

/-- While BUSY the outcome fields read 0: only BUSY and OVR can be set (R188). -/
theorem StatusInv.toByte_busy {s : State} (hs : StatusInv s) (hb : s.status.busy = true) :
    s.status.toByte &&& 0xDF = 0x01 := by
  obtain ⟨hdone, herr, htxerr⟩ := hs.quiet_while_busy hb
  rw [Status.toByte, hb, hdone, herr, htxerr]
  cases s.status.ovr <;> rfl

theorem irqenByte_eq (doneIe : Bool) : irqenByte doneIe = if doneIe then 0x01 else 0x00 := by
  cases doneIe <;> rfl

/-- KIND is 1 for a humidity sample (10_state.md R33). -/
theorem MeasKind.bit_getLsbD_zero_iff {k : MeasKind} : k.bit.getLsbD 0 = true ↔ k = .humidity := by
  cases k <;> decide

/-- The fields of VALID's byte, lowest bit first (R209). -/
theorem Valid.toByte_fields (v : Valid) :
    v.toByte.getLsbD 0 = v.measV ∧ v.toByte.getLsbD 1 = v.cfgrdV ∧ v.toByte.getLsbD 2 = v.cfgwrV ∧
    v.toByte.extractLsb' 3 5 = 0 := by
  simp [Valid.toByte, BitVec.getLsbD_append, BitVec.extractLsb'_append_eq_of_le, -Nat.reduceAdd,
    -BitVec.getLsbD_eq_getElem]

/-- The fields of MSTAT's byte, lowest bit first (R196). -/
theorem Mstat.toByte_fields (m : Mstat) :
    m.toByte.extractLsb' 0 2 = m.sbits ∧ (m.toByte.getLsbD 2 = true ↔ m.kind = .humidity) ∧
    m.toByte.extractLsb' 3 5 = 0 := by
  simp [Mstat.toByte, MeasKind.bit_getLsbD_zero_iff, BitVec.getLsbD_append, BitVec.extractLsb'_append_eq_of_add_le,
    BitVec.extractLsb'_append_eq_of_le, -Nat.reduceAdd, -BitVec.getLsbD_eq_getElem]

/-! ### Reads -/

/-- Settles O13: each read drives its register, and the views are read field by field. -/
theorem readsOfControlRegisters : Obligations.ReadsOfControlRegisters := by
  refine fun s d => ⟨rfl, ⟨_, exec_readOf .status d s, ?status⟩, ?irqen, rfl, rfl, rfl, rfl, rfl,
    ⟨_, exec_readOf .valid d s, s.valid.toByte_fields⟩⟩
  case status =>
    have herr {e : ErrCode} (h : s.status.err = e) : s.status.toByte.extractLsb' 2 3 = e.code := h ▸ s.status.toByte_err
    exact ⟨status_bit_zero _, s.status.toByte_done, herr, herr, herr, herr, herr, s.status.toByte_ovr,
      s.status.toByte_txerr, StatusInv.toByte_busy⟩
  case irqen =>
    rw [← irqenByte_eq]
    rfl

/-- The two low bits of a byte that masks to 0 are 0 (10_state.md R32). -/
theorem extractLsb'_of_and_three {b : Byte} (h : b &&& 0x03 = 0) : b.extractLsb' 0 2 = 0 := by
  revert b
  decide

/-- Settles O14: each read drives its register; the corner cases are clauses of the sample invariant. -/
theorem readsOfResultRegisters : Obligations.ReadsOfResultRegisters := fun s d =>
  ⟨rfl, rfl, fun hs => extractLsb'_of_and_three hs.rawl_masked,
    ⟨_, exec_readOf .mstat d s, s.mstat.toByte_fields⟩, rfl, SampleInv.checksum, rfl, rfl, rfl⟩

/-! ### Writes -/

/-- Settles O16: the six meanings are these updates; `irq` is DONE & DONE_IE, and `fieldview` undoes `byteview`. -/
theorem writesOfPlainRegisters : Obligations.WritesOfPlainRegisters := fun _ v =>
  ⟨rfl, fun hdone => by simp [State.irq, hdone], rfl, rfl, rfl, rfl, rfl, fieldview_byteview v⟩

theorem and_not_eq_ite (flag clear : Bool) : (flag && !clear) = if clear = true then false else flag := by
  cases clear <;> simp

/-- A set bit of the written byte clears its flag, any other leaves it (R189). -/
theorem Status.cleared_eq (t : Status) (v : Byte) :
    t.cleared v =
      { t with
        done := if v.getLsbD 1 = true then false else t.done
        ovr := if v.getLsbD 5 = true then false else t.ovr } := by
  simp only [Status.cleared, and_not_eq_ite]

/-- Settles O17: STATUS is `Status.cleared`, flag by flag, and without DONE there is no interrupt. -/
theorem statusWriteClearsDoneAndOvrOnly : Obligations.StatusWriteClearsDoneAndOvrOnly := by
  refine fun s v => ⟨_, rfl, ?next, fun hdone => by simp [State.irq, hdone]⟩
  rw [← Status.cleared_eq]
  rfl

/-- Settles O18: the meaning of each of the eight rows is the state before. -/
theorem writesToReadOnlyRegistersDoNothing : Obligations.WritesToReadOnlyRegistersDoNothing := fun _ _ =>
  ⟨rfl, rfl, rfl, rfl, rfl, rfl, rfl, rfl⟩

/-! ### CMD -/

/-- Settles O21: both rows of the word are `writeCommand`, which rejects while BUSY. -/
theorem rejectedCommandSetsOvrOnly : Obligations.RejectedCommandSetsOvrOnly := fun _ v hb =>
  ⟨writeCommand_busy v hb, writeCommand_busy v hb⟩

theorem accept_idle {s : State} (v : Byte) (hb : s.status.busy = false) :
    accept v s =
      { s with
        cmd := v, opl := v, argl := s.arg
        status := { busy := false, done := false, err := .none, ovr := s.status.ovr, txerr := 0 } } := by
  rw [accept, Status.accepted, hb]

theorem complete_idle {s : State} (e : ErrCode) (x : BitVec 2) (hf : s.fsm = .idle) :
    complete e x s = { s with status := s.status.completed e x, arrival := none } := by
  rw [complete, ← hf]

theorem not_reserved_code (op : HostOp) : ¬ reservedOpByte op.code = true := by
  simp [reservedOpByte_iff]

/-- The acceptance runs the instruction that its byte decodes to (R185). -/
theorem acceptCommand_eq_exec (v : Byte) (s : State) :
    acceptCommand v s =
      exec (decodeOp v) (if reservedOpByte v = true then accept v s else setBusy (accept v s)) := by
  rcases reserved_or_code v with h | ⟨op, rfl⟩
  · rw [if_pos h, decodeOp_reserved h, acceptCommand, (reservedOpByte_iff v).mp h]
    rfl
  · rw [if_neg (not_reserved_code op), decodeOp_code, exec_instr, acceptCommand, HostOp.ofByte_code]

/-- Settles O22: `acceptCommand_eq_exec`, with the acceptance written out. -/
theorem acceptedCommandRunsTheDecodedOperation : Obligations.AcceptedCommandRunsTheDecodedOperation := by
  intro s v hb accepted
  calc exec (.wrCmd v) s = acceptCommand v s := writeCommand_idle v hb
    _ = exec (decodeOp v) (if reservedOpByte v = true then accept v s else setBusy (accept v s)) :=
      acceptCommand_eq_exec v s
    _ = exec (decodeOp v) (if reservedOpByte v = true then accepted else setBusy accepted) := by rw [accept_idle v hb]

/-- Settles O19: an operation's code issues its first request, a reserved byte completes at once. -/
theorem acceptedCommandStartsItsOperation : Obligations.AcceptedCommandStartsItsOperation := by
  intro s hb hf hr hd started write readCfg
  have start (op : HostOp) : exec (.wrCmd op.code) s =
      .next (started op.code (firstRequest op s.arg).1 (firstRequest op s.arg).2) :=
    (writeCommand_idle _ hb).trans (acceptCommand_op hf hr hd)
  refine ⟨start .softReset, start .measT, start .measRh, start .readCfg, start .writeCfg, start .heaterOn,
    start .heaterOff, start .readEob, fun b hreserved => ?reserved⟩
  case reserved =>
    calc exec (.wrCmd b) s = acceptCommand b s := writeCommand_idle b hb
      _ = .next (complete .illegalOp 0 (accept b s)) := acceptCommand_reserved hf hreserved
      _ = .next { accept b s with status := (accept b s).status.completed .illegalOp 0, arrival := none } := by
        rw [complete_idle _ _ (s := accept b s) hf]

end Sys2Proof.Machine
end

section
/-! Proof of the statement of 49_host_conversion.md: both conversions grow by a positive slope with every count. -/

namespace Sys2Proof.Machine

/-- R217's reason: a function that grows by a positive slope with every count is strictly increasing. -/
theorem strictMono_of_slope_pos {f : ℕ → ℚ} {slope : ℚ} (hslope : 0 < slope)
    (hf : ∀ raw k : ℕ, f (raw + k) = f raw + k * slope) : StrictMono f :=
  strictMono_nat_of_lt_succ fun raw => by
    rw [hf raw 1, Nat.cast_one, one_mul]
    exact lt_add_of_pos_right _ hslope

theorem temperatureOf_add (raw k : ℕ) :
    temperatureOf (raw + k) = temperatureOf raw + k * (17572 / 100 / 65536) := by
  simp only [temperatureOf, Nat.cast_add]
  ring

theorem humidityOf_add (raw k : ℕ) : humidityOf (raw + k) = humidityOf raw + k * (125 / 65536) := by
  simp only [humidityOf, Nat.cast_add]
  ring

@[simp] theorem temperatureOf_zero : temperatureOf 0 = -(4685 / 100) := by simp [temperatureOf]

@[simp] theorem humidityOf_zero : humidityOf 0 = -6 := by simp [humidityOf]

theorem temperatureOf_strictMono : StrictMono temperatureOf :=
  strictMono_of_slope_pos (by norm_num) temperatureOf_add

theorem humidityOf_strictMono : StrictMono humidityOf :=
  strictMono_of_slope_pos (by norm_num) humidityOf_add

/-- Settles O58: the steps and the order come from the slopes; the values are the formulas evaluated. -/
theorem conversionsAreIncreasingAndExact : Obligations.ConversionsAreIncreasingAndExact := by
  refine ⟨fun _ => rfl, fun _ => rfl, temperatureOf_strictMono, humidityOf_strictMono,
    fun raw => ?temperatureStep, fun raw => ?humidityStep,
    temperatureOf_zero, ?temperatureExample, ?temperatureMax, humidityOf_zero, ?humidityExample, ?humidityMax⟩
  case temperatureStep =>
    rw [temperatureOf_add, add_sub_cancel_left]
    norm_num
  case humidityStep =>
    rw [humidityOf_add, add_sub_cancel_left]
    norm_num
  case temperatureExample | temperatureMax => norm_num [temperatureOf]
  case humidityExample | humidityMax => norm_num [humidityOf]

end Sys2Proof.Machine
end

section
/-! Proofs of the statements of 60_exceptions.md: which moves raise the interrupt, and a host access followed by an answer
to the operation in progress. -/

namespace Sys2Proof.Machine

/-! ### The interrupt -/

/-- The moves that can raise `irq`: those that end an operation, and the two accesses that set DONE or DONE_IE
(60_exceptions.md R223, R229). -/
theorem Moves.irq_raised {s t : State} {e : Input} (m : Moves s e t) (hlow : s.irq = false) (hhigh : t.irq = true) :
    (s.fsm ≠ .idle ∧ t.fsm = .idle ∧ t.status.done = true) ∨
    ∃ w, e = .access w ∧ accessWe w = true ∧
      ((Reg.ofAddr (accessAddr w) = .cmd ∧ reservedOpByte (accessData w) = true ∧ s.status.busy = false) ∨
        (Reg.ofAddr (accessAddr w) = .irqen ∧ (accessData w).getLsbD 0 = true ∧ s.status.done = true)) := by
  have not_before (h : s.irq = true) : False := by simp [hlow] at h
  cases m with
  | resetDone _ hf | sampled _ _ _ hf | corrupt _ _ _ hf | readDone _ hf | written hf | heaterDone _ hf =>
    exact .inl ⟨by simp [hf], rfl, rfl⟩
  | failed _ hf => exact .inl ⟨by rintro h; simp [h] at hf, rfl, rfl⟩
  | illegal w hw hr hb _ hv => exact .inr ⟨w, rfl, hw, .inl ⟨hr, hv, hb⟩⟩
  | wrIrqen w hw hr =>
    obtain ⟨hdone, henable⟩ := Bool.and_eq_true_iff.mp hhigh
    exact .inr ⟨w, rfl, hw, .inr ⟨hr, henable, hdone⟩⟩
  | wrStatus w =>
    obtain ⟨hdone, henable⟩ := Bool.and_eq_true_iff.mp hhigh
    have hbefore : s.status.done = true := (Bool.and_eq_true_iff.mp hdone).1
    exact (not_before (Bool.and_eq_true_iff.mpr ⟨hbefore, henable⟩)).elim
  | started | reset => cases hhigh
  | read | rejected | wrArg | wrCrc | wrCodec | readOnly | stray | elapsed | settle | commanded | modified =>
    exact (not_before hhigh).elim

/-- Settles O52, by the moves: `Moves.irq_raised`. -/
theorem interruptRisesOnlyWithACompletionOrAnEnable : Obligations.InterruptRisesOnlyWithACompletionOrAnEnable := by
  intro s t hs h hlow hhigh
  rcases step_moves hs h with ⟨-, rfl⟩ | ⟨e, rest, hi, m⟩
  · simp [hlow] at hhigh
  · refine (m.irq_raised hlow hhigh).imp_right fun ⟨w, he, hcause⟩ => ⟨w, ?_, hcause⟩
    rw [hi, he, List.head?_cons]

/-! ### A host access before an answer -/

/-- What an answer leaves of STATUS and CMD, and that it sets DONE if it ends the operation (60_exceptions.md R226). -/
theorem Moves.status_of_answer {s t : State} {e : Input} (ha : Answers s e) (m : Moves s e t) :
    t.cmd = s.cmd ∧ t.status.ovr = s.status.ovr ∧ (t.fsm = .idle → t.status.done = true) := by
  cases m with
  | stray _ hna => exact absurd ha hna
  | read | rejected | started | illegal | wrStatus | wrIrqen | wrArg | wrCrc | wrCodec | readOnly | elapsed | reset =>
    exact ha.elim
  | settle | commanded | modified => exact ⟨rfl, rfl, nofun⟩
  | resetDone | failed | sampled | corrupt | readDone | written | heaterDone => exact ⟨rfl, rfl, fun _ => rfl⟩

/-- A step on an answer to what is outstanding. -/
theorem step_answer {s : State} {e : Input} {rest : List Input} (hs : SequencerInv s) (ha : Answers s e)
    (hi : s.inbox = e :: rest) :
    ∃ t, step s = .next t ∧ answersLeft t < answersLeft s ∧ t.cmd = s.cmd ∧ t.status.ovr = s.status.ovr ∧
      (t.fsm = .idle → t.status.done = true) := by
  have hta : Answers (takeEvent rest s) e := answers_takeEvent.mpr ha
  obtain ⟨t, ht, m⟩ := event_of_answers (sequencerInv_takeEvent rest hs) hta
  have hleft : answersLeft t < answersLeft (takeEvent rest s) := m.answersLeft_lt hta
  obtain ⟨hcmd, hovr, hdone⟩ : t.cmd = (takeEvent rest s).cmd ∧ _ := m.status_of_answer hta
  exact ⟨t, (step_cons hi).trans ht, hleft, hcmd, hovr, hdone⟩

/-- An answer is still one after an event that leaves the operation alone: time only brings a delay nearer to its end. -/
theorem Answers.of_undisturbed {s t : State} {e : Input} (ha : Answers s e) (h : Undisturbed s t) : Answers t e := by
  cases e with
  | response r =>
    obtain ⟨q, hq, hr⟩ := ha
    exact ⟨q, h.req.trans hq, hr⟩
  | delayDone =>
    obtain ⟨hf, d, hd, ht⟩ := ha
    exact ⟨h.fsm.trans hf, d, h.delay.trans hd, ht.trans h.time⟩
  | access | secondResponse | lateResponse | lateDelayDone | elapse | blockReset => exact ha.elim

theorem Undisturbed.answersLeft_eq {s t : State} (h : Undisturbed s t) : answersLeft t = answersLeft s := by
  simp only [answersLeft, h.fsm, h.opl]

/-- While an operation is in progress any access leaves it alone, and the answer behind it moves the operation on as if
the access had not been (60_exceptions.md R233). -/
theorem step_answer_after_access {s t : State} {w : AccessWord} {e : Input} {rest : List Input} (hs : SequencerInv s)
    (hf : s.fsm ≠ .idle) (ha : Answers s e) (hi : s.inbox = .access w :: e :: rest) (ht : step s = .next t) :
    ∃ u, step t = .next u ∧ answersLeft u < answersLeft s ∧ u.cmd = s.cmd ∧ u.status.ovr = t.status.ovr ∧
      (u.fsm = .idle → u.status.done = true) := by
  have hm : Moves (takeEvent (e :: rest) s) (.access w) t :=
    event_moves (sequencerInv_takeEvent _ hs) ((step_cons hi).symm.trans ht)
  have hst : Undisturbed s t := (hm.undisturbed_of_access fun _ _ => hs.busy_iff.mpr hf).of_takeEvent
  obtain ⟨hit, -⟩ := hm.port_of_access rfl
  obtain ⟨u, hu, hleft, hcmd, hovr, hdone⟩ := step_answer (hs.of_undisturbed hst) (ha.of_undisturbed hst) hit
  exact ⟨u, hu, hst.answersLeft_eq ▸ hleft, hcmd.trans hst.cmd, hovr, hdone⟩

/-- A CMD write while BUSY is rejected (43_host_access.md R186). -/
theorem step_rejected {s : State} {v : Byte} {rest : List Input} (h : s.inbox = .access (wrWord .cmd v) :: rest)
    (hb : s.status.busy = true) : step s = .next (reject (takeEvent rest s)) := by
  rw [step_write h, exec_writeOf_cmd]
  exact writeCommand_busy v hb

/-- Settles O53: in each case the access has its own step, and the answer comes after it (`step_answer_after_access`). -/
theorem sameCycleAccessComesFirst : Obligations.SameCycleAccessComesFirst := by
  intro s e rest hs hf ha
  refine ⟨fun v hi => ?status, fun v hi => ?cmd, fun r hi => ?read⟩
  case status =>
    have ht := step_write hi
    obtain ⟨u, hu, -, -, -, hdone⟩ := step_answer_after_access hs hf ha hi ht
    exact ⟨u, (run_next 1 ht).trans (run_next 0 hu), hdone⟩
  case cmd =>
    have ht := step_rejected hi (hs.busy_iff.mpr hf)
    obtain ⟨u, hu, hleft, hcmd, hovr, hdone⟩ := step_answer_after_access hs hf ha hi ht
    exact ⟨u, (run_next 1 ht).trans (run_next 0 hu), hovr, hcmd, hleft, hdone⟩
  case read =>
    have ht := step_read hi
    obtain ⟨u, hu, hleft, -⟩ := step_answer_after_access hs hf ha hi ht
    exact ⟨_, u, ht, by cases r <;> rfl, hu, hleft⟩

end Sys2Proof.Machine
end

section
/-! Proofs of the statements of 70_reset_and_hazards.md: how an operation in progress comes to its end, when a result
register has a meaning, what block reset and the boot order leave, and the answers that nothing waits for. -/

namespace Sys2Proof.Machine

/-! ### An operation comes to its end -/

/-- No operation needs more than two answers (70_reset_and_hazards.md R259). -/
theorem answersLeft_le_two (s : State) : answersLeft s ≤ 2 := by
  unfold answersLeft
  cases s.fsm with
  | cfgrW => dsimp only; split <;> decide
  | idle | rstW | rstD | measW | measR | cfgwW => simp

/-- Settles O42: `step_answer` brings the end nearer, and an idle state in order is not busy and awaits nothing. -/
theorem everyAnswerBringsCompletionNearer : Obligations.EveryAnswerBringsCompletionNearer := by
  intro s e rest hs hf hi ha
  obtain ⟨t, ht, hleft, -, -, hdone⟩ := step_answer hs ha hi
  refine ⟨answersLeft_pos hf, answersLeft_le_two s, t, ht, hleft, fun hidle => ?_⟩
  have hst := step_keeps_sequencerInv hs ht
  have hb := hst.not_busy_of_idle hidle
  exact ⟨hdone hidle, hb, (hst.idle_of_not_busy hb).2⟩

/-- But for block reset, a step leaves the operation in progress undisturbed, or is a move on an answer to what is
outstanding. -/
theorem step_undisturbed_or_answer {s t : State} (hs : SequencerInv s) (hf : s.fsm ≠ .idle) (h : step s = .next t)
    (hreset : s.inbox.head? ≠ some .blockReset) :
    Undisturbed s t ∨ ∃ e rest, s.inbox = e :: rest ∧ Answers s e ∧ Moves (takeEvent rest s) e t := by
  rcases hi : s.inbox with _ | ⟨e, rest⟩
  · rw [step_nil hi] at h
    cases h
    exact .inl (.refl s)
  · rw [step_cons hi] at h
    have htake := sequencerInv_takeEvent rest hs
    by_cases ha : Answers s e
    · exact .inr ⟨e, rest, rfl, ha, event_moves htake h⟩
    · have he : e ≠ .blockReset := by simpa [hi] using hreset
      exact .inl (event_undisturbed htake hf (ha ∘ answers_takeEvent.mp) he h).of_takeEvent

/-! ### The reset delay -/

/-- Settles O45: in RST_D no transport request is outstanding, so the only answer is `delay_done`, in time. -/
theorem softResetHoldsForTheSettleTime : Obligations.SoftResetHoldsForTheSettleTime := by
  intro s t hs hf h
  have hidle : s.fsm ≠ .idle := by simp [hf]
  have hq : s.req = none := hs.request.trans (by simp [expectedRequest, hf])
  by_cases hreset : s.inbox.head? = some .blockReset
  · exact .inr (.inl hreset)
  rcases step_undisturbed_or_answer hs hidle h hreset with hu | ⟨e, rest, hi, ha, m⟩
  · exact .inl ⟨hu.fsm.trans hf, hu.delay, hu.req.trans hq, hu.busy.trans (hs.busy_iff.mpr hidle)⟩
  · cases e with
    | response r =>
      obtain ⟨q, hsome, -⟩ := ha
      simp [hq] at hsome
    | delayDone =>
      cases m with
      | resetDone d _ _ hd ht => exact .inr (.inr ⟨by rw [hi, List.head?_cons], ⟨d, hd, ht⟩, rfl, rfl, rfl⟩)
      | stray _ hna => exact absurd (answers_takeEvent.mpr ha) hna
    | access | secondResponse | lateResponse | lateDelayDone | elapse | blockReset => exact ha.elim

/-! ### When a result register has a meaning -/

/-- The VALID bit of a register that an operation writes, from the three bits: the operations that write a register are
those of the place in which they publish it (70_reset_and_hazards.md R254). -/
theorem Valid.bitOf_of_writer {v : Valid} {r : Reg} {b : Byte} (hb : b ∈ (resultWriters r).map HostOp.code)
    (hmeas : b ∈ operationsOf .measR → v.measV = true) (hread : b ∈ operationsOf .cfgrW → v.cfgrdV = true)
    (hwrite : b ∈ operationsOf .cfgwW → v.cfgwrV = true) : v.bitOf r = true := by
  cases r with
  | rawh | rawl | mstat | mcrc => exact hmeas hb
  | cfgRd | cfgFields => exact hread hb
  | cfgWr => exact hwrite hb
  | cmd | status | irqen | arg | crcAcc | crcDin | codecByte | codecFields | valid => cases hb

/-- A completion with NONE leaves the VALID bit of every register that its operation writes set. -/
theorem Moves.bitOf_of_completed {s t : State} {e : Input} {r : Reg} (ha : Answers s e) (m : Moves s e t)
    (hidle : t.fsm = .idle) (hok : t.status.err = .none) (hr : s.opl ∈ (resultWriters r).map HostOp.code) :
    t.valid.bitOf r = true := by
  cases m with
  | stray _ hna => exact absurd ha hna
  | read | rejected | started | illegal | wrStatus | wrIrqen | wrArg | wrCrc | wrCodec | readOnly | elapsed | reset =>
    exact ha.elim
  | settle | commanded | modified => cases hidle
  | failed | corrupt => cases hok
  | resetDone _ _ ho =>
    refine Valid.bitOf_of_writer hr ?_ ?_ ?_ <;> simp [ho, operationsOf, HostOp.code]
  | sampled _ _ _ _ ho =>
    have ho' : s.opl = HostOp.measT.code ∨ s.opl = HostOp.measRh.code := by simpa [operationsOf] using ho
    refine Valid.bitOf_of_writer hr (fun _ => rfl) ?_ ?_ <;>
      rcases ho' with ho | ho <;> simp [ho, operationsOf, HostOp.code]
  | readDone _ _ ho =>
    refine Valid.bitOf_of_writer hr ?_ (fun _ => rfl) ?_ <;>
      rcases ho with ho | ho <;> simp [ho, operationsOf, HostOp.code]
  | written _ ho =>
    refine Valid.bitOf_of_writer hr ?_ ?_ (fun _ => rfl) <;> simp [ho, operationsOf, HostOp.code]
  | heaterDone _ _ ho =>
    refine Valid.bitOf_of_writer hr ?_ (fun _ => rfl) (fun _ => rfl)
    rcases ho with ⟨ho, -⟩ | ⟨ho, -⟩ <;> simp [ho, operationsOf, HostOp.code]

/-- At an operation's end a register has a meaning exactly if ERR is NONE and the operation writes it. -/
theorem resultMeaningful_completed_iff {s t : State} {past : List State} (hs : SequencerInv s) (hf : s.fsm ≠ .idle)
    (h : step s = .next t) (hidle : t.fsm = .idle) (hreset : s.inbox.head? ≠ some .blockReset) (r : Reg) :
    t.resultMeaningful r (lastCompletion? (t :: past)) = true ↔
      t.status.err = .none ∧ s.opl ∈ (resultWriters r).map HostOp.code := by
  obtain ⟨e, rest, -, ha, m⟩ := (step_undisturbed_or_answer hs hf h hreset).resolve_left
    fun hu => hf (hu.fsm.symm.trans hidle)
  have hta : Answers (takeEvent rest s) e := answers_takeEvent.mpr ha
  have hcmd : t.cmd = s.opl := (m.status_of_answer hta).1.trans (hs.command hf)
  rw [lastCompletion_idle past ((step_keeps_sequencerInv hs h).not_busy_of_idle hidle), hcmd, resultMeaningful_iff]
  constructor
  · rintro ⟨c, hc, hok, hwriter, -⟩
    cases hc
    exact ⟨hok, List.mem_map.mpr hwriter⟩
  · rintro ⟨hok, hwriter⟩
    exact ⟨_, rfl, hok, List.mem_map.mp hwriter, m.bitOf_of_completed hta hidle hok hwriter⟩

/-- A step into a state with an operation in progress leaves the results. -/
theorem results_of_busy {s t : State} (hs : SequencerInv s) (h : step s = .next t) (hb : t.status.busy = true) :
    t.results = s.results := by
  by_contra hchanged
  have hreset : s.inbox.head? ≠ some .blockReset := by
    intro he
    obtain ⟨rest, hi⟩ := List.head?_eq_some_iff.mp he
    rw [step_cons hi] at h
    cases h
    cases hb
  obtain ⟨-, hidle, -⟩ := resultsChangeOnlyInASuccessfulCompletion s t hs h hreset hchanged
  exact (step_keeps_sequencerInv hs h).busy_iff.mp hb hidle

/-- A register with a meaning is one that some operation writes. -/
theorem mem_results_of_writer {r : Reg} {op : HostOp} (h : op ∈ resultWriters r) :
    r ∈ ([.rawh, .rawl, .mstat, .mcrc, .cfgRd, .cfgFields, .cfgWr] : List Reg) := by
  cases r with
  | rawh | rawl | mstat | mcrc | cfgRd | cfgFields | cfgWr => decide
  | cmd | status | irqen | arg | crcAcc | crcDin | codecByte | codecFields | valid => cases h

/-- Settles O41: the end of an operation by `resultMeaningful_completed_iff`, all other steps by what they leave. -/
theorem resultsAreMeaningfulAfterTheirOperationOnly : Obligations.ResultsAreMeaningfulAfterTheirOperationOnly := by
  refine ⟨fun s t past hs hf h hidle hreset => ?completed, fun s t past r hs h hb => ?busy,
    fun s past r hb he => ?failed, fun s last r hm => ?other, fun last r => ?reset⟩
  case completed =>
    intro meaningful
    have meaningful_iff (r : Reg) : meaningful r = true ↔
        t.status.err = .none ∧ s.opl ∈ (resultWriters r).map HostOp.code :=
      resultMeaningful_completed_iff hs hf h hidle hreset r
    have sampleWriters : ∀ r ∈ ([.rawh, .rawl, .mstat, .mcrc] : List Reg),
        (resultWriters r).map HostOp.code = [0x02, 0x03] := by decide
    have readWriters : ∀ r ∈ ([.cfgRd, .cfgFields] : List Reg),
        (resultWriters r).map HostOp.code = [0x04, 0x08, 0x06, 0x07] := by decide
    refine ⟨fun r hr => sampleWriters r hr ▸ meaningful_iff r, fun r hr => readWriters r hr ▸ meaningful_iff r,
      meaningful_iff .cfgWr, fun he => ⟨?results, fun r => ?noMeaning⟩⟩
    case results =>
      by_contra hchanged
      obtain ⟨-, -, -, hok⟩ := resultsChangeOnlyInASuccessfulCompletion s t hs h hreset hchanged
      exact he hok
    case noMeaning => exact Bool.eq_false_iff.mpr fun hm => he ((meaningful_iff r).mp hm).1
  case busy =>
    have hvalid : t.valid = s.valid := congrArg (fun p => p.2.2.2) (results_of_busy hs h hb)
    rw [lastCompletion_busy _ hb]
    exact resultMeaningful_congr r _ hvalid
  case failed =>
    rw [lastCompletion_idle past hb]
    refine Bool.eq_false_iff.mpr fun hm => ?_
    obtain ⟨c, hc, hok, -⟩ := resultMeaningful_iff.mp hm
    cases hc
    exact he hok
  case other =>
    obtain ⟨-, -, -, ⟨op, hop, -⟩, -⟩ := resultMeaningful_iff.mp hm
    exact mem_results_of_writer hop
  case reset =>
    refine Bool.eq_false_iff.mpr fun hm => ?_
    obtain ⟨-, -, -, -, hbit⟩ := resultMeaningful_iff.mp hm
    cases r <;> cases hbit

/-! ### Block reset -/

theorem step_blockReset {s : State} {rest : List Input} (h : s.inbox = .blockReset :: rest) :
    step s = .next (blockReset (takeEvent rest s)) :=
  step_cons h

/-- No register reads the inbox or the time, which block reset keeps (log 15). -/
theorem readReg_blockReset (s : State) (r : Reg) : (blockReset s).readReg r = State.reset.readReg r := by
  cases r <;> rfl

/-- A CMD write that a quiet idle block takes is accepted: CMD holds its byte and OVR is as before (43_host_access.md
R185). -/
theorem step_accepted {s : State} {v : Byte} {rest : List Input} (h : s.inbox = .access (wrWord .cmd v) :: rest)
    (hs : SequencerInv s) (hf : s.fsm = .idle) :
    ∃ t, step s = .next t ∧ t.cmd = v ∧ t.status.ovr = s.status.ovr := by
  have hb := hs.not_busy_of_idle hf
  obtain ⟨-, hq, hd⟩ := hs.idle_of_not_busy hb
  rcases reserved_or_code v with hv | ⟨op, rfl⟩
  · exact ⟨_, step_reserved h hb hf hv, rfl, rfl⟩
  · exact ⟨_, step_op h hb hf hq hd, rfl, rfl⟩

/-- Settles O33: the registers read as in the reset state, and the state after block reset is in order and idle. -/
theorem blockResetAbandonsEverything : Obligations.BlockResetAbandonsEverything := by
  intro s rest hi
  obtain ⟨hzero, -⟩ := resetStateIsQuiet
  exact ⟨_, step_blockReset hi, fun r => (readReg_blockReset _ r).trans (hzero r), rfl, rfl, rfl, rfl, rfl,
    fun v rest' hnext => step_accepted hnext (sequencerInv_blockReset _) rfl⟩

/-! ### The boot order -/

theorem step_elapse {s : State} {ms : Nat} {rest : List Input} (h : s.inbox = .elapse ms :: rest) :
    step s = .next (elapse ms (takeEvent rest s)) :=
  step_cons h

/-- A write of IRQEN, whatever the state (43_host_access.md R191). -/
theorem step_writeIrqen {s : State} {v : Byte} {rest : List Input} (h : s.inbox = .access (wrWord .irqen v) :: rest) :
    step s = .next { takeEvent rest s with doneIe := v.getLsbD 0 } :=
  step_write h

/-- The Write of SOFT_RESET is answered, by `Ok` or an `Err`: the delay is issued (42_framer_ops.md R155). -/
theorem step_softReset_answered {s : State} {r : Response} {rest : List Input} {bytes : List Byte}
    (h : s.inbox = .response r :: rest) (hr : r = .ok [] ∨ ∃ code, r = .err code) (hf : s.fsm = .rstW)
    (ho : s.opl = HostOp.softReset.code) (hq : s.req = some (Request.writeOf bytes)) :
    step s = .next (issueDelay { takeEvent rest s with req := none, arrival := some (.response r) }) := by
  have haccepts : (Request.writeOf bytes).accepts r = true := by rcases hr with rfl | ⟨code, rfl⟩ <;> rfl
  rw [step_response h hq haccepts, ho, decodeOp_code]
  exact execSoftReset_answered hf (by simpa using hr)

/-- The delay of SOFT_RESET is over: the operation completes (42_framer_ops.md R155). -/
theorem step_softReset_settled {s : State} {d : DelayRequest} {rest : List Input} (h : s.inbox = .delayDone :: rest)
    (hf : s.fsm = .rstD) (ho : s.opl = HostOp.softReset.code) (hd : s.delay = some d)
    (ht : d.since + d.ms ≤ s.nowMs) :
    step s = .next (complete .none 0
      { takeEvent rest s with delay := none, arrival := some .delayDone, valid := s.valid.afterSoftReset }) := by
  rw [step_delayDone h hf hd ht, ho, decodeOp_code]
  exact execSoftReset_settled hf rfl

/-- The WriteRead of READ_CFG is answered: its byte is published (42_framer_ops.md R160). -/
theorem step_readCfg_done {s : State} {b c : Byte} {rest : List Input} (h : s.inbox = .response (.ok [b]) :: rest)
    (hf : s.fsm = .cfgrW) (ho : s.opl = HostOp.readCfg.code) (hq : s.req = some (Request.writeReadOf c)) :
    step s = .next (complete .none 0
      (publishRead b { takeEvent rest s with req := none, arrival := some (.response (.ok [b])) })) := by
  rw [step_response h hq rfl, ho, decodeOp_code]
  exact readConfiguration_read hf rfl

/-- Block reset, the power-up time and IRQEN leave the block idle with the reset registers but for DONE_IE. -/
theorem run_bootPrepared {s : State} {irq : Bool} {ms : Nat} {rest : List Input}
    (hi : s.inbox = .blockReset :: .elapse ms :: .access (wrWord .irqen (if irq then 0x01 else 0x00)) :: rest)
    (n : Nat) : ∃ t, core.run (n + 3) s = core.run n t ∧ SequencerInv t ∧ t.fsm = .idle ∧ t.inbox = rest ∧
      t.valid = State.reset.valid ∧ t.status = State.reset.status ∧ t.doneIe = irq := by
  have waited := (run_next (n + 2) (step_blockReset hi)).trans (run_next (n + 1) (step_elapse rfl))
  refine ⟨_, waited.trans (run_next n (step_writeIrqen rfl)), ?inOrder, rfl, rfl, rfl, rfl, by cases irq <;> rfl⟩
  case inOrder =>
    exact (sequencerInv_blockReset _).of_undisturbed
      ⟨rfl, rfl, rfl, rfl, rfl, rfl, rfl, rfl, rfl, rfl, Nat.le_add_right _ _⟩

/-- SOFT_RESET runs to its completion, whatever its Write was answered (42_framer_ops.md R155). -/
theorem run_softReset {s : State} {r : Response} {settle : Nat} {rest : List Input} (hs : SequencerInv s)
    (hf : s.fsm = .idle) (hr : r = .ok [] ∨ ∃ code, r = .err code) (hsettle : 15 ≤ settle)
    (hi : s.inbox = (AsmLine.op .softReset).inputs ++ .response r :: .elapse settle :: .delayDone :: rest) (n : Nat) :
    ∃ t, core.run (n + 4) s = core.run n t ∧ SequencerInv t ∧ t.fsm = .idle ∧ t.inbox = rest ∧
      t.valid = s.valid.afterSoftReset ∧ t.status.ovr = s.status.ovr ∧ t.doneIe = s.doneIe := by
  have hb := hs.not_busy_of_idle hf
  obtain ⟨-, hq, hd⟩ := hs.idle_of_not_busy hb
  have started := run_next (n + 3) (step_op (op := .softReset) hi hb hf hq hd)
  have answered := started.trans (run_next (n + 2) (step_softReset_answered rfl hr rfl rfl rfl))
  have waited := answered.trans (run_next (n + 1) (step_elapse rfl))
  have settled := waited.trans
    (run_next n (step_softReset_settled rfl rfl rfl rfl (Nat.add_le_add_left hsettle s.nowMs)))
  exact ⟨_, settled, sequencerInv_complete _ _ rfl rfl, rfl, rfl, rfl, rfl, rfl⟩

/-- READ_CFG, answered with one byte, ends idle with that byte in CFG_RD (42_framer_ops.md R160). -/
theorem run_readCfg {s : State} {b : Byte} {rest : List Input} (hs : SequencerInv s) (hf : s.fsm = .idle)
    (hi : s.inbox = (AsmLine.op .readCfg).inputs ++ .response (.ok [b]) :: rest) (n : Nat) :
    ∃ t, core.run (n + 2) s = core.run n t ∧ t.fsm = .idle ∧ t.inbox = rest ∧ t.cfgRd = b ∧
      t.valid = { s.valid with cfgrdV := true } ∧ t.status = ⟨false, true, .none, s.status.ovr, 0⟩ ∧
      t.doneIe = s.doneIe := by
  have hb := hs.not_busy_of_idle hf
  obtain ⟨-, hq, hd⟩ := hs.idle_of_not_busy hb
  have started := run_next (n + 1) (step_op (op := .readCfg) hi hb hf hq hd)
  exact ⟨_, started.trans (run_next n (step_readCfg_done rfl rfl rfl rfl)), rfl, rfl, rfl, rfl, rfl, rfl⟩

/-- Settles O34: the three parts of the boot order one after another, each from the idle state that the part before
leaves. -/
theorem bootLeavesTheSensorsConfiguration : Obligations.BootLeavesTheSensorsConfiguration := by
  intro s irq resetAnswer b settle rest hanswer hsettle hi
  obtain ⟨u, hu, hsu, hfu, hiu, hvu, hstu, hie⟩ := run_bootPrepared hi 6
  obtain ⟨w, hw, hsw, hfw, hiw, hvw, hovr, hiew⟩ := run_softReset hsu hfu hanswer hsettle hiu 2
  obtain ⟨t, ht, hft, hit, hcfg, hvt, hst, hiet⟩ := run_readCfg hsw hfw hiw 0
  rw [hvw, hvu] at hvt
  rw [hovr, hstu] at hst
  have hdoneIe : t.doneIe = irq := hiet.trans (hiew.trans hie)
  exact ⟨t, hu.trans (hw.trans ht), hit, hft, hcfg, hvt, hst, by simp [State.irq, hst, hdoneIe]⟩

/-! ### Stray answers -/

/-- Settles O44: each is an answer that the block ignores. -/
theorem strayAnswersChangeNothing : Obligations.StrayAnswersChangeNothing := by
  refine fun s rest => ⟨fun r hi hq => ?response, fun hi hf => ?delayDone, fun r hi => ?second⟩
  case response => rw [step_cons hi, event, presentResponse_none (s := takeEvent rest s) r hq]; rfl
  case delayDone => rw [step_cons hi, event, presentDelayDone_stray (s := takeEvent rest s) hf]; rfl
  case second => rw [step_cons hi]; rfl

end Sys2Proof.Machine
end
